-- ==== Sys2Proof/Word.lean ====
section
/-! DEFINITION. The widths of 00_scope.md R6: the bit vectors every other file is written in. -/

namespace Sys2Proof

/-- A cell of SRC, WIN, OUT or FMEM, and the operand field `T` (R6, R51). -/
abbrev Byte := BitVec 8

/-- The operand field `IDX` (R51). -/
abbrev Half := BitVec 16

/-- The operand fields `A`, `B`, `C`, the CRC register, a tree or table entry, `rsp.r1` (R6, R51). -/
abbrev Word := BitVec 32

/-- `rsp.r0`, `bs.pos`, `lz.wpos`, the L1 word (R6, R16). -/
abbrev DWord := BitVec 64

/-- A command word `CMD` (R6, R50). -/
abbrev Command := BitVec 128

end Sys2Proof
end

