-- ==== Sys2Proof/Config.lean ====
section
/-! DEFINITION. What a build of the block fixes (00_scope.md R5, 93 U7): the constants, and the parameters a
build may choose with their legal ranges and defaults. Log entry 3 says how the model takes them. -/

namespace Sys2Proof

/-- `IF_VERSION`, the command-set version (R2, R5). -/
def ifVersion : Nat := 1

/-- `L1_BITS`, the width of the L1 word (R5). -/
def l1Bits : Nat := 64

/-- `HUF_TABLES`, the number of table slots (R5). -/
def hufTables : Nat := 8

/-- `CRC_POLY`, the reflected CRC-32 polynomial (R5, R90; 93 G1). -/
def crcPoly : Word := 0xEDB88320#32

/-- `EMPTY`, the sentinel of tree nodes and table entries (R9, R101). -/
def emptyWord : Word := 0xFFFFFFFF#32

/-- The parameters R5 leaves to a build (`OPEN` in 92_eei_decisions.md). `SRC_TOTAL`, a property of the
environment, stands with the source itself (`Machine.Src`). -/
structure Params where
  /-- `L2_BYTES`, bytes in the L2 line. -/
  l2Bytes : Nat
  /-- `TABLE_DEPTH`, depth limit of the Huffman lookup table. -/
  tableDepth : Nat
  /-- `HUF_STAGE_SIZE`, entries of the staging memory. -/
  hufStageSize : Nat
  /-- `HUF_NODE_CAP`, tree nodes per slot. -/
  hufNodeCap : Nat
  /-- `WIN_LOG2_MAX`, the largest window exponent. -/
  winLog2Max : Nat
  /-- `FLT_MEM_SIZE`, bytes of FMEM. -/
  fltMemSize : Nat
deriving DecidableEq, Repr

/-- The legal ranges of R5. -/
abbrev Params.Legal (p : Params) : Prop :=
  (p.l2Bytes % 8 = 0 ∧ 8 ≤ p.l2Bytes ∧ p.l2Bytes < 2 ^ 31) ∧
  (1 ≤ p.tableDepth ∧ p.tableDepth ≤ 16) ∧
  (1 ≤ p.hufStageSize ∧ p.hufStageSize ≤ 65535) ∧
  (1 ≤ p.hufNodeCap ∧ p.hufNodeCap ≤ 2 ^ 27 - 1) ∧
  p.winLog2Max ≤ 31 ∧
  (p.fltMemSize % 2 = 0 ∧ 8 ≤ p.fltMemSize ∧ p.fltMemSize ≤ 2 ^ 31)

/-- The defaults of R5. -/
def Params.default : Params where
  l2Bytes := 4096
  tableDepth := 10
  hufStageSize := 1024
  hufNodeCap := 65536
  winLog2Max := 30
  fltMemSize := 0x40000

end Sys2Proof
end

