-- ==== Sys2Proof/Machine/Operands.lean ====
section
/-! DEFINITION. The static operand ranges of 30_encoding.md R54, one predicate per row of its table. An operand is
taken whole from its field and zero-extended (`toNat`); outside its range the command answers `BadCommand` (R55).
The meanings check them in the order of their rules, and `Instr.wellFormed` collects them. -/

namespace Sys2Proof.Machine

/-- `BS.READ`, `BS.PEEK`: `n` is 0 to 32. -/
def bitCountOk (n : Byte) : Bool := n.toNat ≤ 32

/-- `CRC.UPD`: `count` is 1 to 4. -/
def byteCountOk (count : Byte) : Bool := 1 ≤ count.toNat && count.toNat ≤ 4

/-- `HUF.STAGE`: `length` is 0 to 31. -/
def codeLengthOk (length : Byte) : Bool := length.toNat ≤ 31

/-- `HUF.STAGE`: `index` is 0 to `HUF_STAGE_SIZE - 1`. -/
def stageIndexOk (p : Params) (index : Half) : Bool := index.toNat < p.hufStageSize

/-- Every HUF command with a slot: 0 to 7. -/
def slotOk (slot : Byte) : Bool := slot.toNat < hufTables

/-- `HUF.BUILDL`, `HUF.BUILDC`: `count` is 0 to `HUF_STAGE_SIZE`. -/
def stageCountOk (p : Params) (count : Half) : Bool := count.toNat ≤ p.hufStageSize

/-- `HUF.BUILDL`, `HUF.BUILDC`: `maxlen` is 1 to 31. -/
def maxlenOk (maxlen : Word) : Bool := 1 ≤ maxlen.toNat && maxlen.toNat ≤ 31

/-- The three operands of a build (R105, R107). -/
def buildOperandsOk (p : Params) (slot : Byte) (count : Half) (maxlen : Word) : Bool :=
  slotOk slot && stageCountOk p count && maxlenOk maxlen

/-- `LZ.INIT`: `k` is 0 to `WIN_LOG2_MAX`. -/
def windowExponentOk (p : Params) (k : Byte) : Bool := k.toNat ≤ p.winLog2Max

/-- `LZ.SETOUT`: `flags` is 0 or 1. -/
def outFlagsOk (flags : Byte) : Bool := flags.toNat ≤ 1

/-- `FLT.RGB`: `posr` is 0 to 2. -/
def posrOk (posr : Byte) : Bool := posr.toNat ≤ 2

/-- `FLT.DELTA`, `FLT.AUDIO`: `channels` is 1 or more. -/
def channelsOk (channels : Word) : Bool := 1 ≤ channels.toNat

/-- `FLT.WR`, `FLT.RD`: `addr` is 0 to `FLT_MEM_SIZE - 1`. -/
def fmemAddrOk (p : Params) (addr : Word) : Bool := addr.toNat < p.fltMemSize

/-- `SYS.PARAM`: `index` is 0 to 10. -/
def paramIndexOk (index : Byte) : Bool := index.toNat ≤ 10

end Sys2Proof.Machine
end

