-- ==== Sys2Proof/Syntax.lean ====
section
/-! DEFINITION. The 44 commands of 30_encoding.md R53, one constructor per row of spec/opcode_table.json.
An operand has the width of the field that carries it (R51) and stands in the order of R53's syntax column;
which values are legal is WellFormed.lean's and the meanings' business (R54). -/

namespace Sys2Proof

/-- The commands, unit by unit. -/
inductive Instr where
  /-- `SYS.NOP` (R160) -/
  | sysNop
  /-- `SYS.RESET` (R161) -/
  | sysReset
  /-- `SYS.STAT` (R162) -/
  | sysStat
  /-- `SYS.PARAM index` (R163) -/
  | sysParam (index : Byte)
  /-- `BS.OPEN base, size` (R73) -/
  | bsOpen (base size : Word)
  /-- `BS.READ n` (R74) -/
  | bsRead (n : Byte)
  /-- `BS.PEEK n` (R76) -/
  | bsPeek (n : Byte)
  /-- `BS.SKIP n` (R77) -/
  | bsSkip (n : Word)
  /-- `BS.ALIGN` (R78) -/
  | bsAlign
  /-- `BS.HAS n` (R79) -/
  | bsHas (n : Word)
  /-- `BS.ATEND` (R80) -/
  | bsAtend
  /-- `BS.ERR` (R81) -/
  | bsErr
  /-- `BS.BACK n` (R82) -/
  | bsBack (n : Word)
  /-- `BS.TELL` (R83) -/
  | bsTell
  /-- `CRC.SEED value` (R92) -/
  | crcSeed (value : Word)
  /-- `CRC.UPD count, data` (R93) -/
  | crcUpd (count : Byte) (data : Word)
  /-- `CRC.GET` (R94) -/
  | crcGet
  /-- `CRC.UPDO off, len` (R95) -/
  | crcUpdo (off len : Word)
  /-- `CRC.UPDF off, len` (R96) -/
  | crcUpdf (off len : Word)
  /-- `HUF.STAGE index, length, code, symbol` (R104) -/
  | hufStage (index : Half) (length : Byte) (code symbol : Word)
  /-- `HUF.BUILDL slot, count, maxlen` (R105) -/
  | hufBuildl (slot : Byte) (count : Half) (maxlen : Word)
  /-- `HUF.BUILDC slot, count, maxlen` (R107) -/
  | hufBuildc (slot : Byte) (count : Half) (maxlen : Word)
  /-- `HUF.DECODE slot` (R109) -/
  | hufDecode (slot : Byte)
  /-- `HUF.FREE slot` (R110) -/
  | hufFree (slot : Byte)
  /-- `HUF.RDTAB slot, index` (R111) -/
  | hufRdtab (slot : Byte) (index : Word)
  /-- `HUF.RDNODE slot, index` (R112) -/
  | hufRdnode (slot : Byte) (index : Word)
  /-- `LZ.INIT k` (R122) -/
  | lzInit (k : Byte)
  /-- `LZ.SETOUT flags, cap` (R123) -/
  | lzSetout (flags : Byte) (cap : Word)
  /-- `LZ.LIT byte` (R126) -/
  | lzLit (byte : Byte)
  /-- `LZ.COPY offset, length` (R127) -/
  | lzCopy (offset length : Word)
  /-- `LZ.DRAIN` (R128) -/
  | lzDrain
  /-- `LZ.HASOV` (R129) -/
  | lzHasov
  /-- `LZ.OUTLEN` (R130) -/
  | lzOutlen
  /-- `LZ.OUTRD index` (R131) -/
  | lzOutrd (index : Word)
  /-- `LZ.TELL` (R132) -/
  | lzTell
  /-- `LZ.WINRD offset` (R133) -/
  | lzWinrd (offset : Word)
  /-- `FLT.WR addr, byte` (R143) -/
  | fltWr (addr : Word) (byte : Byte)
  /-- `FLT.RD addr` (R144) -/
  | fltRd (addr : Word)
  /-- `FLT.DELTA pos, len, channels` (R145) -/
  | fltDelta (pos len channels : Word)
  /-- `FLT.AUDIO pos, len, channels` (R146) -/
  | fltAudio (pos len channels : Word)
  /-- `FLT.RGB pos, len, stride, posr` (R147) -/
  | fltRgb (pos len stride : Word) (posr : Byte)
  /-- `FLT.X86 pos, len` (R148) -/
  | fltX86 (pos len : Word)
  /-- `FLT.X86E9 pos, len` (R150) -/
  | fltX86e9 (pos len : Word)
  /-- `FLT.ARM pos, len` (R149) -/
  | fltArm (pos len : Word)
deriving DecidableEq, Repr

end Sys2Proof
end

