-- ==== Sys2Proof/WellFormed.lean ====
section
/-! DEFINITION. Which commands are legal (30_encoding.md R54): every operand lies in its static range for a build's
parameters. A command that is not well formed answers `BadCommand` and nothing else (R55). -/

namespace Sys2Proof

open Machine

/-- R54's table, command by command. -/
def Instr.wellFormed (p : Params) : Instr → Bool
  | .sysNop => true
  | .sysReset => true
  | .sysStat => true
  | .sysParam index => paramIndexOk index
  | .bsOpen _ _ => true
  | .bsRead n => bitCountOk n
  | .bsPeek n => bitCountOk n
  | .bsSkip _ => true
  | .bsAlign => true
  | .bsHas _ => true
  | .bsAtend => true
  | .bsErr => true
  | .bsBack _ => true
  | .bsTell => true
  | .crcSeed _ => true
  | .crcUpd count _ => byteCountOk count
  | .crcGet => true
  | .crcUpdo _ _ => true
  | .crcUpdf _ _ => true
  | .hufStage index length _ _ => stageIndexOk p index && codeLengthOk length
  | .hufBuildl slot count maxlen => buildOperandsOk p slot count maxlen
  | .hufBuildc slot count maxlen => buildOperandsOk p slot count maxlen
  | .hufDecode slot => slotOk slot
  | .hufFree slot => slotOk slot
  | .hufRdtab slot _ => slotOk slot
  | .hufRdnode slot _ => slotOk slot
  | .lzInit k => windowExponentOk p k
  | .lzSetout flags _ => outFlagsOk flags
  | .lzLit _ => true
  | .lzCopy _ _ => true
  | .lzDrain => true
  | .lzHasov => true
  | .lzOutlen => true
  | .lzOutrd _ => true
  | .lzTell => true
  | .lzWinrd _ => true
  | .fltWr addr _ => fmemAddrOk p addr
  | .fltRd addr => fmemAddrOk p addr
  | .fltDelta _ _ channels => channelsOk channels
  | .fltAudio _ _ channels => channelsOk channels
  | .fltRgb _ _ _ posr => posrOk posr
  | .fltX86 _ _ => true
  | .fltX86e9 _ _ => true
  | .fltArm _ _ => true

end Sys2Proof
end

