-- ==== Sys2Proof/Decode.lean ====
section
/-! DEFINITION. The command word (30_encoding.md R50 to R56, R60): its fields, its nine formats, the opcode map, the
decoder (total, rejecting by name) and, after it, the encoder written from the same table. Operand RANGES are not
the decoder's: some depend on a build's parameters, so the meanings check them (log entry 15). -/

namespace Sys2Proof

/-- `OPC`, bits 7:0 (R51). -/
def opcField (w : Command) : Byte := w.extractLsb' 0 8

/-- `T`, bits 15:8 (R51). -/
def tField (w : Command) : Byte := w.extractLsb' 8 8

/-- `IDX`, bits 31:16 (R51). -/
def idxField (w : Command) : Half := w.extractLsb' 16 16

/-- `A`, bits 63:32 (R51). -/
def aField (w : Command) : Word := w.extractLsb' 32 32

/-- `B`, bits 95:64 (R51). -/
def bField (w : Command) : Word := w.extractLsb' 64 32

/-- `C`, bits 127:96 (R51). -/
def cField (w : Command) : Word := w.extractLsb' 96 32

/-- The nine formats of R52, named by the fields they use. -/
inductive Format where
  | n | t | a | ab | abc | ta | tabc | tia | tiab
deriving DecidableEq, Repr

/-- The bits a format fixes: `OPC` and every must-be-zero bit (R52; the `mask` of spec/opcode_table.json, R60). -/
def Format.mask : Format → Command
  | .n => 0xFFFFFFFFFFFFFFFFFFFFFFFFFFFFFFFF#128
  | .t => 0xFFFFFFFFFFFFFFFFFFFFFFFFFFFF00FF#128
  | .a => 0xFFFFFFFFFFFFFFFF00000000FFFFFFFF#128
  | .ab => 0xFFFFFFFF0000000000000000FFFFFFFF#128
  | .abc => 0x000000000000000000000000FFFFFFFF#128
  | .ta => 0xFFFFFFFFFFFFFFFF00000000FFFF00FF#128
  | .tabc => 0x000000000000000000000000FFFF00FF#128
  | .tia => 0xFFFFFFFFFFFFFFFF00000000000000FF#128
  | .tiab => 0xFFFFFFFF0000000000000000000000FF#128

/-- Why a command word is not a command (R55 (a) and (b)); each is answered `BadCommand`. -/
inductive DecodeError where
  /-- `OPC` is not listed in R53. -/
  | unknownOpcode
  /-- A bit of a field the format does not use is set. -/
  | reservedBits
deriving DecidableEq, Repr

/-- The opcode map of R53: for an opcode, its format and the command its fields make. -/
def opcodeMap (opc t : Byte) (idx : Half) (a b c : Word) : Option (Format × Instr) :=
  match opc.toNat with
  | 0x00 => some (.n, .sysNop)
  | 0x01 => some (.n, .sysReset)
  | 0x02 => some (.n, .sysStat)
  | 0x03 => some (.t, .sysParam t)
  | 0x10 => some (.ab, .bsOpen a b)
  | 0x11 => some (.t, .bsRead t)
  | 0x12 => some (.t, .bsPeek t)
  | 0x13 => some (.a, .bsSkip a)
  | 0x14 => some (.n, .bsAlign)
  | 0x15 => some (.a, .bsHas a)
  | 0x16 => some (.n, .bsAtend)
  | 0x17 => some (.n, .bsErr)
  | 0x18 => some (.a, .bsBack a)
  | 0x19 => some (.n, .bsTell)
  | 0x20 => some (.a, .crcSeed a)
  | 0x21 => some (.ta, .crcUpd t a)
  | 0x22 => some (.n, .crcGet)
  | 0x23 => some (.ab, .crcUpdo a b)
  | 0x24 => some (.ab, .crcUpdf a b)
  | 0x30 => some (.tiab, .hufStage idx t a b)
  | 0x31 => some (.tia, .hufBuildl t idx a)
  | 0x32 => some (.tia, .hufBuildc t idx a)
  | 0x33 => some (.t, .hufDecode t)
  | 0x34 => some (.t, .hufFree t)
  | 0x35 => some (.ta, .hufRdtab t a)
  | 0x36 => some (.ta, .hufRdnode t a)
  | 0x40 => some (.t, .lzInit t)
  | 0x41 => some (.ta, .lzSetout t a)
  | 0x42 => some (.t, .lzLit t)
  | 0x43 => some (.ab, .lzCopy a b)
  | 0x44 => some (.n, .lzDrain)
  | 0x45 => some (.n, .lzHasov)
  | 0x46 => some (.n, .lzOutlen)
  | 0x47 => some (.a, .lzOutrd a)
  | 0x48 => some (.n, .lzTell)
  | 0x49 => some (.a, .lzWinrd a)
  | 0x50 => some (.ta, .fltWr a t)
  | 0x51 => some (.a, .fltRd a)
  | 0x52 => some (.abc, .fltDelta a b c)
  | 0x53 => some (.abc, .fltAudio a b c)
  | 0x54 => some (.tabc, .fltRgb a b c t)
  | 0x55 => some (.ab, .fltX86 a b)
  | 0x56 => some (.ab, .fltX86e9 a b)
  | 0x57 => some (.ab, .fltArm a b)
  | _ => none

/-- Decoding (R53, R55, R60): `CMD` selects the row of its opcode when `CMD AND mask` is the opcode alone. -/
def decode (w : Command) : Except DecodeError Instr :=
  match opcodeMap (opcField w) (tField w) (idxField w) (aField w) (bField w) (cField w) with
  | none => .error .unknownOpcode
  | some (f, i) => if w &&& f.mask = (opcField w).setWidth 128 then .ok i else .error .reservedBits

/-- A command word from its fields (R51). -/
def pack (opc t : Byte) (idx : Half) (a b c : Word) : Command :=
  (c ++ b ++ a ++ idx ++ t ++ opc : BitVec (32 + 32 + 32 + 16 + 8 + 8))

/-- The word of a command (R51 to R53): its opcode, its operands in their fields, every other bit zero. -/
def encode : Instr → Command
  | .sysNop => pack 0x00 0 0 0 0 0
  | .sysReset => pack 0x01 0 0 0 0 0
  | .sysStat => pack 0x02 0 0 0 0 0
  | .sysParam index => pack 0x03 index 0 0 0 0
  | .bsOpen base size => pack 0x10 0 0 base size 0
  | .bsRead n => pack 0x11 n 0 0 0 0
  | .bsPeek n => pack 0x12 n 0 0 0 0
  | .bsSkip n => pack 0x13 0 0 n 0 0
  | .bsAlign => pack 0x14 0 0 0 0 0
  | .bsHas n => pack 0x15 0 0 n 0 0
  | .bsAtend => pack 0x16 0 0 0 0 0
  | .bsErr => pack 0x17 0 0 0 0 0
  | .bsBack n => pack 0x18 0 0 n 0 0
  | .bsTell => pack 0x19 0 0 0 0 0
  | .crcSeed value => pack 0x20 0 0 value 0 0
  | .crcUpd count data => pack 0x21 count 0 data 0 0
  | .crcGet => pack 0x22 0 0 0 0 0
  | .crcUpdo off len => pack 0x23 0 0 off len 0
  | .crcUpdf off len => pack 0x24 0 0 off len 0
  | .hufStage index length code symbol => pack 0x30 length index code symbol 0
  | .hufBuildl slot count maxlen => pack 0x31 slot count maxlen 0 0
  | .hufBuildc slot count maxlen => pack 0x32 slot count maxlen 0 0
  | .hufDecode slot => pack 0x33 slot 0 0 0 0
  | .hufFree slot => pack 0x34 slot 0 0 0 0
  | .hufRdtab slot index => pack 0x35 slot 0 index 0 0
  | .hufRdnode slot index => pack 0x36 slot 0 index 0 0
  | .lzInit k => pack 0x40 k 0 0 0 0
  | .lzSetout flags cap => pack 0x41 flags 0 cap 0 0
  | .lzLit byte => pack 0x42 byte 0 0 0 0
  | .lzCopy offset length => pack 0x43 0 0 offset length 0
  | .lzDrain => pack 0x44 0 0 0 0 0
  | .lzHasov => pack 0x45 0 0 0 0 0
  | .lzOutlen => pack 0x46 0 0 0 0 0
  | .lzOutrd index => pack 0x47 0 0 index 0 0
  | .lzTell => pack 0x48 0 0 0 0 0
  | .lzWinrd offset => pack 0x49 0 0 offset 0 0
  | .fltWr addr byte => pack 0x50 byte 0 addr 0 0
  | .fltRd addr => pack 0x51 0 0 addr 0 0
  | .fltDelta pos len channels => pack 0x52 0 0 pos len channels
  | .fltAudio pos len channels => pack 0x53 0 0 pos len channels
  | .fltRgb pos len stride posr => pack 0x54 posr 0 pos len stride
  | .fltX86 pos len => pack 0x55 0 0 pos len 0
  | .fltX86e9 pos len => pack 0x56 0 0 pos len 0
  | .fltArm pos len => pack 0x57 0 0 pos len 0

/-- The instruction read from a table row's word: bits at and above `nbits` are 0, and bit 0 is the least
significant bit of `W0` (R50). -/
def decodeTableWord (nbits w : Nat) : Option Instr :=
  match decode (BitVec.ofNat 128 (w % 2 ^ nbits)) with
  | .ok i => some i
  | .error _ => none

end Sys2Proof
end

