-- ==== Sys2Proof/Machine/State.lean ====
section
/-! DEFINITION. Everything the spec gives the machine (10_state.md), as plain data, and its value after reset
(R24). Field names are the spec's: `bs.pos` is `s.bs.pos`, `huf[t].max_len` is `maxLen` of slot `t`. -/

namespace Sys2Proof.Machine

/-- The block raises no fault and has no stuck state: every command in every state answers one response
(60_exceptions.md R176, R178), and a failure is a status in that response (`Status`). So no constructor. -/
inductive Fault where
deriving DecidableEq, Repr

/-- Why a step has no meaning. -/
inductive Refusal where
  /-- A command this model gave no meaning yet, by its mnemonic; raised by `exec` only. SAFE: nothing about the
  command can be proved. No arm of `exec` raises it. -/
  | notModelled (mnemonic : String)
deriving DecidableEq, Repr

/-- The thirteen statuses of R170. -/
inductive Status where
  | ok
  | readFail
  | seekFail
  | huffPrefixPresent
  | huffReservedSymbol
  | huffInvalidCode
  | filtersInvalidLength
  | filtersInvalidFilePosition
  | allocFail
  | outFull
  | overhangPending
  | badCommand
  | notReady
deriving DecidableEq, Repr

/-- A byte space (20_memory.md R32): the cells that differ from 0, addresses strictly rising (`Mem.Wf` in Ops.lean).
An unlisted address reads as 0. -/
abbrev Mem := List Host.Cell

/-- The response registers (R11). -/
structure Rsp where
  /-- `rsp.status` -/
  status : Status
  /-- `rsp.r0` -/
  r0 : DWord
  /-- `rsp.r1` -/
  r1 : Word
deriving DecidableEq, Repr

/-- The Bitstream unit: its architectural state (R15) and its hidden buffers (R16). -/
structure Bs where
  /-- `bs.open` -/
  isOpen : Bool
  /-- `bs.base` -/
  base : Word
  /-- `bs.size` -/
  size : Word
  /-- `bs.pos`, in bits -/
  pos : DWord
  /-- `bs.err`, the sticky error -/
  err : Bool
  /-- `bs.l1_tag`; `none` is INVALID -/
  l1Tag : Option Word
  /-- `bs.l1_word` -/
  l1Word : DWord
  /-- `bs.l2_tag`; `none` is INVALID -/
  l2Tag : Option Word
  /-- `bs.l2_data` -/
  l2Data : Mem
deriving DecidableEq, Repr

/-- The CRC32 unit (R17). -/
structure Crc where
  /-- `crc.reg`, un-finalised -/
  reg : Word
deriving DecidableEq, Repr

/-- One entry of the staging memory (R18). -/
structure StageEntry where
  length : Byte
  code : Word
  symbol : Word
deriving DecidableEq, Repr

/-- A staging entry after reset, and what an unlisted entry of the staging memory reads as (R18, R24). -/
def StageEntry.zero : StageEntry := ⟨0, 0, 0⟩

/-- A node pair of a Huffman tree (R19, R101). -/
structure Node where
  /-- branch on a stream bit 0 -/
  b0 : Word
  /-- branch on a stream bit 1 -/
  b1 : Word
deriving DecidableEq, Repr

/-- A table slot (R19). `node` holds the nodes in use, in creation order, and `table` the built entries; an invalid
slot holds none (log entry 9). -/
structure Slot where
  /-- `huf[t].valid` -/
  valid : Bool
  /-- `huf[t].max_len` -/
  maxLen : BitVec 5
  /-- `huf[t].depth` -/
  depth : BitVec 5
  /-- `huf[t].n_nodes` -/
  nNodes : BitVec 28
  /-- `huf[t].node` -/
  node : List Node
  /-- `huf[t].table` -/
  table : List Word
deriving DecidableEq, Repr

/-- A slot that holds no table: after reset (R24), `HUF.FREE` (R110) or a failed build (R108). -/
def Slot.free : Slot := ⟨false, 0, 0, 0, [], []⟩

/-- The Huffman unit (R18, R19). The staging memory lists the entries that differ from `StageEntry.zero`, indices
strictly rising. -/
structure Huf where
  /-- `huf.stage` -/
  stage : List (Nat × StageEntry)
  /-- `huf[0..7]` -/
  slots : Vector Slot 8
deriving DecidableEq, Repr

/-- The LZSS unit: window and pending copy (R20), output buffer (R21). -/
structure Lz where
  /-- `lz.init` -/
  init : Bool
  /-- `lz.k` -/
  k : BitVec 5
  /-- `WIN` -/
  win : Mem
  /-- `lz.wpos` -/
  wpos : DWord
  /-- `lz.ov_off` -/
  ovOff : Word
  /-- `lz.ov_len` -/
  ovLen : Word
  /-- `lz.out_cap` -/
  outCap : Word
  /-- `lz.out_len` -/
  outLen : Word
  /-- `lz.out_discard` -/
  outDiscard : Bool
  /-- `OUT` -/
  out : Mem
deriving DecidableEq, Repr

/-- The Filter unit (R22). -/
structure Flt where
  /-- `FMEM` -/
  mem : Mem
deriving DecidableEq, Repr

/-- The input source the platform attached (20_memory.md R30). Not the block's state: no step changes it (R25). -/
structure Src where
  /-- `SRC_TOTAL` -/
  total : Word
  /-- `SRC` -/
  bytes : Mem
deriving DecidableEq, Repr

/-- The whole machine. `params`, `src` and `host` are its environment: the build's parameters (log entry 3), the
attached source (log entry 4) and the commands the host has yet to issue (log entry 1). -/
structure State where
  params : Params
  src : Src
  host : List Command
  rsp : Rsp
  bs : Bs
  crc : Crc
  huf : Huf
  lz : Lz
  flt : Flt
deriving DecidableEq, Repr

/-- The machine right after reset (R24), of a build with the default parameters (R5), with no source attached and no
command waiting. `bs.l1_word` and `bs.l2_data` are unspecified there: 0 is the model's (log entry 6, DESIGN CHOICE). -/
def State.reset : State where
  params := Params.default
  src := { total := 0, bytes := [] }
  host := []
  rsp := { status := .ok, r0 := 0, r1 := 0 }
  bs :=
    { isOpen := false, base := 0, size := 0, pos := 0, err := false
      l1Tag := none, l1Word := 0, l2Tag := none, l2Data := [] }
  crc := { reg := 0xFFFFFFFF#32 }
  huf := { stage := [], slots := Vector.replicate 8 Slot.free }
  lz :=
    { init := false, k := 0, win := [], wpos := 0, ovOff := 0, ovLen := 0
      outCap := 0, outLen := 0, outDiscard := false, out := [] }
  flt := { mem := [] }

end Sys2Proof.Machine
end

