-- ==== Sys2Proof/Machine/Ops.lean ====
section
/-! DEFINITION. The named operations every meaning is written over: cells and bytes of memory, the response and the
failure that stands where another machine has an exception, the units' updates, the loop of the filters, and the
Bitstream unit's reads through its hidden buffers. -/

namespace Sys2Proof.Machine

/-! ### Memories: lists of cells in one canonical form (log entry 8) -/

/-- Cell `x`; `d` is what an unlisted cell reads as. -/
def Cells.read {α : Type} (d : α) : List (Nat × α) → Nat → α
  | [], _ => d
  | (a, u) :: rest, x => if x = a then u else Cells.read d rest x

/-- Writing cell `x`, keeping addresses rising and listing no cell that holds `d`. -/
def Cells.write {α : Type} [DecidableEq α] (d : α) : List (Nat × α) → Nat → α → List (Nat × α)
  | [], x, v => if v = d then [] else [(x, v)]
  | (a, u) :: rest, x, v =>
    if x < a then (if v = d then (a, u) :: rest else (x, v) :: (a, u) :: rest)
    else if x = a then (if v = d then rest else (x, v) :: rest)
    else (a, u) :: Cells.write d rest x v

/-- The canonical form: addresses strictly rising, no cell that holds what an unlisted one reads as. -/
abbrev Cells.Wf {α : Type} (d : α) (m : List (Nat × α)) : Prop :=
  m.Pairwise (fun c e => c.1 < e.1) ∧ ∀ c ∈ m, c.2 ≠ d

/-- `MEM[a]` of a byte space (00_scope.md R7). -/
def Mem.read (m : Mem) (a : Nat) : Byte := Cells.read 0 m a

/-- `MEM[a] <- b` of a byte space (R7). -/
def Mem.write (m : Mem) (a : Nat) (b : Byte) : Mem := Cells.write 0 m a b

/-- The canonical form of a byte space. -/
abbrev Mem.Wf (m : Mem) : Prop := Cells.Wf (0 : Byte) m

/-- Every listed address lies below `n`. -/
abbrev Mem.Below (m : Mem) (n : Nat) : Prop := ∀ c ∈ m, c.1 < n

/-- `MemRead(space, addr, n)`: `n` consecutive bytes in address order (R7). -/
def Mem.bytes (m : Mem) (a n : Nat) : List Byte := (List.range n).map fun j => m.read (a + j)

/-- The `len` bytes from `lo` on, as a space of their own that reads 0 from `len` on. -/
def Mem.slice (m : Mem) (lo len : Nat) : Mem :=
  m.filterMap fun c => if lo ≤ c.1 ∧ c.1 < lo + len then some (c.1 - lo, c.2) else none

/-- `n` bytes from `a` on as one number, the first byte most significant (40_bitstream.md R84). -/
def Mem.readBE (m : Mem) (a : Nat) : Nat → Nat
  | 0 => 0
  | n + 1 => 256 * Mem.readBE m a n + (m.read (a + n)).toNat

/-- `LE32(space, addr)` (R7, R33). -/
def Mem.readLE32 (m : Mem) (a : Nat) : Word :=
  (m.read (a + 3) ++ m.read (a + 2) ++ m.read (a + 1) ++ m.read a : BitVec (8 + 8 + 8 + 8))

/-- `PutLE32(space, addr, v)` (R7, R33). -/
def Mem.writeLE32 (m : Mem) (a : Nat) (v : Word) : Mem :=
  (((m.write a (v.extractLsb' 0 8)).write (a + 1) (v.extractLsb' 8 8)).write (a + 2)
    (v.extractLsb' 16 8)).write (a + 3) (v.extractLsb' 24 8)

/-! ### Loops -/

/-- `while cond: body`, given at least as many rounds as the loop can make. -/
def loopWhile {σ : Type} (cond : σ → Bool) (body : σ → σ) : Nat → σ → σ
  | 0, x => x
  | n + 1, x => if cond x then loopWhile cond body n (body x) else x

/-! ### Responses (R7, R11) and failures (60_exceptions.md) -/

/-- The 8-bit code of a status (R170). -/
def Status.code : Status → Byte
  | .ok => 0
  | .readFail => 1
  | .seekFail => 2
  | .huffPrefixPresent => 3
  | .huffReservedSymbol => 4
  | .huffInvalidCode => 5
  | .filtersInvalidLength => 6
  | .filtersInvalidFilePosition => 7
  | .allocFail => 8
  | .outFull => 9
  | .overhangPending => 10
  | .badCommand => 11
  | .notReady => 12

/-- `respond(S, r0, r1)`: the one write of the response registers (R7, R11). -/
def State.respond (s : State) (st : Status) (r0 : DWord) (r1 : Word) : State :=
  { s with rsp := { status := st, r0 := r0, r1 := r1 } }

/-- `fail(S)`: all that "taking an exception" is on this block (R7, R171, R176). Nothing is saved, no control is
transferred, and there is no return from it (R177). -/
def State.fail (s : State) (st : Status) : State := s.respond st 0 0

/-- `respond(OK)`. -/
def State.done (s : State) : State := s.respond .ok 0 0

/-! ### Updates of one unit -/

/-- The state with another Bitstream unit. -/
def State.setBs (s : State) (v : Bs) : State := { s with bs := v }

/-- The state with another CRC register. -/
def State.setCrc (s : State) (v : Word) : State := { s with crc := { reg := v } }

/-- The state with another staging memory. -/
def State.setStage (s : State) (v : List (Nat × StageEntry)) : State := { s with huf := { s.huf with stage := v } }

/-- `huf[t]`. -/
def State.slot (s : State) (t : Nat) : Slot := (s.huf.slots[t]?).getD Slot.free

/-- `huf[t] <- v`. -/
def State.setSlot (s : State) (t : Nat) (v : Slot) : State :=
  { s with huf := { s.huf with slots := s.huf.slots.setIfInBounds t v } }

/-- The state with another LZSS unit. -/
def State.setLz (s : State) (v : Lz) : State := { s with lz := v }

/-- The state with another FMEM. -/
def State.setFmem (s : State) (v : Mem) : State := { s with flt := { mem := v } }

/-- The hardware reset (70_reset_and_hazards.md R190): every state element gets its value of 10_state.md R24. What
is not state stays: parameters, source, and the commands the host has yet to issue (R25). -/
def State.hardReset (s : State) : State :=
  { State.reset with params := s.params, src := s.src, host := s.host }

/-! ### The stream (20_memory.md R31, R45) -/

/-- `SrcByte(i)`: byte `i` of the stream, 0 beyond its end. -/
def State.srcByte (s : State) (i : Nat) : Byte :=
  if i < s.bs.size.toNat then s.src.bytes.read (s.bs.base.toNat + i) else 0

/-- `StreamBit(p)`: bit 7 of a byte comes first. -/
def State.streamBit (s : State) (p : Nat) : Bool := (s.srcByte (p / 8)).getLsbD (7 - p % 8)

/-- `Bits(p, n)`: the first bit read is the most significant. -/
def State.bits (s : State) (p : Nat) : Nat → Nat
  | 0 => 0
  | n + 1 => 2 * State.bits s p n + (s.streamBit (p + n)).toNat

/-- `bitlen = 8*bs.size` (R15). -/
def State.bitlen (s : State) : Nat := 8 * s.bs.size.toNat

/-- `remaining = bitlen - bs.pos` (R15); never negative while R15's invariant holds (log entry 11). -/
def State.remaining (s : State) : Nat := s.bitlen - s.bs.pos.toNat

/-- `bs.pos <- bs.pos + n`. -/
def State.advance (s : State) (n : Nat) : State := s.setBs { s.bs with pos := s.bs.pos + BitVec.ofNat 64 n }

/-! ### The hidden buffers (40_bitstream.md R84 to R86) -/

/-- The L2 refill of R85: the burst of R46 from the stream's window, zero beyond the end of the stream. -/
def State.loadLine (s : State) (line : Nat) : State :=
  s.setBs
    { s.bs with
      l2Tag := some (BitVec.ofNat 32 line)
      l2Data :=
        s.src.bytes.slice (s.bs.base.toNat + line * s.params.l2Bytes)
          (min s.params.l2Bytes (s.bs.size.toNat - line * s.params.l2Bytes)) }

/-- Whether a tag names `x`. -/
def tagIs (tag : Option Word) (x : Nat) : Bool :=
  match tag with
  | none => false
  | some t => t.toNat == x

/-- The L2 step of `FetchWord` (R85): refill unless the tag matches. -/
def State.ensureLine (s : State) (line : Nat) : State :=
  if tagIs s.bs.l2Tag line then s else s.loadLine line

/-- `FetchWord(w)` (R85): after it the L1 word is stream word `w`; the word is `bs.l1_word` of the answer. -/
def State.fetchWord (s : State) (w : Nat) : State :=
  if tagIs s.bs.l1Tag w then s
  else
    let t := s.ensureLine (8 * w / s.params.l2Bytes)
    t.setBs
      { t.bs with
        l1Tag := some (BitVec.ofNat 32 w)
        l1Word := BitVec.ofNat 64 (t.bs.l2Data.readBE (8 * w % s.params.l2Bytes) 8) }

/-- The low `n` bits set. -/
def lowMask (n : Nat) : DWord := BitVec.ofNat 64 (2 ^ n - 1)

/-- `Extract(p, n)` for `n` up to 32 (R86): the field, and the state with the buffers it leaves. A field that
straddles two words is read in two parts. -/
def State.extract (s : State) (p n : Nat) : DWord × State :=
  if n = 0 then (0, s)
  else
    let w := p / 64
    let o := p % 64
    let t := s.fetchWord w
    if o + n ≤ 64 then ((t.bs.l1Word >>> (64 - o - n)) &&& lowMask n, t)
    else
      let n1 := 64 - o
      let n2 := n - n1
      let u := t.fetchWord (w + 1)
      (((t.bs.l1Word &&& lowMask n1) <<< n2) ||| (u.bs.l1Word >>> (64 - n2)), u)

/-! ### Checks shared by the BS commands and `HUF.DECODE` (R70, R72) -/

/-- Checks (2) and (3) of R70: no open stream is `NotReady`; under the sticky error the command short-circuits to
`ReadFail` with its failure value (R72). Otherwise `act`. -/
def State.onStream (s : State) (failValue : DWord) (act : State) : State :=
  if !s.bs.isOpen then s.fail .notReady
  else if s.bs.err then s.respond .readFail failValue 0
  else act

/-- `bs.err <- 1; respond(ReadFail, 0, 0)`: a consuming operation needs more bits than remain (R72). -/
def State.overRead (s : State) : State := (s.setBs { s.bs with err := true }).fail .readFail

end Sys2Proof.Machine
end

