-- ==== Sys2Proof/Machine/Bitstream.lean ====
section
/-! DEFINITION. The Bitstream unit's commands (40_bitstream.md). Values come through the hidden buffers (`extract`,
R86), as the document's reader does it; R87 is that this equals `Bits`. -/

namespace Sys2Proof.Machine

/-- A truth value as a result register (R79, R80, R81). -/
def boolResult (b : Bool) : DWord := if b then 1 else 0

/-- `BS.OPEN base, size` (R73). With their tags INVALID, `bs.l1_word` and `bs.l2_data` may hold any value (93 U1): that
they keep their old content is the model's choice (DESIGN CHOICE, log entry 6). -/
def execBsOpen (base size : Word) (s : State) : Host.Outcome State Fault Refusal :=
  .next <|
    if s.src.total.toNat < base.toNat + size.toNat then s.fail .seekFail
    else
      (s.setBs
        { s.bs with
          isOpen := true, base := base, size := size, pos := 0, err := false
          l1Tag := none, l2Tag := none }).done

/-- `BS.READ n` (R74, R75). -/
def execBsRead (n : Byte) (s : State) : Host.Outcome State Fault Refusal :=
  .next <|
    if !bitCountOk n then s.fail .badCommand
    else
      s.onStream 0 <|
        if s.remaining < n.toNat then s.overRead
        else
          let r := s.extract s.bs.pos.toNat n.toNat
          (r.2.advance n.toNat).respond .ok r.1 0

/-- `BS.PEEK n` (R75, R76): bits past the end read as 0. -/
def execBsPeek (n : Byte) (s : State) : Host.Outcome State Fault Refusal :=
  .next <|
    if !bitCountOk n then s.fail .badCommand
    else
      s.onStream 0 <|
        let r := s.extract s.bs.pos.toNat n.toNat
        r.2.respond .ok r.1 0

/-- `BS.SKIP n` (R77). -/
def execBsSkip (n : Word) (s : State) : Host.Outcome State Fault Refusal :=
  .next <| s.onStream 0 <| if s.remaining < n.toNat then s.overRead else (s.advance n.toNat).done

/-- `BS.ALIGN` (R78). -/
def execBsAlign (s : State) : Host.Outcome State Fault Refusal :=
  .next <|
    s.onStream 0 <|
      (s.setBs { s.bs with pos := BitVec.ofNat 64 ((s.bs.pos.toNat + 7) / 8 * 8) }).done

/-- `BS.HAS n` (R79). -/
def execBsHas (n : Word) (s : State) : Host.Outcome State Fault Refusal :=
  .next <| s.onStream 0 <| s.respond .ok (boolResult (n.toNat ≤ s.remaining)) 0

/-- `BS.ATEND` (R80): its failure value is 1. -/
def execBsAtend (s : State) : Host.Outcome State Fault Refusal :=
  .next <| s.onStream 1 <| s.respond .ok (boolResult (s.remaining == 0)) 0

/-- `BS.ERR` (R81): needs no open stream and is never short-circuited. -/
def execBsErr (s : State) : Host.Outcome State Fault Refusal := .next (s.respond .ok (boolResult s.bs.err) 0)

/-- `BS.BACK n` (R82). -/
def execBsBack (n : Word) (s : State) : Host.Outcome State Fault Refusal :=
  .next <|
    s.onStream 0 <|
      if s.bs.pos.toNat < n.toNat then s.fail .seekFail
      else (s.setBs { s.bs with pos := s.bs.pos - n.setWidth 64 }).done

/-- `BS.TELL` (R83): needs no open stream and is never short-circuited. -/
def execBsTell (s : State) : Host.Outcome State Fault Refusal := .next (s.respond .ok s.bs.pos 0)

end Sys2Proof.Machine
end

