-- ==== Sys2Proof/Machine/Crc.lean ====
section
/-! DEFINITION. The CRC32 unit (41_crc32.md). Its parameters are the spec's, from general knowledge (93 G1; log
entry 18). -/

namespace Sys2Proof.Machine

/-- One round of the table loop of R90. -/
def crcRound (c : Word) : Word := if c.getLsbD 0 then (c >>> 1) ^^^ crcPoly else c >>> 1

/-- `n` rounds. -/
def crcRounds : Nat → Word → Word
  | 0, c => c
  | n + 1, c => crcRounds n (crcRound c)

/-- `crc.tab[i]`, the ROM of R90. -/
def crcTab (i : Byte) : Word := crcRounds 8 (i.setWidth 32)

/-- `Step(b)` of R91 on the register. -/
def crcStep (reg : Word) (b : Byte) : Word := crcTab ((reg ^^^ b.setWidth 32).setWidth 8) ^^^ (reg >>> 8)

/-- `Step` over bytes in order. -/
def crcFeed (reg : Word) (data : List Byte) : Word := data.foldl crcStep reg

/-- `Fin`, the finalised checksum. -/
def crcFin (reg : Word) : Word := reg ^^^ 0xFFFFFFFF#32

/-- `crc.reg <- reg`, answering `Fin` (every CRC command's response). -/
def State.crcAnswer (s : State) (reg : Word) : State :=
  (s.setCrc reg).respond .ok ((crcFin reg).setWidth 64) 0

/-- The bytes of `CRC.UPD`, least significant first (R34, R93). -/
def updBytes (count : Nat) (data : Word) : List Byte := (List.range count).map fun j => data.extractLsb' (8 * j) 8

/-- `CRC.SEED value` (R92). -/
def execCrcSeed (value : Word) (s : State) : Host.Outcome State Fault Refusal :=
  .next (s.crcAnswer (value ^^^ 0xFFFFFFFF#32))

/-- `CRC.UPD count, data` (R93). -/
def execCrcUpd (count : Byte) (data : Word) (s : State) : Host.Outcome State Fault Refusal :=
  .next <|
    if !byteCountOk count then s.fail .badCommand
    else s.crcAnswer (crcFeed s.crc.reg (updBytes count.toNat data))

/-- `CRC.GET` (R94). -/
def execCrcGet (s : State) : Host.Outcome State Fault Refusal := .next (s.crcAnswer s.crc.reg)

/-- `CRC.UPDO off, len` (R95). -/
def execCrcUpdo (off len : Word) (s : State) : Host.Outcome State Fault Refusal :=
  .next <|
    if s.lz.outDiscard || decide (s.lz.outLen.toNat < off.toNat + len.toNat) then s.fail .badCommand
    else s.crcAnswer (crcFeed s.crc.reg (s.lz.out.bytes off.toNat len.toNat))

/-- `CRC.UPDF off, len` (R96). -/
def execCrcUpdf (off len : Word) (s : State) : Host.Outcome State Fault Refusal :=
  .next <|
    if s.params.fltMemSize < off.toNat + len.toNat then s.fail .badCommand
    else s.crcAnswer (crcFeed s.crc.reg (s.flt.mem.bytes off.toNat len.toNat))

end Sys2Proof.Machine
end

