-- ==== Sys2Proof/Machine/Filters.lean ====
section
/-! DEFINITION. The Filter unit (44_filters.md): byte access to FMEM and the six transforms. The transforms'
algorithms are the spec's, from general knowledge (93 G2 to G8; log entry 18). Loops run at most `n` rounds, `n` the
slice length, because each round moves its index (log entry 12). -/

namespace Sys2Proof.Machine

/-! ### Bounds (R142) -/

/-- The length bound of the predictive transforms: input and output slices fit. -/
def twoSlicesFit (p : Params) (n : Nat) : Bool := n ≤ p.fltMemSize / 2

/-- The length bound of the address transforms: the slice fits and holds an operand. -/
def oneSliceFits (p : Params) (n : Nat) : Bool := n ≤ p.fltMemSize && 4 ≤ n

/-- The bound of `FLT.RGB`'s row length. -/
def strideOk (n stride : Nat) : Bool := 3 ≤ stride && stride ≤ n

/-- The position range of the address transforms: the slice lies below 2 GiB. -/
def positionOk (pos n : Nat) : Bool := pos + n ≤ 0x80000000

/-! ### Delta (R145) -/

/-- The variables of the delta loop. -/
structure DeltaState where
  i : Nat
  s : Nat
  last : Byte
  mem : Mem
deriving DecidableEq, Repr

/-- One sample of a channel. -/
def deltaStep (n channels : Nat) (d : DeltaState) : DeltaState :=
  let last := d.last - d.mem.read d.s
  { i := d.i + channels, s := d.s + 1, last := last, mem := d.mem.write (n + d.i) last }

/-- Channel `c`, given and answering the input index `s` and the memory. -/
def deltaChannel (n channels : Nat) (sm : Nat × Mem) (c : Nat) : Nat × Mem :=
  let d := loopWhile (fun d => d.i < n) (deltaStep n channels) n { i := c, s := sm.1, last := 0, mem := sm.2 }
  (d.s, d.mem)

/-- All channels; those with index `n` or more have no samples. -/
def deltaTransform (n channels : Nat) (m : Mem) : Mem :=
  ((List.range (min channels n)).foldl (deltaChannel n channels) (0, m)).2

/-! ### Audio (R146) -/

/-- The predictor of one channel. -/
structure AudioPredictor where
  prev : Byte
  pdelta : Int
  d1 : Int
  d2 : Int
  d3 : Int
  k1 : Int
  k2 : Int
  k3 : Int
  dif : List Nat
  count : Nat
deriving DecidableEq, Repr

/-- A channel's fresh predictor. -/
def AudioPredictor.init : AudioPredictor :=
  { prev := 0, pdelta := 0, d1 := 0, d2 := 0, d3 := 0, k1 := 0, k2 := 0, k3 := 0
    dif := [0, 0, 0, 0, 0, 0, 0], count := 0 }

/-- The least index of a least element. -/
def leastIndex (l : List Nat) : Nat := l.findIdx fun x => l.all fun y => x ≤ y

/-- `k <- k - 1` where the least accumulator asks for it and `k >= -16`. -/
def weightDown (hit : Bool) (k : Int) : Int := if hit && decide (-16 ≤ k) then k - 1 else k

/-- `k <- k + 1` where the least accumulator asks for it and `k < 16`. -/
def weightUp (hit : Bool) (k : Int) : Int := if hit && decide (k < 16) then k + 1 else k

/-- The adaptation on samples 0, 32, 64, ... of a channel. -/
def AudioPredictor.adapt (a : AudioPredictor) : AudioPredictor :=
  let m := leastIndex a.dif
  { a with
    dif := [0, 0, 0, 0, 0, 0, 0]
    k1 := weightUp (m == 2) (weightDown (m == 1) a.k1)
    k2 := weightUp (m == 4) (weightDown (m == 3) a.k2)
    k3 := weightUp (m == 6) (weightDown (m == 5) a.k3) }

/-- One sample: the input byte `cur` gives the output byte `prev` of the answer. -/
def AudioPredictor.next (a : AudioPredictor) (cur : Byte) : AudioPredictor :=
  let d3 := a.d2
  let d2 := a.pdelta - a.d1
  let d1 := a.pdelta
  let pred := BitVec.ofInt 8 ((8 * (a.prev.toNat : Int) + a.k1 * d1 + a.k2 * d2 + a.k3 * d3) / 8)
  let byte := pred - cur
  let D : Int := 8 * cur.toInt
  let errs := [D.natAbs, (D - d1).natAbs, (D + d1).natAbs, (D - d2).natAbs, (D + d2).natAbs, (D - d3).natAbs,
    (D + d3).natAbs]
  let b : AudioPredictor :=
    { a with
      prev := byte, pdelta := (byte - a.prev).toInt, d1 := d1, d2 := d2, d3 := d3
      dif := List.zipWith (· + ·) a.dif errs }
  let c := if a.count % 32 = 0 then b.adapt else b
  { c with count := a.count + 1 }

/-- The variables of the audio loop. -/
structure AudioState where
  i : Nat
  s : Nat
  pred : AudioPredictor
  mem : Mem
deriving DecidableEq, Repr

/-- One sample of a channel. -/
def audioStep (n channels : Nat) (d : AudioState) : AudioState :=
  let p := d.pred.next (d.mem.read d.s)
  { i := d.i + channels, s := d.s + 1, pred := p, mem := d.mem.write (n + d.i) p.prev }

/-- Channel `c`, given and answering the input index `s` and the memory. -/
def audioChannel (n channels : Nat) (sm : Nat × Mem) (c : Nat) : Nat × Mem :=
  let d := loopWhile (fun d => d.i < n) (audioStep n channels) n
    { i := c, s := sm.1, pred := AudioPredictor.init, mem := sm.2 }
  (d.s, d.mem)

/-- All channels; those with index `n` or more have no samples. -/
def audioTransform (n channels : Nat) (m : Mem) : Mem :=
  ((List.range (min channels n)).foldl (audioChannel n channels) (0, m)).2

/-! ### RGB (R147) -/

/-- The neighbour nearest to `prev + up - ul`, ties in the order `prev`, `up`, `ul`. -/
def rgbPredict (prev up ul : Byte) : Byte :=
  let pr : Int := prev.toNat + up.toNat - ul.toNat
  let pa := (pr - prev.toNat).natAbs
  let pb := (pr - up.toNat).natAbs
  let pc := (pr - ul.toNat).natAbs
  if pa ≤ pb ∧ pa ≤ pc then prev else if pb ≤ pc then up else ul

/-- The variables of the plane loop. -/
structure RgbState where
  i : Nat
  s : Nat
  prev : Byte
  mem : Mem
deriving DecidableEq, Repr

/-- One byte of a plane. -/
def rgbStep (n stride : Nat) (d : RgbState) : RgbState :=
  let pred :=
    if stride ≤ d.i then
      rgbPredict d.prev (d.mem.read (n + (d.i - stride) + 3)) (d.mem.read (n + (d.i - stride)))
    else d.prev
  let prev := pred - d.mem.read d.s
  { i := d.i + 3, s := d.s + 1, prev := prev, mem := d.mem.write (n + d.i) prev }

/-- Plane `c`, given and answering the input index `s` and the memory. -/
def rgbPlane (n stride : Nat) (sm : Nat × Mem) (c : Nat) : Nat × Mem :=
  let d := loopWhile (fun d => d.i < n) (rgbStep n stride) n { i := c, s := sm.1, prev := 0, mem := sm.2 }
  (d.s, d.mem)

/-- One pixel of the second loop: the middle component added onto the other two. -/
def rgbAddStep (n : Nat) (im : Nat × Mem) : Nat × Mem :=
  let g := im.2.read (n + im.1 + 1)
  let m := im.2.write (n + im.1) (im.2.read (n + im.1) + g)
  (im.1 + 3, m.write (n + im.1 + 2) (m.read (n + im.1 + 2) + g))

/-- The three planes, then the second loop from `posr` on. -/
def rgbTransform (n stride posr : Nat) (m : Mem) : Mem :=
  let planes := ((List.range 3).foldl (rgbPlane n stride) (0, m)).2
  (loopWhile (fun im => im.1 + 2 < n) (rgbAddStep n) n (posr, planes)).2

/-! ### x86 (R148, R150) -/

/-- `FILESIZE` of R148. -/
def x86FileSize : Word := 0x01000000#32

/-- The new operand for `addr` at file position `off`, where R148 rewrites it. -/
def x86Operand (addr off : Word) : Option Word :=
  if addr.getLsbD 31 then (if (addr + off).getLsbD 31 then none else some (addr + x86FileSize))
  else if addr < x86FileSize then some (addr - off)
  else none

/-- One position of the scan. -/
def x86Step (isCall : Byte → Bool) (pos : Nat) (im : Nat × Mem) : Nat × Mem :=
  if isCall (im.2.read im.1) then
    match x86Operand (im.2.readLE32 (im.1 + 1)) (BitVec.ofNat 32 (pos + im.1 + 1)) with
    | none => (im.1 + 5, im.2)
    | some v => (im.1 + 5, im.2.writeLE32 (im.1 + 1) v)
  else (im.1 + 1, im.2)

/-- The scan over the slice. -/
def x86Transform (isCall : Byte → Bool) (pos n : Nat) (m : Mem) : Mem :=
  (loopWhile (fun im => im.1 + 5 ≤ n) (x86Step isCall pos) n (0, m)).2

/-- `IsCall` of `FLT.X86` (R148). -/
def isCallE8 (b : Byte) : Bool := b == 0xE8#8

/-- `IsCall` of `FLT.X86E9` (R150). -/
def isCallE8E9 (b : Byte) : Bool := b == 0xE8#8 || b == 0xE9#8

/-! ### ARM (R149) -/

/-- One word of the slice. -/
def armStep (pos : Nat) (im : Nat × Mem) : Nat × Mem :=
  let i := im.1
  let m := im.2
  if m.read (i + 3) = 0xEB#8 then
    let v : BitVec 24 := (m.read (i + 2) ++ m.read (i + 1) ++ m.read i : BitVec (8 + 8 + 8))
    let w := v - BitVec.ofNat 24 ((pos + i) / 4)
    (i + 4, ((m.write i (w.extractLsb' 0 8)).write (i + 1) (w.extractLsb' 8 8)).write (i + 2) (w.extractLsb' 16 8))
  else (i + 4, m)

/-- The words of the slice, in order. -/
def armTransform (pos n : Nat) (m : Mem) : Mem :=
  (loopWhile (fun im => im.1 + 4 ≤ n) (armStep pos) n (0, m)).2

/-! ### The commands -/

/-- An out-of-place transform's end: `R0 = out_offset = n`, `R1 = out_length = n` (R140). -/
def State.predictive (s : State) (n : Word) (m : Mem) : State := (s.setFmem m).respond .ok (n.setWidth 64) n

/-- The checks and the end of an in-place transform: length, then position, then `R0 = 0`, `R1 = n` (R140, R142). -/
def State.inPlace (s : State) (pos n : Word) (m : Mem) : State :=
  if !oneSliceFits s.params n.toNat then s.fail .filtersInvalidLength
  else if !positionOk pos.toNat n.toNat then s.fail .filtersInvalidFilePosition
  else (s.setFmem m).respond .ok 0 n

/-- `FLT.WR addr, byte` (R143). -/
def execFltWr (addr : Word) (byte : Byte) (s : State) : Host.Outcome State Fault Refusal :=
  .next <|
    if !fmemAddrOk s.params addr then s.fail .badCommand
    else (s.setFmem (s.flt.mem.write addr.toNat byte)).done

/-- `FLT.RD addr` (R144). -/
def execFltRd (addr : Word) (s : State) : Host.Outcome State Fault Refusal :=
  .next <|
    if !fmemAddrOk s.params addr then s.fail .badCommand
    else s.respond .ok ((s.flt.mem.read addr.toNat).setWidth 64) 0

/-- `FLT.DELTA pos, len, channels` (R145); `pos` is ignored. -/
def execFltDelta (_pos len channels : Word) (s : State) : Host.Outcome State Fault Refusal :=
  .next <|
    if !channelsOk channels then s.fail .badCommand
    else if !twoSlicesFit s.params len.toNat then s.fail .filtersInvalidLength
    else s.predictive len (deltaTransform len.toNat channels.toNat s.flt.mem)

/-- `FLT.AUDIO pos, len, channels` (R146); `pos` is ignored. -/
def execFltAudio (_pos len channels : Word) (s : State) : Host.Outcome State Fault Refusal :=
  .next <|
    if !channelsOk channels then s.fail .badCommand
    else if !twoSlicesFit s.params len.toNat then s.fail .filtersInvalidLength
    else s.predictive len (audioTransform len.toNat channels.toNat s.flt.mem)

/-- `FLT.RGB pos, len, stride, posr` (R147); `pos` is ignored. -/
def execFltRgb (_pos len stride : Word) (posr : Byte) (s : State) : Host.Outcome State Fault Refusal :=
  .next <|
    if !posrOk posr then s.fail .badCommand
    else if !(twoSlicesFit s.params len.toNat && strideOk len.toNat stride.toNat) then
      s.fail .filtersInvalidLength
    else s.predictive len (rgbTransform len.toNat stride.toNat posr.toNat s.flt.mem)

/-- `FLT.X86 pos, len` (R148). -/
def execFltX86 (pos len : Word) (s : State) : Host.Outcome State Fault Refusal :=
  .next (s.inPlace pos len (x86Transform isCallE8 pos.toNat len.toNat s.flt.mem))

/-- `FLT.X86E9 pos, len` (R150). -/
def execFltX86e9 (pos len : Word) (s : State) : Host.Outcome State Fault Refusal :=
  .next (s.inPlace pos len (x86Transform isCallE8E9 pos.toNat len.toNat s.flt.mem))

/-- `FLT.ARM pos, len` (R149). -/
def execFltArm (pos len : Word) (s : State) : Host.Outcome State Fault Refusal :=
  .next (s.inPlace pos len (armTransform pos.toNat len.toNat s.flt.mem))

end Sys2Proof.Machine
end

