-- ==== Sys2Proof/Machine/Huffman.lean ====
section
/-! DEFINITION. The Huffman unit (42_huffman.md): trees of node pairs, the lookup table, the two builds, the decode
by table and then by tree. -/

namespace Sys2Proof.Machine

/-! ### Nodes (R101) -/

/-- A fresh node. -/
def Node.fresh : Node := ⟨emptyWord, emptyWord⟩

/-- `b<bit>`. -/
def Node.branch (nd : Node) (bit : Bool) : Word := if bit then nd.b1 else nd.b0

/-- `b<bit> <- v`. -/
def Node.setBranch (nd : Node) (bit : Bool) (v : Word) : Node :=
  if bit then { nd with b1 := v } else { nd with b0 := v }

/-- `IsLeaf`: two equal branches that are not `EMPTY`. -/
def Node.isLeaf (nd : Node) : Bool := nd.b0 == nd.b1 && nd.b0 != emptyWord

/-- `node[j]`; beyond the nodes in use (which no built tree asks for) a fresh one (log entry 10). -/
def nodeAt (ns : List Node) (j : Nat) : Node := ns.getD j Node.fresh

/-! ### Insertion (R102) -/

/-- The walk of `Insert` along the low `i` bits of `code`, most significant first, from node `j`: allocates the
missing nodes and answers the node the code ends at. -/
def insertWalk (cap : Nat) (code : Word) : (i j : Nat) → List Node → Except Status (Nat × List Node)
  | 0, j, ns => .ok (j, ns)
  | i + 1, j, ns =>
    if (nodeAt ns j).isLeaf then .error .huffPrefixPresent
    else
      let bit := code.getLsbD i
      let b := (nodeAt ns j).branch bit
      if b = emptyWord then
        if ns.length = cap then .error .allocFail
        else
          insertWalk cap code i ns.length
            (ns.set j ((nodeAt ns j).setBranch bit (BitVec.ofNat 32 ns.length)) ++ [Node.fresh])
      else insertWalk cap code i b.toNat ns

/-- `Insert(t, code, length, symbol)` on the slot's nodes. -/
def insertCode (cap : Nat) (code : Word) (length : Nat) (symbol : Word) (ns : List Node) :
    Except Status (List Node) :=
  if symbol.extractLsb' 27 5 ≠ 0 then .error .huffReservedSymbol
  else
    match insertWalk cap code length 0 ns with
    | .error st => .error st
    | .ok (j, ns') =>
      if nodeAt ns' j = Node.fresh then .ok (ns'.set j ⟨symbol, symbol⟩) else .error .huffPrefixPresent

/-! ### The lookup table (R103) -/

/-- A table word: length field 31:27, value field 26:0. -/
def tableWord (len : Nat) (val : Word) : Word := (BitVec.ofNat 32 len <<< 27) ||| val

/-- The walk of `BuildTable` for prefix `p`, `left` bits of it still to follow from node `j`. -/
def tableWalk (ns : List Node) (d p : Nat) : (left j : Nat) → Word
  | 0, j =>
    if (nodeAt ns j).isLeaf then tableWord d (nodeAt ns j).b0
    else tableWord (d + 1) (BitVec.ofNat 32 j)
  | left + 1, j =>
    if (nodeAt ns j).isLeaf then tableWord (d - (left + 1)) (nodeAt ns j).b0
    else
      let ch := (nodeAt ns j).branch (p.testBit left)
      if ch = emptyWord then emptyWord else tableWalk ns d p left ch.toNat

/-- `BuildTable`: `2^d` entries. -/
def buildTable (ns : List Node) (d : Nat) : List Word := (List.range (2 ^ d)).map fun p => tableWalk ns d p d 0

/-! ### Builds (R105, R107, R108) -/

/-- The staged entries `0 .. count-1`, each with its index. -/
def stagedEntries (stage : List (Nat × StageEntry)) (count : Nat) : List (Nat × StageEntry) :=
  (List.range count).map fun i => (i, Cells.read StageEntry.zero stage i)

/-- One length of the canonical build: every entry of length `len` gets the next code; its symbol is its index. -/
def canonicalLevel (cap len : Nat) :
    List (Nat × StageEntry) → Word × List Node → Except Status (Word × List Node)
  | [], st => .ok st
  | (i, e) :: rest, (code, ns) =>
    if e.length.toNat = len then
      match insertCode cap code len (BitVec.ofNat 32 i) ns with
      | .error st => .error st
      | .ok ns' => canonicalLevel cap len rest (code + 1, ns')
    else canonicalLevel cap len rest (code, ns)

/-- The lengths in increasing order, the code doubling after each (R105). -/
def canonicalLevels (cap : Nat) (entries : List (Nat × StageEntry)) :
    List Nat → Word × List Node → Except Status (List Node)
  | [], (_, ns) => .ok ns
  | len :: rest, st =>
    match canonicalLevel cap len entries st with
    | .error e => .error e
    | .ok (code, ns) => canonicalLevels cap entries rest (code <<< 1, ns)

/-- The insertion loop of `HUF.BUILDL` from a fresh root. -/
def canonicalBuild (cap : Nat) (entries : List (Nat × StageEntry)) (maxlen : Nat) : Except Status (List Node) :=
  canonicalLevels cap entries ((List.range maxlen).map (· + 1)) (0, [Node.fresh])

/-- The insertion loop of `HUF.BUILDC`, in staging order (R107). -/
def explicitInserts (cap : Nat) : List (Nat × StageEntry) → List Node → Except Status (List Node)
  | [], ns => .ok ns
  | (_, e) :: rest, ns =>
    match insertCode cap e.code e.length.toNat e.symbol ns with
    | .error st => .error st
    | .ok ns' => explicitInserts cap rest ns'

/-- The insertion loop of `HUF.BUILDC` from a fresh root. -/
def explicitBuild (cap : Nat) (entries : List (Nat × StageEntry)) : Except Status (List Node) :=
  explicitInserts cap entries [Node.fresh]

/-- The length check of `HUF.BUILDC`, over all entries before any is inserted (R107). -/
def stagedLengthsOk (maxlen : Nat) (entries : List (Nat × StageEntry)) : Bool :=
  entries.all fun e => 1 ≤ e.2.length.toNat && e.2.length.toNat ≤ maxlen

/-- The slot a successful build leaves (R103, R108). -/
def builtSlot (p : Params) (maxlen : Nat) (ns : List Node) : Slot :=
  let d := min maxlen p.tableDepth
  { valid := true
    maxLen := BitVec.ofNat 5 maxlen
    depth := BitVec.ofNat 5 d
    nNodes := BitVec.ofNat 28 ns.length
    node := ns
    table := buildTable ns d }

/-- The end of a build (R108): the built slot and its response, or an invalid slot, which lists no node and no entry (log
entry 9), and the failing status. -/
def State.finishBuild (s : State) (slot maxlen : Nat) : Except Status (List Node) → State
  | .error st => (s.setSlot slot Slot.free).fail st
  | .ok ns =>
    let v := builtSlot s.params maxlen ns
    (s.setSlot slot v).respond .ok (v.nNodes.setWidth 64) (v.depth.setWidth 32)

/-! ### Decode (R109) -/

/-- The bit-by-bit walk from node `j`, with `rem` bits left in the stream and `used` consumed: one bit of the stream
is consumed in each round, so it ends with the stream at the latest. -/
def State.decodeWalk (ns : List Node) : (rem : Nat) → (j used : Nat) → State → State
  | 0, _, _, s => s.overRead
  | rem + 1, j, used, s =>
    let r := s.extract s.bs.pos.toNat 1
    let t := r.2.advance 1
    let ch := (nodeAt ns j).branch (r.1 == 1)
    if ch = emptyWord then t.fail .huffInvalidCode
    else if (nodeAt ns ch.toNat).isLeaf then
      t.respond .ok ((nodeAt ns ch.toNat).b0.setWidth 64) (BitVec.ofNat 32 (used + 1))
    else State.decodeWalk ns rem ch.toNat (used + 1) t

/-- The table stage of R109, and the walk where the entry overflows. -/
def State.decodeSymbol (s : State) (h : Slot) : State :=
  let d := h.depth.toNat
  let r := s.extract s.bs.pos.toNat d
  let t := r.2
  let e := h.table.getD r.1.toNat emptyWord
  let len := (e.extractLsb' 27 5).toNat
  let val : BitVec 27 := e.extractLsb' 0 27
  if len ≤ d then
    if t.remaining < len then t.overRead
    else (t.advance len).respond .ok (val.setWidth 64) (BitVec.ofNat 32 len)
  else if t.remaining < d then t.overRead
  else if e = emptyWord then t.fail .huffInvalidCode
  else State.decodeWalk h.node ((t.advance d).remaining) val.toNat d (t.advance d)

/-! ### The commands -/

/-- `HUF.STAGE index, length, code, symbol` (R104). -/
def execHufStage (index : Half) (length : Byte) (code symbol : Word) (s : State) :
    Host.Outcome State Fault Refusal :=
  .next <|
    if !(stageIndexOk s.params index && codeLengthOk length) then s.fail .badCommand
    else (s.setStage (Cells.write StageEntry.zero s.huf.stage index.toNat ⟨length, code, symbol⟩)).done

/-- `HUF.BUILDL slot, count, maxlen` (R105). -/
def execHufBuildl (slot : Byte) (count : Half) (maxlen : Word) (s : State) : Host.Outcome State Fault Refusal :=
  .next <|
    if !buildOperandsOk s.params slot count maxlen then s.fail .badCommand
    else
      s.finishBuild slot.toNat maxlen.toNat
        (canonicalBuild s.params.hufNodeCap (stagedEntries s.huf.stage count.toNat) maxlen.toNat)

/-- `HUF.BUILDC slot, count, maxlen` (R107). -/
def execHufBuildc (slot : Byte) (count : Half) (maxlen : Word) (s : State) : Host.Outcome State Fault Refusal :=
  .next <|
    if !buildOperandsOk s.params slot count maxlen then s.fail .badCommand
    else if !stagedLengthsOk maxlen.toNat (stagedEntries s.huf.stage count.toNat) then s.fail .badCommand
    else
      s.finishBuild slot.toNat maxlen.toNat
        (explicitBuild s.params.hufNodeCap (stagedEntries s.huf.stage count.toNat))

/-- `HUF.DECODE slot` (R100, R109). -/
def execHufDecode (slot : Byte) (s : State) : Host.Outcome State Fault Refusal :=
  .next <|
    if !slotOk slot then s.fail .badCommand
    else if !(s.slot slot.toNat).valid then s.fail .notReady
    else s.onStream 0 (s.decodeSymbol (s.slot slot.toNat))

/-- `HUF.FREE slot` (R110); that the freed slot lists no node and no entry is the model's (log entry 9). -/
def execHufFree (slot : Byte) (s : State) : Host.Outcome State Fault Refusal :=
  .next <|
    if !slotOk slot then s.fail .badCommand
    else (s.setSlot slot.toNat Slot.free).done

/-- `HUF.RDTAB slot, index` (R111). -/
def execHufRdtab (slot : Byte) (index : Word) (s : State) : Host.Outcome State Fault Refusal :=
  .next <|
    let h := s.slot slot.toNat
    if !slotOk slot then s.fail .badCommand
    else if !h.valid then s.fail .notReady
    else if 2 ^ h.depth.toNat ≤ index.toNat then s.fail .badCommand
    else s.respond .ok ((h.table.getD index.toNat emptyWord).setWidth 64) 0

/-- `HUF.RDNODE slot, index` (R112). -/
def execHufRdnode (slot : Byte) (index : Word) (s : State) : Host.Outcome State Fault Refusal :=
  .next <|
    let h := s.slot slot.toNat
    if !slotOk slot then s.fail .badCommand
    else if !h.valid then s.fail .notReady
    else if h.nNodes.toNat ≤ index.toNat then s.fail .badCommand
    else s.respond .ok ((nodeAt h.node index.toNat).b0.setWidth 64) (nodeAt h.node index.toNat).b1

end Sys2Proof.Machine
end

