-- ==== Sys2Proof/Machine/Flags.lean ====
section
/-! DEFINITION. The status flags (10_state.md R13) that are computed, not stored, and the status word of R14. The
block has no arithmetic condition codes (R13). -/

namespace Sys2Proof.Machine

/-- The overhang: a copy is pending (R13). -/
def Lz.hasOverhang (z : Lz) : Bool := z.ovLen != 0

/-- `OUT_FULL`: the output buffer has no room; also true when its capacity is 0 (R14). -/
def Lz.outFull (z : Lz) : Bool := z.outLen == z.outCap

/-- The status word (R14, 45_system.md R162), bit 0 first; bits 7:6 and 63:16 read as 0. -/
def State.statusWord (s : State) : DWord :=
  (BitVec.ofBoolListLE
    [s.bs.isOpen, s.bs.err, s.lz.init, s.lz.hasOverhang, s.lz.outDiscard, s.lz.outFull, false, false,
      (s.slot 0).valid, (s.slot 1).valid, (s.slot 2).valid, (s.slot 3).valid,
      (s.slot 4).valid, (s.slot 5).valid, (s.slot 6).valid, (s.slot 7).valid]).setWidth 64

end Sys2Proof.Machine
end

