-- ==== Sys2Proof/Machine/Lzss.lean ====
section
/-! DEFINITION. The LZSS window unit (43_lzss.md): the ring buffer, the output buffer, the copy loop and its
overhang. -/

namespace Sys2Proof.Machine

/-- `mask = 2^lz.k - 1`. -/
def Lz.mask (z : Lz) : DWord := (1#64 <<< z.k.toNat) - 1

/-- The index of the window cell `off` bytes behind the write position (R125): the subtraction modulo `2^64`, then the
mask. -/
def Lz.backIndex (z : Lz) (off : Word) : Nat := ((z.wpos - off.setWidth 64) &&& z.mask).toNat

/-- `WIN[(lz.wpos - off) AND mask]` (R125). -/
def Lz.winBack (z : Lz) (off : Word) : Byte := z.win.read (z.backIndex off)

/-- `Emit(b)` (R121). -/
def Lz.emit (z : Lz) (b : Byte) : Lz :=
  { z with
    out := if z.outDiscard then z.out else z.out.write z.outLen.toNat b
    outLen := z.outLen + 1
    win := z.win.write (z.wpos &&& z.mask).toNat b
    wpos := z.wpos + 1 }

/-- `CopyLoop(off, len)` (R124): the bytes done, and the unit after them. Each byte is read after the one before it
was written. -/
def Lz.copyLoop (off : Word) : (len : Nat) → Lz → Nat × Lz
  | 0, z => (0, z)
  | len + 1, z =>
    if z.outLen < z.outCap then
      let r := Lz.copyLoop off len (z.emit (z.winBack off))
      (r.1 + 1, r.2)
    else (0, z)

/-- `LZ.INIT k` (R122). -/
def execLzInit (k : Byte) (s : State) : Host.Outcome State Fault Refusal :=
  .next <|
    if !windowExponentOk s.params k then s.fail .badCommand
    else
      (s.setLz
        { s.lz with init := true, k := k.setWidth 5, win := [], wpos := 0, ovOff := 0, ovLen := 0 }).done

/-- `LZ.SETOUT flags, cap` (R123). -/
def execLzSetout (flags : Byte) (cap : Word) (s : State) : Host.Outcome State Fault Refusal :=
  .next <|
    if !outFlagsOk flags then s.fail .badCommand
    else (s.setLz { s.lz with outCap := cap, outLen := 0, outDiscard := flags.getLsbD 0, out := [] }).done

/-- `LZ.LIT byte` (R126). -/
def execLzLit (byte : Byte) (s : State) : Host.Outcome State Fault Refusal :=
  .next <|
    if !s.lz.init then s.fail .notReady
    else if s.lz.hasOverhang then s.fail .overhangPending
    else if s.lz.outFull then s.fail .outFull
    else (s.setLz (s.lz.emit byte)).respond .ok 1 0

/-- `LZ.COPY offset, length` (R127). -/
def execLzCopy (offset length : Word) (s : State) : Host.Outcome State Fault Refusal :=
  .next <|
    if !s.lz.init then s.fail .notReady
    else if s.lz.hasOverhang then s.fail .overhangPending
    else
      let r := s.lz.copyLoop offset length.toNat
      let left := BitVec.ofNat 32 (length.toNat - r.1)
      (s.setLz (if r.1 < length.toNat then { r.2 with ovOff := offset, ovLen := left } else r.2)).respond .ok
        (BitVec.ofNat 64 r.1) left

/-- `LZ.DRAIN` (R128). -/
def execLzDrain (s : State) : Host.Outcome State Fault Refusal :=
  .next <|
    if !s.lz.init then s.fail .notReady
    else
      let r := s.lz.copyLoop s.lz.ovOff s.lz.ovLen.toNat
      let left := BitVec.ofNat 32 (s.lz.ovLen.toNat - r.1)
      (s.setLz { r.2 with ovOff := if left = 0 then 0 else s.lz.ovOff, ovLen := left }).respond .ok
        (BitVec.ofNat 64 r.1) left

/-- `LZ.HASOV` (R129). -/
def execLzHasov (s : State) : Host.Outcome State Fault Refusal :=
  .next (s.respond .ok (if s.lz.hasOverhang then 1 else 0) s.lz.ovLen)

/-- `LZ.OUTLEN` (R130). -/
def execLzOutlen (s : State) : Host.Outcome State Fault Refusal :=
  .next (s.respond .ok (s.lz.outLen.setWidth 64) s.lz.outCap)

/-- `LZ.OUTRD index` (R131). -/
def execLzOutrd (index : Word) (s : State) : Host.Outcome State Fault Refusal :=
  .next <|
    if s.lz.outDiscard || decide (s.lz.outLen.toNat ≤ index.toNat) then s.fail .badCommand
    else s.respond .ok ((s.lz.out.read index.toNat).setWidth 64) 0

/-- `LZ.TELL` (R132). -/
def execLzTell (s : State) : Host.Outcome State Fault Refusal := .next (s.respond .ok s.lz.wpos 0)

/-- `LZ.WINRD offset` (R133). -/
def execLzWinrd (offset : Word) (s : State) : Host.Outcome State Fault Refusal :=
  .next <|
    if !s.lz.init then s.fail .notReady
    else s.respond .ok ((s.lz.winBack offset).setWidth 64) 0

end Sys2Proof.Machine
end

