-- ==== Sys2Proof/Machine/Sys.lean ====
section
/-! DEFINITION. The system commands (45_system.md). -/

namespace Sys2Proof.Machine

/-- `P[index]` of R163; `SRC_TOTAL` is the attached source's. -/
def State.param (s : State) (index : Nat) : Nat :=
  match index with
  | 0 => ifVersion
  | 1 => l1Bits
  | 2 => s.params.l2Bytes
  | 3 => s.params.tableDepth
  | 4 => hufTables
  | 5 => s.params.hufStageSize
  | 6 => s.params.hufNodeCap
  | 7 => s.params.winLog2Max
  | 8 => s.params.fltMemSize
  | 9 => crcPoly.toNat
  | _ => s.src.total.toNat

/-- `SYS.NOP` (R160). -/
def execSysNop (s : State) : Host.Outcome State Fault Refusal := .next s.done

/-- `SYS.RESET` (R161): the hardware reset, and its own response. -/
def execSysReset (s : State) : Host.Outcome State Fault Refusal := .next s.hardReset.done

/-- `SYS.STAT` (R162). -/
def execSysStat (s : State) : Host.Outcome State Fault Refusal := .next (s.respond .ok s.statusWord 0)

/-- `SYS.PARAM index` (R163). -/
def execSysParam (index : Byte) (s : State) : Host.Outcome State Fault Refusal :=
  .next <|
    if !paramIndexOk index then s.fail .badCommand
    else s.respond .ok (BitVec.ofNat 64 (s.param index.toNat)) 0

end Sys2Proof.Machine
end

