-- ==== Sys2Proof/Machine/Dispatch.lean ====
section
/-! DEFINITION. One arm per command: each calls that command's meaning. No arm refuses. -/

namespace Sys2Proof.Machine

/-- The meaning of a command in a state (60_exceptions.md R178: total, one response). -/
def exec (i : Instr) (s : State) : Host.Outcome State Fault Refusal :=
  match i with
  | .sysNop => Sys2Proof.Machine.execSysNop s
  | .sysReset => Sys2Proof.Machine.execSysReset s
  | .sysStat => Sys2Proof.Machine.execSysStat s
  | .sysParam index => Sys2Proof.Machine.execSysParam index s
  | .bsOpen base size => Sys2Proof.Machine.execBsOpen base size s
  | .bsRead n => Sys2Proof.Machine.execBsRead n s
  | .bsPeek n => Sys2Proof.Machine.execBsPeek n s
  | .bsSkip n => Sys2Proof.Machine.execBsSkip n s
  | .bsAlign => Sys2Proof.Machine.execBsAlign s
  | .bsHas n => Sys2Proof.Machine.execBsHas n s
  | .bsAtend => Sys2Proof.Machine.execBsAtend s
  | .bsErr => Sys2Proof.Machine.execBsErr s
  | .bsBack n => Sys2Proof.Machine.execBsBack n s
  | .bsTell => Sys2Proof.Machine.execBsTell s
  | .crcSeed value => Sys2Proof.Machine.execCrcSeed value s
  | .crcUpd count data => Sys2Proof.Machine.execCrcUpd count data s
  | .crcGet => Sys2Proof.Machine.execCrcGet s
  | .crcUpdo off len => Sys2Proof.Machine.execCrcUpdo off len s
  | .crcUpdf off len => Sys2Proof.Machine.execCrcUpdf off len s
  | .hufStage index length code symbol => Sys2Proof.Machine.execHufStage index length code symbol s
  | .hufBuildl slot count maxlen => Sys2Proof.Machine.execHufBuildl slot count maxlen s
  | .hufBuildc slot count maxlen => Sys2Proof.Machine.execHufBuildc slot count maxlen s
  | .hufDecode slot => Sys2Proof.Machine.execHufDecode slot s
  | .hufFree slot => Sys2Proof.Machine.execHufFree slot s
  | .hufRdtab slot index => Sys2Proof.Machine.execHufRdtab slot index s
  | .hufRdnode slot index => Sys2Proof.Machine.execHufRdnode slot index s
  | .lzInit k => Sys2Proof.Machine.execLzInit k s
  | .lzSetout flags cap => Sys2Proof.Machine.execLzSetout flags cap s
  | .lzLit byte => Sys2Proof.Machine.execLzLit byte s
  | .lzCopy offset length => Sys2Proof.Machine.execLzCopy offset length s
  | .lzDrain => Sys2Proof.Machine.execLzDrain s
  | .lzHasov => Sys2Proof.Machine.execLzHasov s
  | .lzOutlen => Sys2Proof.Machine.execLzOutlen s
  | .lzOutrd index => Sys2Proof.Machine.execLzOutrd index s
  | .lzTell => Sys2Proof.Machine.execLzTell s
  | .lzWinrd offset => Sys2Proof.Machine.execLzWinrd offset s
  | .fltWr addr byte => Sys2Proof.Machine.execFltWr addr byte s
  | .fltRd addr => Sys2Proof.Machine.execFltRd addr s
  | .fltDelta pos len channels => Sys2Proof.Machine.execFltDelta pos len channels s
  | .fltAudio pos len channels => Sys2Proof.Machine.execFltAudio pos len channels s
  | .fltRgb pos len stride posr => Sys2Proof.Machine.execFltRgb pos len stride posr s
  | .fltX86 pos len => Sys2Proof.Machine.execFltX86 pos len s
  | .fltX86e9 pos len => Sys2Proof.Machine.execFltX86e9 pos len s
  | .fltArm pos len => Sys2Proof.Machine.execFltArm pos len s

end Sys2Proof.Machine
end

