-- ==== Sys2Proof/Machine/Step.lean ====
section
/-! DEFINITION. One step of the machine: one whole command (10_state.md R10). The host issues the next command word
of its list; the block decodes it, executes it to completion and is idle again (30_encoding.md R50). -/

namespace Sys2Proof.Machine

/-- One step. With no command waiting the block is idle, and idle holds all state (60_exceptions.md R186). A word
that is no command is answered `BadCommand` (R55). -/
def step (s : State) : Host.Outcome State Fault Refusal :=
  match s.host with
  | [] => .next s
  | w :: rest =>
    match decode w with
    | .ok i => exec i { s with host := rest }
    | .error _ => .next (State.fail { s with host := rest } .badCommand)

/-- The state in which the host issues this word next (log entry 1). The block fetches nothing from memory (R12,
R42), so the word is put before the commands the host has yet to issue. -/
def State.withFetchWord (s : State) (nbits w : Nat) : State :=
  { s with host := BitVec.ofNat 128 (w % 2 ^ nbits) :: s.host }

end Sys2Proof.Machine
end

