-- ==== Sys2Proof/Safety.lean ====
section
/-! DEFINITION. What holds of the machine between commands, in the terms the statements use: the invariants the spec
gives its state (10_state.md R15, R19 to R21; 42_huffman.md R101, R103) and what the hidden buffers hold (R84, R85).
Each is a property of one state; that the steps keep it is a statement. -/

namespace Sys2Proof.Machine

/-- The environment: a legal build (00_scope.md R5) and a source whose bytes lie below `SRC_TOTAL` (R30). -/
def State.EnvOk (s : State) : Prop :=
  s.params.Legal ∧ s.src.bytes.Wf ∧ s.src.bytes.Below s.src.total.toNat

/-- R15's invariant; and only an open stream can be in error (R72). -/
def State.StreamOk (s : State) : Prop :=
  s.bs.pos.toNat ≤ s.bitlen ∧
  (s.bs.isOpen = true → s.bs.base.toNat + s.bs.size.toNat ≤ s.src.total.toNat) ∧
  (s.bs.err = true → s.bs.isOpen = true)

/-- The first `n` bytes of stream word `w` as a number, the first byte most significant. -/
def State.wordBytes (s : State) (w : Nat) : Nat → Nat
  | 0 => 0
  | n + 1 => 256 * State.wordBytes s w n + (s.srcByte (8 * w + n)).toNat

/-- `Word(w)` (R84). -/
def State.streamWord (s : State) (w : Nat) : Nat := s.wordBytes w 8

/-- The hidden buffers hold what their tags say (R16): L1 a stream word, L2 a line of the stream, zero beyond its
end. -/
def State.BuffersOk (s : State) : Prop :=
  (∀ t, s.bs.l1Tag = some t → s.bs.l1Word.toNat = s.streamWord t.toNat) ∧
  (∀ t, s.bs.l2Tag = some t → ∀ j, j < s.params.l2Bytes →
    s.bs.l2Data.read j = s.srcByte (t.toNat * s.params.l2Bytes + j))

/-- Every memory is in its canonical form and lists only cells that exist (20_memory.md R32; log entry 8). -/
def State.MemoriesOk (s : State) : Prop :=
  (s.bs.l2Data.Wf ∧ s.bs.l2Data.Below s.params.l2Bytes) ∧
  (s.lz.win.Wf ∧ s.lz.win.Below (2 ^ s.lz.k.toNat)) ∧
  (s.lz.out.Wf ∧ s.lz.out.Below s.lz.outLen.toNat) ∧
  (s.flt.mem.Wf ∧ s.flt.mem.Below s.params.fltMemSize) ∧
  (Cells.Wf StageEntry.zero s.huf.stage ∧
    ∀ c ∈ s.huf.stage, c.1 < s.params.hufStageSize ∧ c.2.length.toNat ≤ 31)

/-- The LZSS unit (R20, R21): the output cursor stays within the capacity, a discarding buffer holds no byte, no
overhang means offset 0, and without a window nothing is pending. -/
def State.LzOk (s : State) : Prop :=
  s.lz.outLen.toNat ≤ s.lz.outCap.toNat ∧
  (s.lz.outDiscard = true → s.lz.out = []) ∧
  (s.lz.ovLen = 0 → s.lz.ovOff = 0) ∧
  (s.lz.init = false → s.lz.ovLen = 0 ∧ s.lz.wpos = 0 ∧ s.lz.k = 0 ∧ s.lz.win = [])

/-- A branch that names a node names one created later, and so one in use. -/
def BranchOk (count j : Nat) (b : Word) : Prop := b = emptyWord ∨ (j < b.toNat ∧ b.toNat < count)

/-- The three conditions of a node of R101: fresh, leaf, internal. -/
def NodeOk (count j : Nat) (nd : Node) : Prop :=
  nd = Node.fresh ∨
  (nd.b0 = nd.b1 ∧ nd.b0.toNat < 2 ^ 27) ∨
  (nd.b0 ≠ nd.b1 ∧ BranchOk count j nd.b0 ∧ BranchOk count j nd.b1)

/-- A tree of R101: every node is in one of the three conditions, and the root is no leaf (a code has a bit). -/
def TreeOk (ns : List Node) : Prop :=
  (∀ j, j < ns.length → NodeOk ns.length j (nodeAt ns j)) ∧ (nodeAt ns 0).isLeaf = false

/-- A slot (R19): free, or a built tree with the table that R103 makes of it. -/
def SlotOk (p : Params) (h : Slot) : Prop :=
  (h.valid = false → h = Slot.free) ∧
  (h.valid = true →
    1 ≤ h.maxLen.toNat ∧ h.depth.toNat = min h.maxLen.toNat p.tableDepth ∧
    1 ≤ h.node.length ∧ h.node.length ≤ p.hufNodeCap ∧ h.nNodes.toNat = h.node.length ∧
    TreeOk h.node ∧ h.table = buildTable h.node h.depth.toNat)

/-- Every slot (R19). -/
def State.SlotsOk (s : State) : Prop := ∀ t, t < 8 → SlotOk s.params (s.slot t)

/-- All of them together: what a reachable state satisfies. -/
def State.Inv (s : State) : Prop :=
  s.EnvOk ∧ s.StreamOk ∧ s.BuffersOk ∧ s.MemoriesOk ∧ s.LzOk ∧ s.SlotsOk

/-- Two states that differ at most in the hidden buffers (R16). -/
def SameButBuffers (s t : State) : Prop :=
  t = s.setBs
    { s.bs with l1Tag := t.bs.l1Tag, l1Word := t.bs.l1Word, l2Tag := t.bs.l2Tag, l2Data := t.bs.l2Data }

end Sys2Proof.Machine
end

