-- ==== Sys2Proof/Certificates/Slice0/Obligations.lean ====
section
/-! DEFINITION. The statements about the model, for the provers. First the terms they are written in, then one
`def Obligations.<Name> : Prop` each, unit by unit; the rule of spec/ each formalises stands in its docstring. A
statement written `exec i s = .next t` with `t` spelled out is also the command's frame: `State.respond` changes the
response registers only, `State.setBs` the Bitstream unit only, and so on (Laws/State.lean). -/

namespace Sys2Proof.Machine

/-! ### Terms -/

/-- Every row of 10_state.md R24 (crc.tab is a ROM, and R24 leaves the buffers and an invalid slot's memories
unspecified). -/
def ResetValues (s : State) : Prop :=
  s.rsp = ⟨.ok, 0, 0⟩ ∧
  (s.bs.isOpen = false ∧ s.bs.err = false ∧ s.bs.base = 0 ∧ s.bs.size = 0 ∧ s.bs.pos = 0) ∧
  (s.bs.l1Tag = none ∧ s.bs.l2Tag = none) ∧
  s.crc.reg = 0xFFFFFFFF#32 ∧
  (∀ i, Cells.read StageEntry.zero s.huf.stage i = ⟨0, 0, 0⟩) ∧
  (∀ t, t < 8 →
    (s.slot t).valid = false ∧ (s.slot t).maxLen = 0 ∧ (s.slot t).depth = 0 ∧ (s.slot t).nNodes = 0) ∧
  (s.lz.init = false ∧ s.lz.k = 0 ∧ s.lz.wpos = 0 ∧ s.lz.ovOff = 0 ∧ s.lz.ovLen = 0) ∧
  (s.lz.outCap = 0 ∧ s.lz.outLen = 0 ∧ s.lz.outDiscard = false ∧ s.lz.out = []) ∧
  (∀ a, s.flt.mem.read a = 0)

/-- The rows of spec/opcode_table.json as (`match`, `mask`), written out again from the table (R60): the opcodes of
each format with the format's mask. -/
def tableRows : List (Command × Command) :=
  let rows := fun (opcodes : List Command) (mask : Command) => opcodes.map fun o => (o, mask)
  rows [0x00, 0x01, 0x02, 0x14, 0x16, 0x17, 0x19, 0x22, 0x44, 0x45, 0x46, 0x48]
    0xFFFFFFFFFFFFFFFFFFFFFFFFFFFFFFFF#128 ++
  rows [0x03, 0x11, 0x12, 0x33, 0x34, 0x40, 0x42] 0xFFFFFFFFFFFFFFFFFFFFFFFFFFFF00FF#128 ++
  rows [0x13, 0x15, 0x18, 0x20, 0x47, 0x49, 0x51] 0xFFFFFFFFFFFFFFFF00000000FFFFFFFF#128 ++
  rows [0x10, 0x23, 0x24, 0x43, 0x55, 0x56, 0x57] 0xFFFFFFFF0000000000000000FFFFFFFF#128 ++
  rows [0x52, 0x53] 0x000000000000000000000000FFFFFFFF#128 ++
  rows [0x21, 0x35, 0x36, 0x41, 0x50] 0xFFFFFFFFFFFFFFFF00000000FFFF00FF#128 ++
  rows [0x54] 0x000000000000000000000000FFFF00FF#128 ++
  rows [0x31, 0x32] 0xFFFFFFFFFFFFFFFF00000000000000FF#128 ++
  rows [0x30] 0xFFFFFFFF0000000000000000000000FF#128

/-- A word selects a row (R60). -/
def Selects (w : Command) (row : Command × Command) : Prop := w &&& row.2 = row.1

/-- The fields of a command word as numbers (R51); one a format does not use is 0 (R52). -/
structure Fields where
  opc : Nat
  t : Nat := 0
  idx : Nat := 0
  a : Nat := 0
  b : Nat := 0
  c : Nat := 0

/-- The word the fields make (R50, R51): `W0` holds `OPC`, `T` and `IDX`, then come `A`, `B` and `C`, least significant
word first. -/
def Fields.word (f : Fields) : Nat :=
  f.opc + 2 ^ 8 * f.t + 2 ^ 16 * f.idx + 2 ^ 32 * f.a + 2 ^ 64 * f.b + 2 ^ 96 * f.c

/-- Which field carries which operand: the opcode and the "Encoding" of each command's own rule (R53). -/
def fieldsOf : Instr → Fields
  | .sysNop => { opc := 0x00 }
  | .sysReset => { opc := 0x01 }
  | .sysStat => { opc := 0x02 }
  | .sysParam index => { opc := 0x03, t := index.toNat }
  | .bsOpen base size => { opc := 0x10, a := base.toNat, b := size.toNat }
  | .bsRead n => { opc := 0x11, t := n.toNat }
  | .bsPeek n => { opc := 0x12, t := n.toNat }
  | .bsSkip n => { opc := 0x13, a := n.toNat }
  | .bsAlign => { opc := 0x14 }
  | .bsHas n => { opc := 0x15, a := n.toNat }
  | .bsAtend => { opc := 0x16 }
  | .bsErr => { opc := 0x17 }
  | .bsBack n => { opc := 0x18, a := n.toNat }
  | .bsTell => { opc := 0x19 }
  | .crcSeed value => { opc := 0x20, a := value.toNat }
  | .crcUpd count data => { opc := 0x21, t := count.toNat, a := data.toNat }
  | .crcGet => { opc := 0x22 }
  | .crcUpdo off len => { opc := 0x23, a := off.toNat, b := len.toNat }
  | .crcUpdf off len => { opc := 0x24, a := off.toNat, b := len.toNat }
  | .hufStage index length code symbol =>
    { opc := 0x30, t := length.toNat, idx := index.toNat, a := code.toNat, b := symbol.toNat }
  | .hufBuildl slot count maxlen => { opc := 0x31, t := slot.toNat, idx := count.toNat, a := maxlen.toNat }
  | .hufBuildc slot count maxlen => { opc := 0x32, t := slot.toNat, idx := count.toNat, a := maxlen.toNat }
  | .hufDecode slot => { opc := 0x33, t := slot.toNat }
  | .hufFree slot => { opc := 0x34, t := slot.toNat }
  | .hufRdtab slot index => { opc := 0x35, t := slot.toNat, a := index.toNat }
  | .hufRdnode slot index => { opc := 0x36, t := slot.toNat, a := index.toNat }
  | .lzInit k => { opc := 0x40, t := k.toNat }
  | .lzSetout flags cap => { opc := 0x41, t := flags.toNat, a := cap.toNat }
  | .lzLit byte => { opc := 0x42, t := byte.toNat }
  | .lzCopy offset length => { opc := 0x43, a := offset.toNat, b := length.toNat }
  | .lzDrain => { opc := 0x44 }
  | .lzHasov => { opc := 0x45 }
  | .lzOutlen => { opc := 0x46 }
  | .lzOutrd index => { opc := 0x47, a := index.toNat }
  | .lzTell => { opc := 0x48 }
  | .lzWinrd offset => { opc := 0x49, a := offset.toNat }
  | .fltWr addr byte => { opc := 0x50, t := byte.toNat, a := addr.toNat }
  | .fltRd addr => { opc := 0x51, a := addr.toNat }
  | .fltDelta pos len channels => { opc := 0x52, a := pos.toNat, b := len.toNat, c := channels.toNat }
  | .fltAudio pos len channels => { opc := 0x53, a := pos.toNat, b := len.toNat, c := channels.toNat }
  | .fltRgb pos len stride posr => { opc := 0x54, t := posr.toNat, a := pos.toNat, b := len.toNat, c := stride.toNat }
  | .fltX86 pos len => { opc := 0x55, a := pos.toNat, b := len.toNat }
  | .fltX86e9 pos len => { opc := 0x56, a := pos.toNat, b := len.toNat }
  | .fltArm pos len => { opc := 0x57, a := pos.toNat, b := len.toNat }

/-- A command's rule names its opcode and format: its word carries both, and the word decodes to it.
Which field carries which operand is `fieldsOf`'s, in `Obligations.DecodeInvertsEncode`. -/
def EncodedAs (i : Instr) (opc : Byte) (f : Format) : Prop :=
  opcField (encode i) = opc ∧ encode i &&& f.mask = opc.setWidth 128 ∧ decode (encode i) = .ok i

/-- The statuses R170 lets a command answer, besides `OK` and `BadCommand`. -/
def specialStatuses : Instr → List Status
  | .bsOpen _ _ => [.seekFail]
  | .bsRead _ | .bsPeek _ | .bsSkip _ | .bsAlign | .bsHas _ | .bsAtend => [.readFail, .notReady]
  | .bsBack _ => [.readFail, .seekFail, .notReady]
  | .hufBuildl _ _ _ => [.huffPrefixPresent, .allocFail]
  | .hufBuildc _ _ _ => [.huffPrefixPresent, .huffReservedSymbol, .allocFail]
  | .hufDecode _ => [.readFail, .huffInvalidCode, .notReady]
  | .hufRdtab _ _ | .hufRdnode _ _ => [.notReady]
  | .lzLit _ => [.outFull, .overhangPending, .notReady]
  | .lzCopy _ _ => [.overhangPending, .notReady]
  | .lzDrain | .lzWinrd _ => [.notReady]
  | .fltDelta _ _ _ | .fltAudio _ _ _ | .fltRgb _ _ _ _ => [.filtersInvalidLength]
  | .fltX86 _ _ | .fltX86e9 _ _ | .fltArm _ _ => [.filtersInvalidLength, .filtersInvalidFilePosition]
  | .sysNop | .sysReset | .sysStat | .sysParam _ | .bsErr | .bsTell | .crcSeed _ | .crcUpd _ _ | .crcGet
  | .crcUpdo _ _ | .crcUpdf _ _ | .hufStage _ _ _ _ | .hufFree _ | .lzInit _ | .lzSetout _ _ | .lzHasov
  | .lzOutlen | .lzOutrd _ | .lzTell | .fltWr _ _ | .fltRd _ => []

/-- What a failing command changes besides the response registers (R174). `none` is "nothing": the state as it was.
The four exceptions of the table follow; in the decode's two the hidden buffers may have been refilled. -/
def FailureEffect (i : Instr) (s t : State) : Prop :=
  let u := { t with rsp := s.rsp }
  match i with
  | .bsRead _ | .bsSkip _ =>
    if t.rsp.status = .readFail ∧ s.bs.err = false then u = s.setBs { s.bs with err := true } else u = s
  | .hufBuildl slot _ _ | .hufBuildc slot _ _ =>
    if t.rsp.status = .badCommand then u = s
    else
      u = s.setSlot slot.toNat (t.slot slot.toNat) ∧
      (t.slot slot.toNat).valid = false ∧ (t.slot slot.toNat).maxLen = 0 ∧
      (t.slot slot.toNat).depth = 0 ∧ (t.slot slot.toNat).nNodes = 0
  | .hufDecode _ =>
    if t.rsp.status = .readFail ∧ s.bs.err = false then
      t.bs.err = true ∧ (t.bs.pos = s.bs.pos ∨ t.bs.pos.toNat = s.bitlen) ∧
      SameButBuffers (s.setBs { s.bs with err := true, pos := t.bs.pos }) u
    else if t.rsp.status = .huffInvalidCode then
      s.bs.pos.toNat ≤ t.bs.pos.toNat ∧ t.bs.pos.toNat ≤ s.bitlen ∧
      SameButBuffers (s.setBs { s.bs with pos := t.bs.pos }) u
    else u = s
  | _ => u = s

/-- How a bit-by-bit walk of a tree ends (R109). -/
inductive WalkEnd where
  /-- At a leaf: its symbol, and the bits used. -/
  | leaf (sym : Word) (used : Nat)
  /-- At an unset branch: the bits used, the one that chose it among them. -/
  | unset (used : Nat)
  /-- At the end of the stream, on a node that is no leaf. -/
  | outOfBits
deriving DecidableEq, Repr

/-- The bit-by-bit walk of a tree from node `j` along `bit`, for at most `rem` bits (R109 corner case (e)). -/
def treeWalk (ns : List Node) (bit : Nat → Bool) : (rem : Nat) → (j used : Nat) → WalkEnd
  | 0, _, _ => .outOfBits
  | rem + 1, j, used =>
    let ch := (nodeAt ns j).branch (bit used)
    if ch = emptyWord then .unset (used + 1)
    else if (nodeAt ns ch.toNat).isLeaf then .leaf (nodeAt ns ch.toNat).b0 (used + 1)
    else treeWalk ns bit rem ch.toNat (used + 1)

/-- The walk of slot `u`'s tree from its root along what remains of the stream. -/
def State.walk (s : State) (u : Nat) : WalkEnd :=
  treeWalk (s.slot u).node (fun k => s.streamBit (s.bs.pos.toNat + k)) s.remaining 0 0

/-- R105: the first code of length `l`, where `len i` is the length of entry `i` of `count`: the codes of the shorter
lengths come before it, and each length doubles the code. Length 0 is no code. -/
def firstCode (len : Nat → Nat) (count : Nat) : Nat → Nat
  | 0 => 0
  | l + 1 => 2 * (firstCode len count l + ((List.range count).filter fun i => len i = l ∧ l ≠ 0).length)

/-- R105: the code of entry `j`: as many codes of its length stand before it as entries of that length with a smaller
index. -/
def canonicalCode (len : Nat → Nat) (count j : Nat) : Nat :=
  firstCode len count (len j) + ((List.range j).filter fun i => len i = len j).length

/-- The period of a copy: the offset reduced to the ring, an offset of 0 acting as the window size (R125). -/
def copyPeriod (k : Nat) (off : Word) : Nat := if off.toNat % 2 ^ k = 0 then 2 ^ k else off.toNat % 2 ^ k

/-- Byte `m` of a copy (R124, R125): the window as it was, read at the offset and repeated with the period. -/
def copiedByte (z : Lz) (off : Word) (m : Nat) : Byte :=
  z.win.read
    ((z.wpos + BitVec.ofNat 64 (m % copyPeriod z.k.toNat off) - off.setWidth 64).toNat % 2 ^ z.k.toNat)

/-- The samples of channel `c` in a slice of `n` bytes (R145: `i` from `c` while `i < n` step `channels`). -/
def channelSamples (n channels c : Nat) : Nat := (n - c + channels - 1) / channels

/-- Where channel `c` begins in the input: after all samples of the channels before it (R145). -/
def channelStart (n channels : Nat) : Nat → Nat
  | 0 => 0
  | c + 1 => channelStart n channels c + channelSamples n channels c

/-- The sum of `k + 1` bytes from `a` on, modulo 256. -/
def byteSum (m : Mem) (a : Nat) : Nat → Byte
  | 0 => m.read a
  | k + 1 => byteSum m a k + m.read (a + (k + 1))

/-- A channel's predictor after the given samples (R146). -/
def audioAfter (samples : List Byte) : AudioPredictor := samples.foldl AudioPredictor.next AudioPredictor.init

/-- R147's prediction: the neighbour nearest to `prev + up - ul`, ties going to `prev`, then to `up`. -/
def RgbPrediction (prev up ul pred : Byte) : Prop :=
  let far := fun x : Byte => ((prev.toNat : Int) + up.toNat - ul.toNat - x.toNat).natAbs
  if far prev ≤ far up ∧ far prev ≤ far ul then pred = prev
  else if far up ≤ far ul then pred = up
  else pred = ul

/-- What output byte `j` reads as while byte `i` of the planes `q` is made (R147 corner case (d)): planes are made one
after another, each upward, so it is `q`'s once made and until then what the memory held. -/
def rgbHeld (q : Nat → Byte) (m : Mem) (n i j : Nat) : Byte :=
  if j % 3 < i % 3 ∨ (j % 3 = i % 3 ∧ j < i) then q j else m.read (n + j)

/-- The bytes `q` of the first loop of R147, byte `i` belonging to plane `i mod 3`: in the first row predicted from the
byte before it in its plane, below it from that, the upper and the upper-left neighbour. -/
def RgbPlanes (n stride : Nat) (m : Mem) (q : Nat → Byte) : Prop :=
  ∀ i, i < n → ∃ prev pred : Byte,
    prev = (if i < 3 then 0 else q (i - 3)) ∧
    (i < stride → pred = prev) ∧
    (stride ≤ i → RgbPrediction prev (rgbHeld q m n i (i - stride + 3)) (rgbHeld q m n i (i - stride)) pred) ∧
    q i = pred - m.read (channelStart n 3 (i % 3) + i / 3)

/-- Output byte `i` after the second loop of R147: in a whole pixel from `posr` on, the middle byte is added to the
other two. -/
def rgbOutput (n posr : Nat) (q : Nat → Byte) (i : Nat) : Byte :=
  let g := i - (i - posr) % 3
  if posr ≤ i ∧ g + 2 < n ∧ i ≠ g + 1 then q i + q (g + 1) else q i

/-- The positions the x86 scan looks at, on the memory as it was (R148): the first, the one after a byte that is no
opcode, and the one five after an opcode. -/
inductive ScanAt (isCall : Byte → Bool) (m : Mem) (n : Nat) : Nat → Prop
  | start : ScanAt isCall m n 0
  | plain (i : Nat) : ScanAt isCall m n i → i + 5 ≤ n → isCall (m.read i) = false → ScanAt isCall m n (i + 1)
  | call (i : Nat) : ScanAt isCall m n i → i + 5 ≤ n → isCall (m.read i) = true → ScanAt isCall m n (i + 5)

/-- An operand the scan finds: its opcode stands at scanned position `i`, all five bytes inside the slice. -/
def OperandAt (isCall : Byte → Bool) (m : Mem) (n i : Nat) : Prop :=
  ScanAt isCall m n i ∧ i + 5 ≤ n ∧ isCall (m.read i) = true

/-- The little-endian 32-bit value at `a` (R33). -/
def read32 (m : Mem) (a : Nat) : Nat :=
  (m.read a).toNat + 256 * (m.read (a + 1)).toNat + 65536 * (m.read (a + 2)).toNat +
    16777216 * (m.read (a + 3)).toNat

/-- R148's cases for the operand `addr` at file position `off`: with bit 31 set, `0x01000000` is added where that bit of
`addr + off` is clear; below `0x01000000`, `off` is subtracted; any other operand stays. -/
def X86Rewrites (addr off new : Nat) : Prop :=
  if 2 ^ 31 ≤ addr then
    if (addr + off) % 2 ^ 32 < 2 ^ 31 then new = (addr + 0x01000000) % 2 ^ 32 else new = addr
  else if addr < 0x01000000 then (new + off) % 2 ^ 32 = addr
  else new = addr

/-- What the x86 transforms make of the memory (R148): each operand found is rewritten by its case, and every byte in no
operand found stays. -/
def X86Result (isCall : Byte → Bool) (pos n : Nat) (m m' : Mem) : Prop :=
  (∀ i, OperandAt isCall m n i → X86Rewrites (read32 m (i + 1)) (pos + i + 1) (read32 m' (i + 1))) ∧
  (∀ a, (¬ ∃ i, OperandAt isCall m n i ∧ i < a ∧ a < i + 5) → m'.read a = m.read a)

/-- The little-endian 24-bit value at `a` (R149). -/
def read24 (m : Mem) (a : Nat) : Nat := (m.read a).toNat + 256 * (m.read (a + 1)).toNat + 65536 * (m.read (a + 2)).toNat

end Sys2Proof.Machine

open Sys2Proof Sys2Proof.Machine

/-! ### Reset, steps, encoding -/

/-- R24, R161: after reset, and after `SYS.RESET` in any state, every piece of state has its reset value; `SYS.RESET`
answers `OK, 0, 0`. That it keeps the parameters, the source and the host's list of commands is the model's choice: the
list is its own (log entry 1), and that a reset keeps all three is log entry 13. -/
def Obligations.ResetGivesSpecValues : Prop :=
  EncodedAs .sysReset 0x01 .n ∧ ResetValues State.reset ∧
  ∀ s : State, ∃ t, exec .sysReset s = .next t ∧ ResetValues t ∧
    t.params = s.params ∧ t.src = s.src ∧ t.host = s.host

/-- R10, R50, R186 (the list of commands is the model's, log entry 1): a step runs the decoded command on the state
without its word; with no command waiting it holds all state. -/
def Obligations.StepRunsTheDecodedCommand : Prop :=
  (∀ (s : State) (w : Command) (rest : List Command) (i : Instr),
    s.host = w :: rest → decode w = .ok i → step s = exec i { s with host := rest }) ∧
  (∀ s : State, s.host = [] → step s = .next s)

/-- R55: a word that selects no row, and a command with an operand outside its range, is answered `BadCommand` with
`R0 = R1 = 0` and changes nothing else (the host's list, the model's own, moves on). -/
def Obligations.IllegalCommandsAnswerBadCommand : Prop :=
  ∀ (s : State) (w : Command) (rest : List Command), s.host = w :: rest →
    ((∀ row ∈ tableRows, ¬ Selects w row) ∨ ∃ i, decode w = .ok i ∧ i.wellFormed s.params = false) →
    step s = .next { s with host := rest, rsp := ⟨.badCommand, 0, 0⟩ }

/-- R60: a word decodes to a command exactly when it selects a row of the table, and it selects at most one. -/
def Obligations.DecodingSelectsTableRows : Prop :=
  (∀ w : Command, (∃ i, decode w = .ok i) ↔ ∃ row ∈ tableRows, Selects w row) ∧
  (∀ w : Command, ∀ r ∈ tableRows, ∀ q ∈ tableRows, Selects w r → Selects w q → r = q)

/-- R51 to R54: every command's word is its opcode and its operands in the fields R53 gives them, every other bit 0; and
no bit of an encoding is dropped: every command, with every value of every operand, is what its word decodes to. -/
def Obligations.DecodeInvertsEncode : Prop :=
  ∀ i : Instr, (encode i).toNat = (fieldsOf i).word ∧ decode (encode i) = .ok i

/-- R55: every word is at most one command, and a command has one word. -/
def Obligations.EncodeInvertsDecode : Prop := ∀ (w : Command) (i : Instr), decode w = .ok i → encode i = w

/-- R51, R53: words of the spec's examples decode to the commands they stand for. -/
def Obligations.ExampleWordsDecode : Prop :=
  decode 0x00000000_00000009_00000000_00000010#128 = .ok (.bsOpen 0 9) ∧
  decode 0x00000000_00000000_00000000_00002011#128 = .ok (.bsRead 32) ∧
  decode 0x00000000_00000000_34333231_00000421#128 = .ok (.crcUpd 4 0x34333231) ∧
  decode 0x00000000_07FFFFFF_FFFFFFF6_00020330#128 = .ok (.hufStage 2 3 0xFFFFFFF6 0x7FFFFFF) ∧
  decode 0x00000000_00000009_00000003_00000043#128 = .ok (.lzCopy 3 9) ∧
  decode 0x00000006_0000000C_00000000_00000254#128 = .ok (.fltRgb 0 12 6 2) ∧
  decode 0x00000000_00000000_00000000_00000303#128 = .ok (.sysParam 3) ∧
  decode 0x00000000_00000000_00000000_00000100#128 = .error .reservedBits ∧
  decode 0x00000000_00000000_00000000_0000001A#128 = .error .unknownOpcode

/-! ### Rules about every command -/

/-- R178: every command word, in every state, is answered by exactly one next state: no stop, no lock-up. -/
def Obligations.EveryCommandAnswers : Prop :=
  (∀ (i : Instr) (s : State), ∃ t, exec i s = .next t) ∧ ∀ s : State, ∃ t, step s = .next t

/-- R174: a command that answers a status other than `OK` changes nothing but the response registers, with exactly
the exceptions listed. -/
def Obligations.FailuresArePrecise : Prop :=
  ∀ (i : Instr) (s t : State), s.StreamOk → exec i s = .next t → t.rsp.status ≠ .ok → FailureEffect i s t

/-- R171: a response with a status other than `OK` has `R0 = 0` and `R1 = 0`, except `BS.ATEND` short-circuited by
`bs.err`, which answers `R0 = 1`. -/
def Obligations.FailuresAnswerZero : Prop :=
  ∀ (i : Instr) (s t : State), exec i s = .next t → t.rsp.status ≠ .ok →
    t.rsp.r1 = 0 ∧ t.rsp.r0 = if i = .bsAtend ∧ t.rsp.status = .readFail then 1 else 0

/-- R170: the statuses each command can answer. -/
def Obligations.StatusesPerCommand : Prop :=
  ∀ (i : Instr) (s t : State), exec i s = .next t →
    t.rsp.status = .ok ∨ t.rsp.status = .badCommand ∨ t.rsp.status ∈ specialStatuses i

/-- R25 (and R161): the parameters, the source and the host's list are no state a command can change. -/
def Obligations.EnvironmentNeverChanges : Prop :=
  ∀ (i : Instr) (s t : State), exec i s = .next t → t.params = s.params ∧ t.src = s.src ∧ t.host = s.host

/-- R13 and R32: each flag and each memory is written by the commands the tables list and by no other; R92, R93, R95 and
R96: `crc.reg` is written by the four CRC commands that seed or feed it. -/
def Obligations.OnlyListedCommandsWrite : Prop :=
  ∀ (i : Instr) (s t : State), exec i s = .next t → i ≠ .sysReset →
    (t.bs.isOpen ≠ s.bs.isOpen → ∃ base size, i = .bsOpen base size) ∧
    (t.bs.err ≠ s.bs.err →
      (∃ base size, i = .bsOpen base size) ∨ (∃ n, i = .bsRead n) ∨ (∃ n, i = .bsSkip n) ∨ ∃ u, i = .hufDecode u) ∧
    (t.lz.init ≠ s.lz.init → ∃ k, i = .lzInit k) ∧
    (t.lz.outDiscard ≠ s.lz.outDiscard → ∃ flags cap, i = .lzSetout flags cap) ∧
    (t.lz.hasOverhang ≠ s.lz.hasOverhang →
      (∃ offset length, i = .lzCopy offset length) ∨ i = .lzDrain ∨ ∃ k, i = .lzInit k) ∧
    (∀ u, t.slot u ≠ s.slot u →
      (∃ v count maxlen, (i = .hufBuildl v count maxlen ∨ i = .hufBuildc v count maxlen) ∧ v.toNat = u) ∨
      ∃ v, i = .hufFree v ∧ v.toNat = u) ∧
    (t.huf.stage ≠ s.huf.stage → ∃ index length code symbol, i = .hufStage index length code symbol) ∧
    (t.lz.win ≠ s.lz.win →
      (∃ k, i = .lzInit k) ∨ (∃ b, i = .lzLit b) ∨ (∃ offset length, i = .lzCopy offset length) ∨ i = .lzDrain) ∧
    (t.lz.out ≠ s.lz.out →
      (∃ b, i = .lzLit b) ∨ (∃ offset length, i = .lzCopy offset length) ∨ i = .lzDrain ∨
      ∃ flags cap, i = .lzSetout flags cap) ∧
    (t.flt.mem ≠ s.flt.mem →
      (∃ addr b, i = .fltWr addr b) ∨ (∃ pos len channels, i = .fltDelta pos len channels) ∨
      (∃ pos len channels, i = .fltAudio pos len channels) ∨
      (∃ pos len stride posr, i = .fltRgb pos len stride posr) ∨ (∃ pos len, i = .fltX86 pos len) ∨
      (∃ pos len, i = .fltX86e9 pos len) ∨ ∃ pos len, i = .fltArm pos len) ∧
    (t.crc ≠ s.crc →
      (∃ v, i = .crcSeed v) ∨ (∃ count data, i = .crcUpd count data) ∨ (∃ off len, i = .crcUpdo off len) ∨
      ∃ off len, i = .crcUpdf off len)

/-! ### Invariants -/

/-- The state after reset meets every invariant. -/
def Obligations.InvariantsHoldAtReset : Prop := State.reset.Inv

/-- R15: `bs.pos` stays within the stream and an open window within SRC; every step keeps it. -/
def Obligations.StepKeepsStreamInvariant : Prop :=
  ∀ s t : State, s.StreamOk → step s = .next t → t.StreamOk

/-- R16, R84, R85: the hidden buffers hold what their tags say; every step keeps it. -/
def Obligations.StepKeepsBuffersCoherent : Prop :=
  ∀ s t : State, s.EnvOk → s.StreamOk → s.BuffersOk → step s = .next t → t.BuffersOk

/-- R32, R37: every memory stays in its canonical form and lists only cells that exist; every step keeps it (the form
is the model's, log entry 8). -/
def Obligations.StepKeepsMemoriesCanonical : Prop :=
  ∀ s t : State, s.EnvOk → s.LzOk → s.MemoriesOk → step s = .next t → t.MemoriesOk

/-- R20, R21: the output cursor never passes the capacity, a discarding buffer holds no byte, no overhang means no
offset; every step keeps it. -/
def Obligations.StepKeepsOutputWithinCapacity : Prop :=
  ∀ s t : State, s.LzOk → step s = .next t → t.LzOk

/-- R19, R101, R103: a valid slot holds a tree whose nodes are fresh, leaf or internal, and the table that tree gives;
every step keeps it. That an invalid slot lists no node and no table entry, which the spec leaves unspecified, is the
model's choice (log entry 9). -/
def Obligations.StepKeepsSlotsWellFormed : Prop :=
  ∀ s t : State, s.EnvOk → s.SlotsOk → step s = .next t → t.SlotsOk

/-! ### System commands -/

/-- R160, R163: `SYS.NOP` only answers; `SYS.PARAM` reads parameter `index`, above 10 it is `BadCommand`. -/
def Obligations.SysNopAndParamAnswer : Prop :=
  EncodedAs .sysNop 0x00 .n ∧ encode .sysNop = 0 ∧ (∀ index, EncodedAs (.sysParam index) 0x03 .t) ∧
  ∀ s : State,
    exec .sysNop s = .next (s.respond .ok 0 0) ∧
    (∀ index : Byte, 10 < index.toNat → exec (.sysParam index) s = .next (s.respond .badCommand 0 0)) ∧
    (∀ (index : Byte) (v : Nat),
      [1, 64, s.params.l2Bytes, s.params.tableDepth, 8, s.params.hufStageSize, s.params.hufNodeCap,
        s.params.winLog2Max, s.params.fltMemSize, 0xEDB88320, s.src.total.toNat][index.toNat]? = some v →
      exec (.sysParam index) s = .next (s.respond .ok (BitVec.ofNat 64 v) 0))

/-- R14, R162: every bit of the word `SYS.STAT` answers. -/
def Obligations.SysStatReadsEveryFlag : Prop :=
  EncodedAs .sysStat 0x02 .n ∧
  ∀ s : State, ∃ v : DWord, exec .sysStat s = .next (s.respond .ok v 0) ∧
    v.getLsbD 0 = s.bs.isOpen ∧ v.getLsbD 1 = s.bs.err ∧ v.getLsbD 2 = s.lz.init ∧
    v.getLsbD 3 = decide (s.lz.ovLen ≠ 0) ∧ v.getLsbD 4 = s.lz.outDiscard ∧
    v.getLsbD 5 = decide (s.lz.outLen = s.lz.outCap) ∧ v.getLsbD 6 = false ∧ v.getLsbD 7 = false ∧
    (∀ t, t < 8 → v.getLsbD (8 + t) = (s.slot t).valid) ∧ ∀ b, 16 ≤ b → v.getLsbD b = false

/-! ### Bitstream unit -/

/-- R73: `BS.OPEN` attaches a window that fits, clearing the sticky error and making both buffers' tags INVALID; otherwise
`SeekFail` and nothing changes. That the word and the line under the INVALID tags keep their content, where 93 U1 allows
any, is the model's choice (log entry 6). -/
def Obligations.BsOpenAttachesWindow : Prop :=
  ∀ (base size : Word) (s : State),
    EncodedAs (.bsOpen base size) 0x10 .ab ∧
    (s.src.total.toNat < base.toNat + size.toNat →
      exec (.bsOpen base size) s = .next (s.respond .seekFail 0 0)) ∧
    (base.toNat + size.toNat ≤ s.src.total.toNat →
      exec (.bsOpen base size) s =
        .next
          ((s.setBs
            { isOpen := true, base := base, size := size, pos := 0, err := false, l1Tag := none
              l1Word := s.bs.l1Word, l2Tag := none, l2Data := s.bs.l2Data }).respond .ok 0 0))

/-- R87: extraction through the hidden buffers gives the bits of the stream, whatever the (coherent) buffers held. -/
def Obligations.ExtractEqualsBits : Prop :=
  ∀ (s : State) (p n : Nat), s.params.Legal → s.BuffersOk → n ≤ 32 →
    (s.extract p n).1.toNat = s.bits p n ∧ SameButBuffers s (s.extract p n).2

/-- R74: `BS.READ n`, every case of its pseudocode; a failing read sets the sticky error and consumes nothing. -/
def Obligations.BsReadReturnsBits : Prop :=
  ∀ (n : Byte) (s : State),
    EncodedAs (.bsRead n) 0x11 .t ∧
    (32 < n.toNat → exec (.bsRead n) s = .next (s.respond .badCommand 0 0)) ∧
    (n.toNat ≤ 32 → s.bs.isOpen = false → exec (.bsRead n) s = .next (s.respond .notReady 0 0)) ∧
    (n.toNat ≤ 32 → s.bs.isOpen = true → s.bs.err = true →
      exec (.bsRead n) s = .next (s.respond .readFail 0 0)) ∧
    (n.toNat ≤ 32 → s.bs.isOpen = true → s.bs.err = false → s.remaining < n.toNat →
      exec (.bsRead n) s = .next ((s.setBs { s.bs with err := true }).respond .readFail 0 0)) ∧
    (s.params.Legal → s.BuffersOk →
      n.toNat ≤ 32 → s.bs.isOpen = true → s.bs.err = false → n.toNat ≤ s.remaining →
      ∃ u, SameButBuffers s u ∧
        exec (.bsRead n) s =
          .next
            ((u.setBs { u.bs with pos := BitVec.ofNat 64 (s.bs.pos.toNat + n.toNat) }).respond .ok
              (BitVec.ofNat 64 (s.bits s.bs.pos.toNat n.toNat)) 0))

/-- R76: `BS.PEEK n`: the bits without consuming them, 0 for those past the end, and never the sticky error. -/
def Obligations.BsPeekReturnsPaddedBits : Prop :=
  ∀ (n : Byte) (s : State),
    EncodedAs (.bsPeek n) 0x12 .t ∧
    (32 < n.toNat → exec (.bsPeek n) s = .next (s.respond .badCommand 0 0)) ∧
    (n.toNat ≤ 32 → s.bs.isOpen = false → exec (.bsPeek n) s = .next (s.respond .notReady 0 0)) ∧
    (n.toNat ≤ 32 → s.bs.isOpen = true → s.bs.err = true →
      exec (.bsPeek n) s = .next (s.respond .readFail 0 0)) ∧
    (s.params.Legal → s.BuffersOk → n.toNat ≤ 32 → s.bs.isOpen = true → s.bs.err = false →
      ∃ u, SameButBuffers s u ∧
        exec (.bsPeek n) s = .next (u.respond .ok (BitVec.ofNat 64 (s.bits s.bs.pos.toNat n.toNat)) 0)) ∧
    (∀ p, s.bitlen ≤ p → s.streamBit p = false)

/-- R75: with `n = 0` both reads answer `OK, 0` and change nothing, at any position; under the sticky error they
short-circuit. -/
def Obligations.ZeroBitReadsChangeNothing : Prop :=
  ∀ s : State, s.bs.isOpen = true →
    (s.bs.err = false →
      exec (.bsRead 0) s = .next (s.respond .ok 0 0) ∧ exec (.bsPeek 0) s = .next (s.respond .ok 0 0)) ∧
    (s.bs.err = true →
      exec (.bsRead 0) s = .next (s.respond .readFail 0 0) ∧ exec (.bsPeek 0) s = .next (s.respond .readFail 0 0))

/-- R77: `BS.SKIP n`: like a read of the same size whose value is thrown away. -/
def Obligations.BsSkipMovesForward : Prop :=
  ∀ (n : Word) (s : State),
    EncodedAs (.bsSkip n) 0x13 .a ∧
    (s.bs.isOpen = false → exec (.bsSkip n) s = .next (s.respond .notReady 0 0)) ∧
    (s.bs.isOpen = true → s.bs.err = true → exec (.bsSkip n) s = .next (s.respond .readFail 0 0)) ∧
    (s.bs.isOpen = true → s.bs.err = false → s.remaining < n.toNat →
      exec (.bsSkip n) s = .next ((s.setBs { s.bs with err := true }).respond .readFail 0 0)) ∧
    (s.bs.isOpen = true → s.bs.err = false → n.toNat ≤ s.remaining →
      exec (.bsSkip n) s =
        .next ((s.setBs { s.bs with pos := BitVec.ofNat 64 (s.bs.pos.toNat + n.toNat) }).respond .ok 0 0))

/-- R78: `BS.ALIGN` moves to the next byte boundary, never past the end. -/
def Obligations.BsAlignReachesByteBoundary : Prop :=
  EncodedAs .bsAlign 0x14 .n ∧
  ∀ s : State,
    (s.bs.isOpen = false → exec .bsAlign s = .next (s.respond .notReady 0 0)) ∧
    (s.bs.isOpen = true → s.bs.err = true → exec .bsAlign s = .next (s.respond .readFail 0 0)) ∧
    (s.StreamOk → s.bs.isOpen = true → s.bs.err = false →
      ∃ p : DWord, exec .bsAlign s = .next ((s.setBs { s.bs with pos := p }).respond .ok 0 0) ∧
        p.toNat % 8 = 0 ∧ s.bs.pos.toNat ≤ p.toNat ∧ p.toNat < s.bs.pos.toNat + 8 ∧ p.toNat ≤ s.bitlen)

/-- R79, R80: `BS.HAS n` and `BS.ATEND`; their failure values are 0 and 1. -/
def Obligations.BsHasAndAtendReportRemaining : Prop :=
  EncodedAs .bsAtend 0x16 .n ∧
  ∀ (n : Word) (s : State),
    EncodedAs (.bsHas n) 0x15 .a ∧
    (s.bs.isOpen = false →
      exec (.bsHas n) s = .next (s.respond .notReady 0 0) ∧ exec .bsAtend s = .next (s.respond .notReady 0 0)) ∧
    (s.bs.isOpen = true → s.bs.err = true →
      exec (.bsHas n) s = .next (s.respond .readFail 0 0) ∧ exec .bsAtend s = .next (s.respond .readFail 1 0)) ∧
    (s.bs.isOpen = true → s.bs.err = false →
      exec (.bsHas n) s = .next (s.respond .ok (if n.toNat ≤ s.remaining then 1 else 0) 0) ∧
      exec .bsAtend s = .next (s.respond .ok (if s.remaining = 0 then 1 else 0) 0))

/-- R81, R83: `BS.ERR` and `BS.TELL` answer in every state. -/
def Obligations.BsErrAndTellAlwaysAnswer : Prop :=
  EncodedAs .bsErr 0x17 .n ∧ EncodedAs .bsTell 0x19 .n ∧
  ∀ s : State,
    exec .bsErr s = .next (s.respond .ok (if s.bs.err then 1 else 0) 0) ∧
    exec .bsTell s = .next (s.respond .ok s.bs.pos 0)

/-- R82: `BS.BACK n` moves back any number of bits, not before bit 0, and clears no error. -/
def Obligations.BsBackSeeksBackward : Prop :=
  ∀ (n : Word) (s : State),
    EncodedAs (.bsBack n) 0x18 .a ∧
    (s.bs.isOpen = false → exec (.bsBack n) s = .next (s.respond .notReady 0 0)) ∧
    (s.bs.isOpen = true → s.bs.err = true → exec (.bsBack n) s = .next (s.respond .readFail 0 0)) ∧
    (s.bs.isOpen = true → s.bs.err = false → s.bs.pos.toNat < n.toNat →
      exec (.bsBack n) s = .next (s.respond .seekFail 0 0)) ∧
    (s.bs.isOpen = true → s.bs.err = false → n.toNat ≤ s.bs.pos.toNat →
      exec (.bsBack n) s =
        .next ((s.setBs { s.bs with pos := BitVec.ofNat 64 (s.bs.pos.toNat - n.toNat) }).respond .ok 0 0))

/-- R72: only a consuming command sets the sticky error, only `BS.OPEN` (successful) and `SYS.RESET` clear it, and
under it each command of the table does nothing and answers its failure value. -/
def Obligations.StickyErrorShortCircuits : Prop :=
  (∀ (i : Instr) (s t : State), exec i s = .next t → s.bs.err = false → t.bs.err = true →
    t.rsp.status = .readFail ∧
      ((∃ n, i = .bsRead n ∧ s.remaining < n.toNat) ∨ (∃ n, i = .bsSkip n ∧ s.remaining < n.toNat) ∨
        ∃ u, i = .hufDecode u)) ∧
  (∀ (i : Instr) (s t : State), exec i s = .next t → s.bs.err = true → t.bs.err = false →
    ((∃ base size, i = .bsOpen base size) ∧ t.rsp.status = .ok) ∨ i = .sysReset) ∧
  (∀ s : State, s.bs.isOpen = true → s.bs.err = true →
    (∀ n : Byte, n.toNat ≤ 32 →
      exec (.bsRead n) s = .next (s.respond .readFail 0 0) ∧ exec (.bsPeek n) s = .next (s.respond .readFail 0 0)) ∧
    (∀ n : Word,
      exec (.bsSkip n) s = .next (s.respond .readFail 0 0) ∧ exec (.bsBack n) s = .next (s.respond .readFail 0 0) ∧
      exec (.bsHas n) s = .next (s.respond .readFail 0 0)) ∧
    exec .bsAlign s = .next (s.respond .readFail 0 0) ∧
    exec .bsAtend s = .next (s.respond .readFail 1 0) ∧
    (∀ u : Byte, u.toNat < 8 → (s.slot u.toNat).valid = true →
      exec (.hufDecode u) s = .next (s.respond .readFail 0 0)) ∧
    exec .bsErr s = .next (s.respond .ok 1 0) ∧
    exec .bsTell s = .next (s.respond .ok s.bs.pos 0))

/-- R16, R71: no command shows the hidden buffers: two states that differ only there, both coherent, answer every
command alike and again differ only there. -/
def Obligations.HiddenBuffersUnobservable : Prop :=
  ∀ (i : Instr) (s u t : State), s.params.Legal → SameButBuffers s u → s.BuffersOk → u.BuffersOk → s.StreamOk →
    exec i s = .next t → ∃ v, exec i u = .next v ∧ SameButBuffers t v

/-! ### CRC32 unit -/

/-- R92, R94: `CRC.SEED` starts or continues a checksum, `CRC.GET` reads it; seeding with a value read earlier
restores the register it was read from. -/
def Obligations.CrcSeedAndGet : Prop :=
  EncodedAs .crcGet 0x22 .n ∧
  ∀ (value : Word) (s : State),
    EncodedAs (.crcSeed value) 0x20 .a ∧
    exec (.crcSeed value) s =
      .next ((s.setCrc (value ^^^ 0xFFFFFFFF#32)).respond .ok (value.setWidth 64) 0) ∧
    exec .crcGet s = .next (s.respond .ok ((s.crc.reg ^^^ 0xFFFFFFFF#32).setWidth 64) 0) ∧
    ∀ u t : State, exec (.crcSeed (s.crc.reg ^^^ 0xFFFFFFFF#32)) u = .next t → t.crc.reg = s.crc.reg

/-- R93, R34: `CRC.UPD` feeds the low `count` bytes, least significant first, and ignores the bits above them; a
count outside 1 to 4 is `BadCommand`. -/
def Obligations.CrcUpdFeedsLowBytes : Prop :=
  ∀ (count : Byte) (data : Word) (s : State),
    EncodedAs (.crcUpd count data) 0x21 .ta ∧
    (count.toNat < 1 ∨ 4 < count.toNat → exec (.crcUpd count data) s = .next (s.respond .badCommand 0 0)) ∧
    (count = 1 →
      ∃ reg, reg = crcStep s.crc.reg (data.setWidth 8) ∧
        exec (.crcUpd count data) s =
          .next ((s.setCrc reg).respond .ok ((reg ^^^ 0xFFFFFFFF#32).setWidth 64) 0)) ∧
    (2 ≤ count.toNat → count.toNat ≤ 4 →
      ∃ t u, exec (.crcUpd 1 data) s = .next t ∧ exec (.crcUpd (count - 1) (data >>> 8)) t = .next u ∧
        exec (.crcUpd count data) s = .next u)

/-- R95, R96: `CRC.UPDO` and `CRC.UPDF` feed a range of OUT or FMEM in increasing order; a range that leaves it, or a
discarding buffer, is `BadCommand` and leaves the register. -/
def Obligations.CrcUpdoAndUpdfFeedRanges : Prop :=
  ∀ (off len : Word) (s : State),
    EncodedAs (.crcUpdo off len) 0x23 .ab ∧ EncodedAs (.crcUpdf off len) 0x24 .ab ∧
    (s.lz.outDiscard = true ∨ s.lz.outLen.toNat < off.toNat + len.toNat →
      exec (.crcUpdo off len) s = .next (s.respond .badCommand 0 0)) ∧
    (s.lz.outDiscard = false → off.toNat + len.toNat ≤ s.lz.outLen.toNat →
      ∃ reg,
        reg = (List.range len.toNat).foldl (fun r j => crcStep r (s.lz.out.read (off.toNat + j))) s.crc.reg ∧
        exec (.crcUpdo off len) s =
          .next ((s.setCrc reg).respond .ok ((reg ^^^ 0xFFFFFFFF#32).setWidth 64) 0)) ∧
    (s.params.fltMemSize < off.toNat + len.toNat →
      exec (.crcUpdf off len) s = .next (s.respond .badCommand 0 0)) ∧
    (off.toNat + len.toNat ≤ s.params.fltMemSize →
      ∃ reg,
        reg = (List.range len.toNat).foldl (fun r j => crcStep r (s.flt.mem.read (off.toNat + j))) s.crc.reg ∧
        exec (.crcUpdf off len) s =
          .next ((s.setCrc reg).respond .ok ((reg ^^^ 0xFFFFFFFF#32).setWidth 64) 0))

/-- R90, R91: the table-driven byte step equals eight rounds of the bit-serial division on the register with the byte
mixed in. -/
def Obligations.CrcTableStepIsEightRounds : Prop :=
  ∀ (reg : Word) (b : Byte), crcStep reg b = crcRounds 8 (reg ^^^ b.setWidth 32)

/-! ### Huffman unit -/

/-- R104: `HUF.STAGE` writes one entry and no other; an index or length out of range is `BadCommand`. -/
def Obligations.HufStageWritesOneEntry : Prop :=
  ∀ (index : Half) (length : Byte) (code symbol : Word) (s : State),
    EncodedAs (.hufStage index length code symbol) 0x30 .tiab ∧
    (s.params.hufStageSize ≤ index.toNat ∨ 31 < length.toNat →
      exec (.hufStage index length code symbol) s = .next (s.respond .badCommand 0 0)) ∧
    (Cells.Wf StageEntry.zero s.huf.stage → index.toNat < s.params.hufStageSize → length.toNat ≤ 31 →
      ∃ st, exec (.hufStage index length code symbol) s = .next ((s.setStage st).respond .ok 0 0) ∧
        ∀ j, Cells.read StageEntry.zero st j =
          if j = index.toNat then ⟨length, code, symbol⟩ else Cells.read StageEntry.zero s.huf.stage j)

/-- R105, R107, R108: what a build answers and leaves. Operands out of range, and for `HUF.BUILDC` a staged length of 0
or above `maxlen`, are `BadCommand` and change nothing. Otherwise the slot is replaced by the built tree, its depth and
its table, or left invalid with the failing status; nothing else changes. -/
def Obligations.BuildsReplaceTheSlot : Prop :=
  ∀ (slot : Byte) (count : Half) (maxlen : Word) (s : State),
    (EncodedAs (.hufBuildl slot count maxlen) 0x31 .tia ∧ EncodedAs (.hufBuildc slot count maxlen) 0x32 .tia) ∧
    (8 ≤ slot.toNat ∨ s.params.hufStageSize < count.toNat ∨ maxlen.toNat < 1 ∨ 31 < maxlen.toNat →
      exec (.hufBuildl slot count maxlen) s = .next (s.respond .badCommand 0 0) ∧
      exec (.hufBuildc slot count maxlen) s = .next (s.respond .badCommand 0 0)) ∧
    (∀ j, j < count.toNat →
      (Cells.read StageEntry.zero s.huf.stage j).length.toNat < 1 ∨
        maxlen.toNat < (Cells.read StageEntry.zero s.huf.stage j).length.toNat →
      exec (.hufBuildc slot count maxlen) s = .next (s.respond .badCommand 0 0)) ∧
    (s.params.Legal → slot.toNat < 8 → count.toNat ≤ s.params.hufStageSize → 1 ≤ maxlen.toNat → maxlen.toNat ≤ 31 →
      ∀ (i : Instr) (r : Except Status (List Node)),
        (i = .hufBuildl slot count maxlen ∧
          r = canonicalBuild s.params.hufNodeCap (stagedEntries s.huf.stage count.toNat) maxlen.toNat) ∨
        (i = .hufBuildc slot count maxlen ∧
          (∀ j, j < count.toNat →
            1 ≤ (Cells.read StageEntry.zero s.huf.stage j).length.toNat ∧
            (Cells.read StageEntry.zero s.huf.stage j).length.toNat ≤ maxlen.toNat) ∧
          r = explicitBuild s.params.hufNodeCap (stagedEntries s.huf.stage count.toNat)) →
        (∀ st, r = .error st →
          ∃ h : Slot, exec i s = .next ((s.setSlot slot.toNat h).respond st 0 0) ∧
            h.valid = false ∧ h.maxLen = 0 ∧ h.depth = 0 ∧ h.nNodes = 0) ∧
        (∀ ns, r = .ok ns →
          ∃ h : Slot,
            exec i s =
              .next
                ((s.setSlot slot.toNat h).respond .ok (BitVec.ofNat 64 ns.length)
                  (BitVec.ofNat 32 (min maxlen.toNat s.params.tableDepth))) ∧
            h.valid = true ∧ h.maxLen.toNat = maxlen.toNat ∧
            h.depth.toNat = min maxlen.toNat s.params.tableDepth ∧ h.nNodes.toNat = ns.length ∧ h.node = ns ∧
            h.table.length = 2 ^ h.depth.toNat))

/-- R102: with room for `1 + 31*HUF_STAGE_SIZE` nodes, as in the default build, no build answers `AllocFail`. -/
def Obligations.BuildsNeverRunOutOfNodes : Prop :=
  ∀ (i : Instr) (s t : State), 1 + 31 * s.params.hufStageSize ≤ s.params.hufNodeCap →
    exec i s = .next t → t.rsp.status ≠ .allocFail

/-- R100, R103, R109: every outcome of `HUF.DECODE`. A slot out of range, an invalid slot, no open stream and the sticky
error are answered before the stream is read. Otherwise the command answers what a bit-by-bit walk of the slot's tree
finds, whatever the lookup table's depth `d` (corner case (e)): the symbol; `HuffInvalidCode` at an unset branch, keeping
the bits of a walk beyond the table; `ReadFail` where the stream ends first, or an unset branch is met with fewer than
`d` bits left (corner case (b)), the bits staying unless the table stage passed. -/
def Obligations.DecodeEqualsTreeWalk : Prop :=
  ∀ (u : Byte) (s : State),
    EncodedAs (.hufDecode u) 0x33 .t ∧
    (8 ≤ u.toNat → exec (.hufDecode u) s = .next (s.respond .badCommand 0 0)) ∧
    (u.toNat < 8 → (s.slot u.toNat).valid = false ∨ s.bs.isOpen = false →
      exec (.hufDecode u) s = .next (s.respond .notReady 0 0)) ∧
    (u.toNat < 8 → (s.slot u.toNat).valid = true → s.bs.isOpen = true → s.bs.err = true →
      exec (.hufDecode u) s = .next (s.respond .readFail 0 0)) ∧
    (s.Inv → u.toNat < 8 → (s.slot u.toNat).valid = true → s.bs.isOpen = true → s.bs.err = false →
      ∀ d, d = (s.slot u.toNat).depth.toNat →
        (∀ sym used, s.walk u.toNat = .leaf sym used →
          ∃ v, SameButBuffers s v ∧
            exec (.hufDecode u) s =
              .next
                ((v.setBs { v.bs with pos := BitVec.ofNat 64 (s.bs.pos.toNat + used) }).respond .ok
                  (sym.setWidth 64) (BitVec.ofNat 32 used))) ∧
        (∀ used, s.walk u.toNat = .unset used → d ≤ s.remaining →
          ∃ v, SameButBuffers s v ∧
            exec (.hufDecode u) s =
              .next
                ((v.setBs
                  { v.bs with pos := BitVec.ofNat 64 (s.bs.pos.toNat + if used ≤ d then 0 else used) }).respond
                  .huffInvalidCode 0 0)) ∧
        ((∃ used, s.walk u.toNat = .unset used) → s.remaining < d →
          ∃ v, SameButBuffers s v ∧
            exec (.hufDecode u) s = .next ((v.setBs { v.bs with err := true }).respond .readFail 0 0)) ∧
        (s.walk u.toNat = .outOfBits →
          ∃ v, SameButBuffers s v ∧
            exec (.hufDecode u) s =
              .next
                ((v.setBs
                  { v.bs with
                    err := true
                    pos := BitVec.ofNat 64 (if s.remaining < d then s.bs.pos.toNat else s.bitlen) }).respond
                  .readFail 0 0)))

/-- 95_test_vectors.md S3, from R106, R107 and R109: after a successful `HUF.BUILDC`, wherever the stream holds the
code of a staged entry, `HUF.DECODE` answers that entry's symbol and length. -/
def Obligations.ExplicitCodesRoundTrip : Prop :=
  ∀ (slot : Byte) (count : Half) (maxlen : Word) (s t u : State), s.params.Legal →
    exec (.hufBuildc slot count maxlen) s = .next t → t.rsp.status = .ok →
    u.slot slot.toNat = t.slot slot.toNat → u.params.Legal → u.BuffersOk → u.StreamOk →
    u.bs.isOpen = true → u.bs.err = false →
    ∀ j e, j < count.toNat → e = Cells.read StageEntry.zero s.huf.stage j →
      e.length.toNat ≤ u.remaining →
      u.bits u.bs.pos.toNat e.length.toNat = e.code.toNat % 2 ^ e.length.toNat →
      ∃ v, SameButBuffers u v ∧
        exec (.hufDecode slot) u =
          .next
            ((v.setBs { v.bs with pos := BitVec.ofNat 64 (u.bs.pos.toNat + e.length.toNat) }).respond .ok
              (e.symbol.setWidth 64) (e.length.setWidth 32))

/-- R105, R109: after a successful `HUF.BUILDL`, every staged entry with a length from 1 to `maxlen` has the canonical code
of R105, which fits its length (so lengths that over-subscribe the code space never build), and wherever the stream holds
that code `HUF.DECODE` answers the entry's index and length. -/
def Obligations.CanonicalCodesRoundTrip : Prop :=
  ∀ (slot : Byte) (count : Half) (maxlen : Word) (s t : State), s.params.Legal →
    exec (.hufBuildl slot count maxlen) s = .next t → t.rsp.status = .ok →
    ∀ len : Nat → Nat, (∀ j, len j = (Cells.read StageEntry.zero s.huf.stage j).length.toNat) →
    ∀ j, j < count.toNat → 1 ≤ len j → len j ≤ maxlen.toNat →
      canonicalCode len count.toNat j < 2 ^ len j ∧
      ∀ u : State, u.slot slot.toNat = t.slot slot.toNat → u.params.Legal → u.BuffersOk → u.StreamOk →
        u.bs.isOpen = true → u.bs.err = false → len j ≤ u.remaining →
        u.bits u.bs.pos.toNat (len j) = canonicalCode len count.toNat j →
        ∃ v, SameButBuffers u v ∧
          exec (.hufDecode slot) u =
            .next
              ((v.setBs { v.bs with pos := BitVec.ofNat 64 (u.bs.pos.toNat + len j) }).respond .ok
                (BitVec.ofNat 64 j) (BitVec.ofNat 32 (len j)))

/-- R110, R111, R112: `HUF.FREE` and the two readers, in the order of their checks. -/
def Obligations.HufFreeAndReaders : Prop :=
  ∀ (slot : Byte) (index : Word) (s : State),
    EncodedAs (.hufFree slot) 0x34 .t ∧ EncodedAs (.hufRdtab slot index) 0x35 .ta ∧
    EncodedAs (.hufRdnode slot index) 0x36 .ta ∧
    (8 ≤ slot.toNat →
      exec (.hufFree slot) s = .next (s.respond .badCommand 0 0) ∧
      exec (.hufRdtab slot index) s = .next (s.respond .badCommand 0 0) ∧
      exec (.hufRdnode slot index) s = .next (s.respond .badCommand 0 0)) ∧
    (slot.toNat < 8 →
      (∃ h : Slot, exec (.hufFree slot) s = .next ((s.setSlot slot.toNat h).respond .ok 0 0) ∧
        h.valid = false ∧ h.maxLen = 0 ∧ h.depth = 0 ∧ h.nNodes = 0) ∧
      (s.SlotsOk → (s.slot slot.toNat).valid = false → exec (.hufFree slot) s = .next (s.respond .ok 0 0)) ∧
      ((s.slot slot.toNat).valid = false →
        exec (.hufRdtab slot index) s = .next (s.respond .notReady 0 0) ∧
        exec (.hufRdnode slot index) s = .next (s.respond .notReady 0 0)) ∧
      ((s.slot slot.toNat).valid = true →
        (2 ^ (s.slot slot.toNat).depth.toNat ≤ index.toNat →
          exec (.hufRdtab slot index) s = .next (s.respond .badCommand 0 0)) ∧
        ((s.slot slot.toNat).nNodes.toNat ≤ index.toNat →
          exec (.hufRdnode slot index) s = .next (s.respond .badCommand 0 0)) ∧
        (index.toNat < 2 ^ (s.slot slot.toNat).depth.toNat →
          ∀ e, (s.slot slot.toNat).table[index.toNat]? = some e →
            exec (.hufRdtab slot index) s = .next (s.respond .ok (e.setWidth 64) 0)) ∧
        (index.toNat < (s.slot slot.toNat).nNodes.toNat →
          ∀ nd, (s.slot slot.toNat).node[index.toNat]? = some nd →
            exec (.hufRdnode slot index) s = .next (s.respond .ok (nd.b0.setWidth 64) nd.b1))))

/-! ### LZSS unit -/

/-- R122, R123: `LZ.INIT` makes a zero-filled window and drops the overhang, leaving the output buffer;
`LZ.SETOUT` makes an empty output buffer, leaving window and overhang. -/
def Obligations.LzInitAndSetout : Prop :=
  ∀ (k flags : Byte) (cap : Word) (s : State),
    EncodedAs (.lzInit k) 0x40 .t ∧ EncodedAs (.lzSetout flags cap) 0x41 .ta ∧
    (s.params.winLog2Max < k.toNat → exec (.lzInit k) s = .next (s.respond .badCommand 0 0)) ∧
    (s.params.Legal → k.toNat ≤ s.params.winLog2Max →
      ∃ z : Lz, exec (.lzInit k) s = .next ((s.setLz z).respond .ok 0 0) ∧
        z.init = true ∧ z.k.toNat = k.toNat ∧ (∀ a, z.win.read a = 0) ∧ z.wpos = 0 ∧ z.ovOff = 0 ∧ z.ovLen = 0 ∧
        z.outCap = s.lz.outCap ∧ z.outLen = s.lz.outLen ∧ z.outDiscard = s.lz.outDiscard ∧ z.out = s.lz.out) ∧
    (1 < flags.toNat → exec (.lzSetout flags cap) s = .next (s.respond .badCommand 0 0)) ∧
    (flags.toNat ≤ 1 →
      exec (.lzSetout flags cap) s =
        .next
          ((s.setLz { s.lz with outCap := cap, outLen := 0, outDiscard := decide (flags = 1), out := [] }).respond
            .ok 0 0))

/-- R126, R121: `LZ.LIT` writes one byte to window and output buffer, or fails leaving everything. -/
def Obligations.LzLitEmitsOneByte : Prop :=
  ∀ (b : Byte) (s : State),
    EncodedAs (.lzLit b) 0x42 .t ∧
    (s.lz.init = false → exec (.lzLit b) s = .next (s.respond .notReady 0 0)) ∧
    (s.lz.init = true → s.lz.ovLen ≠ 0 → exec (.lzLit b) s = .next (s.respond .overhangPending 0 0)) ∧
    (s.lz.init = true → s.lz.ovLen = 0 → s.lz.outLen = s.lz.outCap →
      exec (.lzLit b) s = .next (s.respond .outFull 0 0)) ∧
    (s.MemoriesOk → s.lz.init = true → s.lz.ovLen = 0 → s.lz.outLen ≠ s.lz.outCap →
      ∃ z : Lz, exec (.lzLit b) s = .next ((s.setLz z).respond .ok 1 0) ∧
        (∀ a, z.win.read a = if a = s.lz.wpos.toNat % 2 ^ s.lz.k.toNat then b else s.lz.win.read a) ∧
        (∀ a, z.out.read a =
          if s.lz.outDiscard = false ∧ a = s.lz.outLen.toNat then b else s.lz.out.read a) ∧
        z = { s.lz with win := z.win, out := z.out, outLen := s.lz.outLen + 1, wpos := s.lz.wpos + 1 })

/-- R127, R128: what `LZ.COPY` and `LZ.DRAIN` count: as many bytes as the buffer has room for, the rest an
overhang. -/
def Obligations.LzCopyAndDrainCounts : Prop :=
  EncodedAs .lzDrain 0x44 .n ∧
  ∀ (offset length : Word) (s : State),
    EncodedAs (.lzCopy offset length) 0x43 .ab ∧
    (s.lz.init = false →
      exec (.lzCopy offset length) s = .next (s.respond .notReady 0 0) ∧
      exec .lzDrain s = .next (s.respond .notReady 0 0)) ∧
    (s.lz.init = true → s.lz.ovLen ≠ 0 →
      exec (.lzCopy offset length) s = .next (s.respond .overhangPending 0 0)) ∧
    (s.LzOk → s.lz.init = true → s.lz.ovLen = 0 →
      ∀ done left, done = min length.toNat (s.lz.outCap.toNat - s.lz.outLen.toNat) → left = length.toNat - done →
        ∃ z : Lz,
          exec (.lzCopy offset length) s =
            .next ((s.setLz z).respond .ok (BitVec.ofNat 64 done) (BitVec.ofNat 32 left)) ∧
          z =
            { s.lz with
              win := z.win, out := z.out
              outLen := BitVec.ofNat 32 (s.lz.outLen.toNat + done)
              wpos := s.lz.wpos + BitVec.ofNat 64 done
              ovOff := if left = 0 then 0 else offset
              ovLen := BitVec.ofNat 32 left }) ∧
    (s.LzOk → s.lz.init = true →
      ∀ done left, done = min s.lz.ovLen.toNat (s.lz.outCap.toNat - s.lz.outLen.toNat) →
        left = s.lz.ovLen.toNat - done →
        ∃ z : Lz,
          exec .lzDrain s = .next ((s.setLz z).respond .ok (BitVec.ofNat 64 done) (BitVec.ofNat 32 left)) ∧
          z =
            { s.lz with
              win := z.win, out := z.out
              outLen := BitVec.ofNat 32 (s.lz.outLen.toNat + done)
              wpos := s.lz.wpos + BitVec.ofNat 64 done
              ovOff := if left = 0 then 0 else s.lz.ovOff
              ovLen := BitVec.ofNat 32 left })

/-- R124, R125: the bytes `LZ.COPY` and `LZ.DRAIN` emit, in a storing and in a discarding buffer, all at once or up to
the buffer's end. They repeat the window as it was with the period of the offset (overlapping copies replicate); a
storing buffer gets them behind its bytes, which stay, a discarding one none; the window's last cells hold the bytes
emitted last, and every cell no byte was emitted to stays. -/
def Obligations.CopiesRepeatPeriodically : Prop :=
  ∀ (i : Instr) (offset length : Word) (s t : State), s.MemoriesOk → s.lz.init = true →
    (i = .lzCopy offset length ∧ s.lz.ovLen = 0) ∨ (i = .lzDrain ∧ offset = s.lz.ovOff) →
    exec i s = .next t →
    (∀ m, m < t.rsp.r0.toNat → s.lz.outDiscard = false →
      t.lz.out.read (s.lz.outLen.toNat + m) = copiedByte s.lz offset m) ∧
    (∀ a, s.lz.outDiscard = true ∨ a < s.lz.outLen.toNat ∨ s.lz.outLen.toNat + t.rsp.r0.toNat ≤ a →
      t.lz.out.read a = s.lz.out.read a) ∧
    (∀ m, m < t.rsp.r0.toNat → t.rsp.r0.toNat ≤ m + 2 ^ s.lz.k.toNat →
      t.lz.win.read ((s.lz.wpos + BitVec.ofNat 64 m).toNat % 2 ^ s.lz.k.toNat) = copiedByte s.lz offset m) ∧
    (∀ a, (∀ m, m < t.rsp.r0.toNat → a ≠ (s.lz.wpos + BitVec.ofNat 64 m).toNat % 2 ^ s.lz.k.toNat) →
      t.lz.win.read a = s.lz.win.read a)

/-- 95_test_vectors.md S2, R128, R187: a copy cut by the end of its buffer and drained into a second one leaves the
window and the position that one buffer with room for all would have got, storing or discarding, and, where both store,
buffer after buffer its bytes. -/
def Obligations.ChunkingInvariance : Prop :=
  ∀ (offset length cap cap2 : Word) (flags : Byte) (s a b c d : State), s.MemoriesOk → s.LzOk → flags.toNat ≤ 1 →
    s.lz.outLen.toNat + length.toNat ≤ cap.toNat →
    exec (.lzCopy offset length) (s.setLz { s.lz with outCap := cap }) = .next d → d.rsp.status = .ok →
    exec (.lzCopy offset length) s = .next a → exec (.lzSetout flags cap2) a = .next b → exec .lzDrain b = .next c →
    c.lz.ovLen = 0 →
    c.lz.win = d.lz.win ∧ c.lz.wpos = d.lz.wpos ∧ d.lz.ovLen = 0 ∧
    c.lz.outLen.toNat = a.rsp.r1.toNat ∧
    (s.lz.outDiscard = false → flags = 0 → ∀ m, m < length.toNat →
      d.lz.out.read (s.lz.outLen.toNat + m) =
        if m < a.rsp.r0.toNat then a.lz.out.read (s.lz.outLen.toNat + m) else c.lz.out.read (m - a.rsp.r0.toNat))

/-- R129 to R133: the readers of the LZSS unit; `LZ.WINRD n` returns what the first byte of `LZ.COPY n, 1` would
be. -/
def Obligations.LzReaders : Prop :=
  EncodedAs .lzHasov 0x45 .n ∧ EncodedAs .lzOutlen 0x46 .n ∧ EncodedAs .lzTell 0x48 .n ∧
  ∀ (index offset : Word) (s : State),
    EncodedAs (.lzOutrd index) 0x47 .a ∧ EncodedAs (.lzWinrd offset) 0x49 .a ∧
    exec .lzHasov s = .next (s.respond .ok (if s.lz.ovLen ≠ 0 then 1 else 0) s.lz.ovLen) ∧
    exec .lzOutlen s = .next (s.respond .ok (s.lz.outLen.setWidth 64) s.lz.outCap) ∧
    exec .lzTell s = .next (s.respond .ok s.lz.wpos 0) ∧
    (s.lz.outDiscard = true ∨ s.lz.outLen.toNat ≤ index.toNat →
      exec (.lzOutrd index) s = .next (s.respond .badCommand 0 0)) ∧
    (s.lz.outDiscard = false → index.toNat < s.lz.outLen.toNat →
      exec (.lzOutrd index) s = .next (s.respond .ok ((s.lz.out.read index.toNat).setWidth 64) 0)) ∧
    (s.lz.init = false → exec (.lzWinrd offset) s = .next (s.respond .notReady 0 0)) ∧
    (s.lz.init = true →
      exec (.lzWinrd offset) s =
        .next
          (s.respond .ok
            ((s.lz.win.read ((s.lz.wpos - offset.setWidth 64).toNat % 2 ^ s.lz.k.toNat)).setWidth 64) 0)) ∧
    (∀ t, s.MemoriesOk → s.lz.init = true → s.lz.outDiscard = false → exec (.lzCopy offset 1) s = .next t →
      t.rsp.r0 = 1 →
      exec (.lzWinrd offset) s = .next (s.respond .ok ((t.lz.out.read s.lz.outLen.toNat).setWidth 64) 0))

/-! ### Filter unit -/

/-- R143, R144: byte access to FMEM. -/
def Obligations.FltByteAccess : Prop :=
  ∀ (addr : Word) (b : Byte) (s : State),
    EncodedAs (.fltWr addr b) 0x50 .ta ∧ EncodedAs (.fltRd addr) 0x51 .a ∧
    (s.params.fltMemSize ≤ addr.toNat →
      exec (.fltWr addr b) s = .next (s.respond .badCommand 0 0) ∧
      exec (.fltRd addr) s = .next (s.respond .badCommand 0 0)) ∧
    (addr.toNat < s.params.fltMemSize →
      exec (.fltRd addr) s = .next (s.respond .ok ((s.flt.mem.read addr.toNat).setWidth 64) 0)) ∧
    (s.MemoriesOk → addr.toNat < s.params.fltMemSize →
      ∃ m, exec (.fltWr addr b) s = .next ((s.setFmem m).respond .ok 0 0) ∧
        ∀ a, m.read a = if a = addr.toNat then b else s.flt.mem.read a)

/-- R142: the order of checks and the bounds of the six transforms; one that fails leaves `mem` untouched. -/
def Obligations.FilterBounds : Prop :=
  ∀ (pos len c : Word) (r : Byte) (s : State),
    (c = 0 →
      exec (.fltDelta pos len c) s = .next (s.respond .badCommand 0 0) ∧
      exec (.fltAudio pos len c) s = .next (s.respond .badCommand 0 0)) ∧
    (c ≠ 0 → s.params.fltMemSize / 2 < len.toNat →
      exec (.fltDelta pos len c) s = .next (s.respond .filtersInvalidLength 0 0) ∧
      exec (.fltAudio pos len c) s = .next (s.respond .filtersInvalidLength 0 0)) ∧
    (2 < r.toNat → exec (.fltRgb pos len c r) s = .next (s.respond .badCommand 0 0)) ∧
    (r.toNat ≤ 2 → s.params.fltMemSize / 2 < len.toNat ∨ c.toNat < 3 ∨ len.toNat < c.toNat →
      exec (.fltRgb pos len c r) s = .next (s.respond .filtersInvalidLength 0 0)) ∧
    ∀ i : Instr, i = .fltX86 pos len ∨ i = .fltX86e9 pos len ∨ i = .fltArm pos len →
      (s.params.fltMemSize < len.toNat ∨ len.toNat < 4 →
        exec i s = .next (s.respond .filtersInvalidLength 0 0)) ∧
      (len.toNat ≤ s.params.fltMemSize → 4 ≤ len.toNat → 0x80000000 < pos.toNat + len.toNat →
        exec i s = .next (s.respond .filtersInvalidFilePosition 0 0))

/-- R140, R142: the three predictive transforms within their bounds answer `n, n`, write only their output slice
`mem[n .. 2n-1]` and leave everything else, the input slice too. -/
def Obligations.PredictiveTransformsWriteTheirOutputSlice : Prop :=
  ∀ (pos len c : Word) (r : Byte) (s : State),
    (EncodedAs (.fltDelta pos len c) 0x52 .abc ∧ EncodedAs (.fltAudio pos len c) 0x53 .abc ∧
      EncodedAs (.fltRgb pos len c r) 0x54 .tabc) ∧
    ∀ i : Instr,
      (c ≠ 0 ∧ (i = .fltDelta pos len c ∨ i = .fltAudio pos len c)) ∨
      (i = .fltRgb pos len c r ∧ r.toNat ≤ 2 ∧ 3 ≤ c.toNat ∧ c.toNat ≤ len.toNat) →
      len.toNat ≤ s.params.fltMemSize / 2 →
      ∃ m, exec i s = .next ((s.setFmem m).respond .ok (len.setWidth 64) len) ∧
        ∀ a, a < len.toNat ∨ 2 * len.toNat ≤ a → m.read a = s.flt.mem.read a

/-- R145: byte `k` of channel `c` of the delta transform's output is minus the sum of the channel's first `k + 1`
input bytes, modulo 256. -/
def Obligations.DeltaOutputsAreNegatedSums : Prop :=
  ∀ (pos len channels : Word) (s : State), s.flt.mem.Wf → channels ≠ 0 → len.toNat ≤ s.params.fltMemSize / 2 →
    ∃ m, exec (.fltDelta pos len channels) s = .next ((s.setFmem m).respond .ok (len.setWidth 64) len) ∧
      ∀ c k, c < channels.toNat → k < channelSamples len.toNat channels.toNat c →
        m.read (len.toNat + (c + k * channels.toNat)) =
          0 - byteSum s.flt.mem (channelStart len.toNat channels.toNat c) k

/-- R146: byte `k` of channel `c` of the audio transform's output is the byte the channel's predictor makes of the
channel's first `k + 1` input bytes, starting fresh. -/
def Obligations.AudioOutputsFollowThePredictor : Prop :=
  ∀ (pos len channels : Word) (s : State), s.flt.mem.Wf → channels ≠ 0 → len.toNat ≤ s.params.fltMemSize / 2 →
    ∃ m, exec (.fltAudio pos len channels) s = .next ((s.setFmem m).respond .ok (len.setWidth 64) len) ∧
      ∀ c k, c < channels.toNat → k < channelSamples len.toNat channels.toNat c →
        m.read (len.toNat + (c + k * channels.toNat)) =
          (audioAfter (s.flt.mem.bytes (channelStart len.toNat channels.toNat c) (k + 1))).prev

/-- R141: the audio predictor's variables stay within the ranges the rule gives, so 32-bit signed arithmetic gives the
same results. -/
def Obligations.AudioVariablesStayInRange : Prop :=
  ∀ samples : List Byte,
    let a := audioAfter samples
    (a.k1.natAbs ≤ 17 ∧ a.k2.natAbs ≤ 17 ∧ a.k3.natAbs ≤ 17) ∧
    (a.d1.natAbs ≤ 255 ∧ a.d2.natAbs ≤ 255 ∧ a.d3.natAbs ≤ 255) ∧
    (∀ x ∈ a.dif, x ≤ 32 * 1279) ∧ ∀ cur : Byte, (8 * cur.toInt).natAbs ≤ 1024

/-- R147 corner case (b): where the slice is one row, the planes are predicted from the left only, so the colour
transform is the delta transform of three channels followed by adding the middle component. -/
def Obligations.OneRowRgbIsThreeChannelDelta : Prop :=
  ∀ (pos len : Word) (posr : Byte) (s t : State), 3 ≤ len.toNat → len.toNat ≤ s.params.fltMemSize / 2 →
    posr.toNat ≤ 2 → exec (.fltDelta pos len 3) s = .next t →
    ∃ m, exec (.fltRgb pos len len posr) s = .next ((s.setFmem m).respond .ok (len.setWidth 64) len) ∧
      m = (loopWhile (fun im => im.1 + 2 < len.toNat) (rgbAddStep len.toNat) len.toNat
        (posr.toNat, t.flt.mem)).2

/-- R147: every output byte of the colour transform, for every row length: the planes' predictions, on a slice of one row
or of several, whether or not the neighbours lie in planes already made, and then the middle component. -/
def Obligations.RgbOutputsFollowThePrediction : Prop :=
  ∀ (pos len stride : Word) (posr : Byte) (s : State), s.flt.mem.Wf → len.toNat ≤ s.params.fltMemSize / 2 →
    3 ≤ stride.toNat → stride.toNat ≤ len.toNat → posr.toNat ≤ 2 →
    ∃ m q, exec (.fltRgb pos len stride posr) s = .next ((s.setFmem m).respond .ok (len.setWidth 64) len) ∧
      RgbPlanes len.toNat stride.toNat s.flt.mem q ∧
      ∀ i, i < len.toNat → m.read (len.toNat + i) = rgbOutput len.toNat posr.toNat q i

/-- R148, R150: the x86 transforms within their bounds answer `0, n`; each operand the scan finds is rewritten as the
rule says, and every other byte is untouched. -/
def Obligations.X86TransformsRewriteOperands : Prop :=
  (∀ pos len, EncodedAs (.fltX86 pos len) 0x55 .ab ∧ EncodedAs (.fltX86e9 pos len) 0x56 .ab) ∧
  ∀ (pos len : Word) (s : State), s.flt.mem.Wf → len.toNat ≤ s.params.fltMemSize → 4 ≤ len.toNat →
    pos.toNat + len.toNat ≤ 0x80000000 →
    (∃ m, exec (.fltX86 pos len) s = .next ((s.setFmem m).respond .ok 0 len) ∧
      X86Result (fun b => b == 0xE8#8) pos.toNat len.toNat s.flt.mem m) ∧
    (∃ m, exec (.fltX86e9 pos len) s = .next ((s.setFmem m).respond .ok 0 len) ∧
      X86Result (fun b => b == 0xE8#8 || b == 0xE9#8) pos.toNat len.toNat s.flt.mem m)

/-- R149: the ARM transform within its bounds: each whole word of the slice whose top byte is `EB` has its 24-bit
offset reduced by `(pos + i) div 4`; every other byte is untouched. -/
def Obligations.ArmTransformRebasesBranches : Prop :=
  (∀ pos len, EncodedAs (.fltArm pos len) 0x57 .ab) ∧
  ∀ (pos len : Word) (s : State), s.flt.mem.Wf → len.toNat ≤ s.params.fltMemSize → 4 ≤ len.toNat →
    pos.toNat + len.toNat ≤ 0x80000000 →
    ∃ m, exec (.fltArm pos len) s = .next ((s.setFmem m).respond .ok 0 len) ∧
      (∀ j, 4 * j + 4 ≤ len.toNat → s.flt.mem.read (4 * j + 3) = 0xEB#8 →
        (read24 m (4 * j) + (pos.toNat + 4 * j) / 4) % 2 ^ 24 = read24 s.flt.mem (4 * j)) ∧
      (∀ a, ¬ (4 * (a / 4) + 4 ≤ len.toNat ∧ a % 4 < 3 ∧ s.flt.mem.read (4 * (a / 4) + 3) = 0xEB#8) →
        m.read a = s.flt.mem.read a)
end

