-- ==== Sys2Proof/Laws/Cells.lean ====
section
/-! SUPPORT. The laws of the cell lists and of the byte spaces: a read after a write, and that every memory
operation keeps the canonical form and the bound on addresses. -/

namespace Sys2Proof.Machine

section Cells

variable {α : Type}

@[simp] theorem Cells.read_nil (d : α) (x : Nat) : Cells.read d [] x = d := rfl

theorem Cells.read_cons (d : α) (a : Nat) (u : α) (m : List (Nat × α)) (x : Nat) :
    Cells.read d ((a, u) :: m) x = if x = a then u else Cells.read d m x := rfl

/-- A cell below every listed address reads as the default. -/
theorem Cells.read_of_lt (d : α) (m : List (Nat × α)) (x : Nat) (h : ∀ c ∈ m, x < c.1) :
    Cells.read d m x = d := by
  induction m with
  | nil => rfl
  | cons c m ih =>
    obtain ⟨a, u⟩ := c
    have ha : x < a := h (a, u) (by simp)
    rw [Cells.read_cons, if_neg (by omega)]
    exact ih fun c hc => h c (by simp [hc])

/-- A cell at or beyond a bound on the listed addresses reads as the default. -/
theorem Cells.read_of_le (d : α) (m : List (Nat × α)) (n x : Nat) (h : ∀ c ∈ m, c.1 < n) (hx : n ≤ x) :
    Cells.read d m x = d := by
  induction m with
  | nil => rfl
  | cons c m ih =>
    obtain ⟨a, u⟩ := c
    have ha : a < n := h (a, u) (by simp)
    rw [Cells.read_cons, if_neg (by omega)]
    exact ih fun c hc => h c (by simp [hc])

variable [DecidableEq α]

/-- A write leaves every other cell alone. -/
theorem Cells.read_write_ne (d : α) (m : List (Nat × α)) (x y : Nat) (v : α) (h : y ≠ x) :
    Cells.read d (Cells.write d m x v) y = Cells.read d m y := by
  induction m with
  | nil => simp only [Cells.write]; split <;> simp [Cells.read_cons, h]
  | cons c m ih =>
    obtain ⟨a, u⟩ := c
    simp only [Cells.write]
    split
    · split <;> simp [Cells.read_cons, h]
    · split
      · rename_i hx; subst hx
        split <;> simp [Cells.read_cons, h]
      · simp [Cells.read_cons, ih]

/-- A read after a write of the same cell gives the value written. -/
theorem Cells.read_write_same (d : α) (m : List (Nat × α)) (x : Nat) (v : α) (hm : Cells.Wf d m) :
    Cells.read d (Cells.write d m x v) x = v := by
  induction m with
  | nil => simp only [Cells.write]; split <;> simp_all [Cells.read_cons]
  | cons c m ih =>
    obtain ⟨a, u⟩ := c
    obtain ⟨hp, hd⟩ := hm
    rw [List.pairwise_cons] at hp
    have below : ∀ {y}, y ≤ a → Cells.read d m y = d := fun hy =>
      Cells.read_of_lt d m _ fun c hc => by have := hp.1 c hc; simp only at this; omega
    simp only [Cells.write]
    split
    · rename_i hlt
      split
      · rename_i hv
        rw [Cells.read_cons, if_neg (by omega), below (by omega), hv]
      · simp [Cells.read_cons]
    · split
      · rename_i hx; subst hx
        split
        · rename_i hv; rw [below (le_refl _), hv]
        · simp [Cells.read_cons]
      · rename_i h1 h2
        rw [Cells.read_cons, if_neg (by omega)]
        exact ih ⟨hp.2, fun c hc => hd c (by simp [hc])⟩

/-- A read after a write (canonical memory). -/
theorem Cells.read_write (d : α) (m : List (Nat × α)) (x y : Nat) (v : α) (hm : Cells.Wf d m) :
    Cells.read d (Cells.write d m x v) y = if y = x then v else Cells.read d m y := by
  split
  · rename_i h; subst h; exact Cells.read_write_same d m _ v hm
  · rename_i h; exact Cells.read_write_ne d m x y v h

/-- The addresses a write can list. -/
theorem Cells.mem_write (d : α) (m : List (Nat × α)) (x : Nat) (v : α) (c : Nat × α)
    (h : c ∈ Cells.write d m x v) : c ∈ m ∨ (c = (x, v) ∧ v ≠ d) := by
  induction m with
  | nil => simp only [Cells.write] at h; split at h <;> simp_all
  | cons e m ih =>
    obtain ⟨a, u⟩ := e
    simp only [Cells.write] at h
    split at h
    · split at h
      · exact .inl h
      · rcases List.mem_cons.1 h with h | h
        · exact .inr ⟨h, by assumption⟩
        · exact .inl h
    · split at h
      · split at h
        · exact .inl (List.mem_cons_of_mem _ h)
        · rcases List.mem_cons.1 h with h | h
          · exact .inr ⟨h, by assumption⟩
          · exact .inl (List.mem_cons_of_mem _ h)
      · rcases List.mem_cons.1 h with h | h
        · exact .inl (by simp [h])
        · rcases ih h with h | h
          · exact .inl (List.mem_cons_of_mem _ h)
          · exact .inr h

/-- A write keeps the canonical form. -/
theorem Cells.write_wf (d : α) (m : List (Nat × α)) (x : Nat) (v : α) (hm : Cells.Wf d m) :
    Cells.Wf d (Cells.write d m x v) := by
  refine ⟨?_, fun c hc => ?_⟩
  · induction m with
    | nil => simp only [Cells.write]; split <;> simp
    | cons e m ih =>
      obtain ⟨a, u⟩ := e
      obtain ⟨hp, hd⟩ := hm
      have hp' := List.pairwise_cons.1 hp
      simp only [Cells.write]
      split
      · split
        · exact hp
        · refine List.pairwise_cons.2 ⟨fun c hc => ?_, hp⟩
          rcases List.mem_cons.1 hc with hc | hc
          · subst hc; assumption
          · have := hp'.1 c hc; simp only at this ⊢; omega
      · split
        · rename_i hx; subst hx
          split
          · exact hp'.2
          · exact List.pairwise_cons.2 ⟨hp'.1, hp'.2⟩
        · refine List.pairwise_cons.2 ⟨fun c hc => ?_, ih ⟨hp'.2, fun c hc => hd c (by simp [hc])⟩⟩
          rcases Cells.mem_write d m x v c hc with hc | hc
          · exact hp'.1 c hc
          · rw [hc.1]; simp only; omega
  · rcases Cells.mem_write d m x v c hc with hc | hc
    · exact hm.2 c hc
    · rw [hc.1]; exact hc.2

omit [DecidableEq α] in
/-- Two canonical memories that read alike are equal. -/
theorem Cells.ext_of_read (d : α) (m m' : List (Nat × α)) (hm : Cells.Wf d m) (hm' : Cells.Wf d m')
    (h : ∀ x, Cells.read d m x = Cells.read d m' x) : m = m' := by
  induction m generalizing m' with
  | nil =>
    cases m' with
    | nil => rfl
    | cons c m' =>
      obtain ⟨a, u⟩ := c
      have h1 := h a
      simp [Cells.read_cons] at h1
      exact absurd h1.symm (hm'.2 (a, u) (by simp))
  | cons c m ih =>
    obtain ⟨a, u⟩ := c
    have hp := List.pairwise_cons.1 hm.1
    have hu : u ≠ d := hm.2 (a, u) (by simp)
    cases m' with
    | nil =>
      have h1 := h a
      simp [Cells.read_cons] at h1
      exact absurd h1 hu
    | cons c' m' =>
      obtain ⟨a', u'⟩ := c'
      have hp' := List.pairwise_cons.1 hm'.1
      have hu' : u' ≠ d := hm'.2 (a', u') (by simp)
      have below : ∀ {y}, y ≤ a → Cells.read d m y = d := fun hy =>
        Cells.read_of_lt d m _ fun c hc => by have := hp.1 c hc; simp only at this; omega
      have below' : ∀ {y}, y ≤ a' → Cells.read d m' y = d := fun hy =>
        Cells.read_of_lt d m' _ fun c hc => by have := hp'.1 c hc; simp only at this; omega
      have hle : a = a' := by
        rcases Nat.lt_trichotomy a a' with hlt | heq | hgt
        · have h1 := h a
          rw [Cells.read_cons, Cells.read_cons, if_pos rfl, if_neg (by omega), below' (by omega)] at h1
          exact absurd h1 hu
        · exact heq
        · have h1 := h a'
          rw [Cells.read_cons, Cells.read_cons, if_pos rfl, if_neg (by omega), below (by omega)] at h1
          exact absurd h1.symm hu'
      subst hle
      have h1 := h a
      rw [Cells.read_cons, Cells.read_cons, if_pos rfl, if_pos rfl] at h1
      subst h1
      rw [ih m' ⟨hp.2, fun c hc => hm.2 c (by simp [hc])⟩ ⟨hp'.2, fun c hc => hm'.2 c (by simp [hc])⟩]
      intro x
      by_cases hx : x = a
      · subst hx; rw [below (le_refl _), below' (le_refl _)]
      · have h2 := h x
        rwa [Cells.read_cons, Cells.read_cons, if_neg hx, if_neg hx] at h2

end Cells

/-! ### Byte spaces -/

@[simp] theorem Mem.read_nil (a : Nat) : Mem.read [] a = 0 := rfl

/-- A read after a write (canonical memory). -/
theorem Mem.read_write (m : Mem) (a x : Nat) (b : Byte) (h : m.Wf) :
    (m.write a b).read x = if x = a then b else m.read x := Cells.read_write 0 m a x b h

/-- A read after a write of the same address (canonical memory). -/
theorem Mem.read_write_same (m : Mem) (a : Nat) (b : Byte) (h : m.Wf) : (m.write a b).read a = b :=
  Cells.read_write_same 0 m a b h

/-- A write leaves every other byte alone. -/
theorem Mem.read_write_ne (m : Mem) (a x : Nat) (b : Byte) (h : x ≠ a) : (m.write a b).read x = m.read x :=
  Cells.read_write_ne 0 m a x b h

/-- A write keeps the canonical form. -/
theorem Mem.write_wf (m : Mem) (a : Nat) (b : Byte) (h : m.Wf) : (m.write a b).Wf := Cells.write_wf 0 m a b h

/-- A write below a bound keeps the bound. -/
theorem Mem.write_below (m : Mem) (a n : Nat) (b : Byte) (h : m.Below n) (ha : a < n) : (m.write a b).Below n := by
  intro c hc
  rcases Cells.mem_write 0 m a b c hc with hc | hc
  · exact h c hc
  · rw [hc.1]; exact ha

/-- A read at or beyond the bound is 0. -/
theorem Mem.read_of_below (m : Mem) (n x : Nat) (h : m.Below n) (hx : n ≤ x) : m.read x = 0 :=
  Cells.read_of_le 0 m n x h hx

/-- A larger bound. -/
theorem Mem.below_mono (m : Mem) (n k : Nat) (h : m.Below n) (hk : n ≤ k) : m.Below k :=
  fun c hc => Nat.lt_of_lt_of_le (h c hc) hk

/-- A read of a slice: the byte behind it, 0 from the slice's length on. -/
theorem Mem.read_slice (m : Mem) (lo len j : Nat) :
    (m.slice lo len).read j = if j < len then m.read (lo + j) else 0 := by
  induction m with
  | nil => simp [Mem.slice, Mem.read]
  | cons c m ih =>
    obtain ⟨a, u⟩ := c
    simp only [Mem.slice, Mem.read, List.filterMap_cons] at ih ⊢
    by_cases h : lo ≤ a ∧ a < lo + len
    · simp only [h, and_self, if_true, Cells.read_cons, ih]
      by_cases hj : j = a - lo
      · have : lo + j = a := by omega
        rw [if_pos hj, if_pos (by omega), if_pos this]
      · have : lo + j ≠ a := by omega
        rw [if_neg hj, if_neg this]
    · rw [if_neg h]
      simp only [Cells.read_cons, ih]
      split
      · rw [if_neg (by omega)]
      · rfl

/-- A slice of a canonical memory is canonical. -/
theorem Mem.slice_wf (m : Mem) (lo len : Nat) (h : m.Wf) : (m.slice lo len).Wf := by
  obtain ⟨hp, hd⟩ := h
  refine ⟨?_, fun c hc => ?_⟩
  · refine List.Pairwise.filterMap _ ?_ hp
    intro c e hce c' hc' e' he'
    simp only [Option.ite_none_right_eq_some, Option.some.injEq] at hc' he'
    obtain ⟨h1, rfl⟩ := hc'
    obtain ⟨h2, rfl⟩ := he'
    simp only
    omega
  · obtain ⟨e, he, hc⟩ := List.mem_filterMap.1 hc
    simp only [Option.ite_none_right_eq_some, Option.some.injEq] at hc
    obtain ⟨-, rfl⟩ := hc
    exact hd e he

/-- A slice lists addresses below its length. -/
theorem Mem.slice_below (m : Mem) (lo len : Nat) : (m.slice lo len).Below len := by
  intro c hc
  obtain ⟨e, -, hc⟩ := List.mem_filterMap.1 hc
  simp only [Option.ite_none_right_eq_some, Option.some.injEq] at hc
  obtain ⟨h1, rfl⟩ := hc
  simp only
  omega

@[simp] theorem Mem.length_bytes (m : Mem) (a n : Nat) : (m.bytes a n).length = n := by simp [Mem.bytes]

/-- Every byte of a 32-bit little-endian write, and no other. -/
theorem Mem.read_writeLE32 (m : Mem) (a x : Nat) (v : Word) (h : m.Wf) :
    (m.writeLE32 a v).read x =
      if x < a ∨ a + 4 ≤ x then m.read x else v.extractLsb' (8 * (x - a)) 8 := by
  have h1 := Mem.write_wf m a (v.extractLsb' 0 8) h
  have h2 := Mem.write_wf _ (a + 1) (v.extractLsb' 8 8) h1
  have h3 := Mem.write_wf _ (a + 2) (v.extractLsb' 16 8) h2
  rw [Mem.writeLE32, Mem.read_write _ _ _ _ h3, Mem.read_write _ _ _ _ h2, Mem.read_write _ _ _ _ h1,
    Mem.read_write _ _ _ _ h]
  split
  · rename_i hx; subst hx; rw [if_neg (by omega), Nat.add_sub_cancel_left]
  · split
    · rename_i hx; subst hx; rw [if_neg (by omega), Nat.add_sub_cancel_left]
    · split
      · rename_i hx; subst hx; rw [if_neg (by omega), Nat.add_sub_cancel_left]
      · split
        · rename_i hx; subst hx; rw [if_neg (by omega), Nat.sub_self]
        · rw [if_pos (by omega)]

/-- A 32-bit write keeps the canonical form. -/
theorem Mem.writeLE32_wf (m : Mem) (a : Nat) (v : Word) (h : m.Wf) : (m.writeLE32 a v).Wf :=
  Mem.write_wf _ _ _ (Mem.write_wf _ _ _ (Mem.write_wf _ _ _ (Mem.write_wf _ _ _ h)))

/-- A 32-bit write below a bound keeps the bound. -/
theorem Mem.writeLE32_below (m : Mem) (a n : Nat) (v : Word) (h : m.Below n) (ha : a + 4 ≤ n) :
    (m.writeLE32 a v).Below n :=
  Mem.write_below _ _ _ _ (Mem.write_below _ _ _ _ (Mem.write_below _ _ _ _ (Mem.write_below _ _ _ _ h
    (by omega)) (by omega)) (by omega)) (by omega)

end Sys2Proof.Machine
end

