-- ==== Sys2Proof/Laws/Fields.lean ====
section
/-! SUPPORT. The command word's fields: each reads back what `pack` put there, and the six of them are the whole
word (30_encoding.md R51). -/

namespace Sys2Proof

section

variable (opc t : Byte) (idx : Half) (a b c : Word)

/-- Bit `i` of a packed word. -/
theorem pack_getLsbD (i : Nat) :
    (pack opc t idx a b c).getLsbD i =
      if i < 8 then opc.getLsbD i
      else if i < 16 then t.getLsbD (i - 8)
      else if i < 32 then idx.getLsbD (i - 16)
      else if i < 64 then a.getLsbD (i - 32)
      else if i < 96 then b.getLsbD (i - 64)
      else c.getLsbD (i - 96) := by
  unfold pack
  refine BitVec.getLsbD_append.trans ?_
  by_cases h1 : i < 8
  · simp [h1]
  rw [if_neg h1, BitVec.getLsbD_append]
  by_cases h2 : i < 16
  · rw [if_pos (by omega), if_neg h1, if_pos h2]
  rw [if_neg (by omega), BitVec.getLsbD_append]
  by_cases h3 : i < 32
  · rw [if_pos (by omega), if_neg h1, if_neg h2, if_pos h3]; congr 1
  rw [if_neg (by omega), BitVec.getLsbD_append]
  by_cases h4 : i < 64
  · rw [if_pos (by omega), if_neg h1, if_neg h2, if_neg h3, if_pos h4]; congr 1
  rw [if_neg (by omega), BitVec.getLsbD_append]
  by_cases h5 : i < 96
  · rw [if_pos (by omega), if_neg h1, if_neg h2, if_neg h3, if_neg h4, if_pos h5]; congr 1
  · rw [if_neg (by omega), if_neg h1, if_neg h2, if_neg h3, if_neg h4, if_neg h5]; congr 1

@[simp] theorem opcField_pack : opcField (pack opc t idx a b c) = opc := by
  apply BitVec.eq_of_getLsbD_eq
  intro i hi
  rw [opcField, BitVec.getLsbD_extractLsb', pack_getLsbD]
  simp [hi]

@[simp] theorem tField_pack : tField (pack opc t idx a b c) = t := by
  apply BitVec.eq_of_getLsbD_eq
  intro i hi
  rw [tField, BitVec.getLsbD_extractLsb', pack_getLsbD]
  simp [hi, show 8 + i < 16 by omega]

@[simp] theorem idxField_pack : idxField (pack opc t idx a b c) = idx := by
  apply BitVec.eq_of_getLsbD_eq
  intro i hi
  rw [idxField, BitVec.getLsbD_extractLsb', pack_getLsbD]
  simp [hi, show ¬ 16 + i < 8 by omega, show 16 + i < 32 by omega]

@[simp] theorem aField_pack : aField (pack opc t idx a b c) = a := by
  apply BitVec.eq_of_getLsbD_eq
  intro i hi
  rw [aField, BitVec.getLsbD_extractLsb', pack_getLsbD]
  simp [hi, show ¬ 32 + i < 8 by omega, show ¬ 32 + i < 16 by omega, show 32 + i < 64 by omega]

@[simp] theorem bField_pack : bField (pack opc t idx a b c) = b := by
  apply BitVec.eq_of_getLsbD_eq
  intro i hi
  rw [bField, BitVec.getLsbD_extractLsb', pack_getLsbD]
  simp [hi, show ¬ 64 + i < 8 by omega, show ¬ 64 + i < 16 by omega, show ¬ 64 + i < 32 by omega,
    show 64 + i < 96 by omega]

@[simp] theorem cField_pack : cField (pack opc t idx a b c) = c := by
  apply BitVec.eq_of_getLsbD_eq
  intro i hi
  rw [cField, BitVec.getLsbD_extractLsb', pack_getLsbD]
  simp [hi, show ¬ 96 + i < 8 by omega, show ¬ 96 + i < 16 by omega, show ¬ 96 + i < 32 by omega,
    show ¬ 96 + i < 64 by omega]

end

/-- A word is its fields. -/
theorem pack_fields (w : Command) :
    pack (opcField w) (tField w) (idxField w) (aField w) (bField w) (cField w) = w := by
  apply BitVec.eq_of_getLsbD_eq
  intro i hi
  simp only [pack_getLsbD, opcField, tField, idxField, aField, bField, cField, BitVec.getLsbD_extractLsb']
  by_cases h1 : i < 8
  · simp [h1]
  by_cases h2 : i < 16
  · simp [h1, h2, show i - 8 < 8 by omega, show 8 + (i - 8) = i by omega]
  by_cases h3 : i < 32
  · simp [h1, h2, h3, show i - 16 < 16 by omega, show 16 + (i - 16) = i by omega]
  by_cases h4 : i < 64
  · simp [h1, h2, h3, h4, show i - 32 < 32 by omega, show 32 + (i - 32) = i by omega]
  by_cases h5 : i < 96
  · simp [h1, h2, h3, h4, h5, show i - 64 < 32 by omega, show 64 + (i - 64) = i by omega]
  · simp [h1, h2, h3, h4, h5, show i - 96 < 32 by omega, show 96 + (i - 96) = i by omega]

end Sys2Proof
end

