-- ==== Sys2Proof/Laws/Loops.lean ====
section
/-! SUPPORT. The loop of the filters: what holds at its start and is kept by every round holds at its end, and with
enough rounds it ends because its condition fails. -/

namespace Sys2Proof.Machine

variable {σ : Type} (cond : σ → Bool) (body : σ → σ)

@[simp] theorem loopWhile_zero (x : σ) : loopWhile cond body 0 x = x := rfl

theorem loopWhile_succ (n : Nat) (x : σ) :
    loopWhile cond body (n + 1) x = if cond x then loopWhile cond body n (body x) else x := rfl

/-- A loop whose condition fails at the start does nothing. -/
theorem loopWhile_of_not (n : Nat) (x : σ) (h : cond x = false) : loopWhile cond body n x = x := by
  cases n <;> simp [loopWhile_succ, h]

/-- An invariant of the rounds is an invariant of the loop. -/
theorem loopWhile_inv (P : σ → Prop) (hstep : ∀ x, P x → cond x = true → P (body x)) (n : Nat) (x : σ) (h : P x) :
    P (loopWhile cond body n x) := by
  induction n generalizing x with
  | zero => exact h
  | succ n ih =>
    rw [loopWhile_succ]
    split
    · rename_i hc; exact ih _ (hstep x h hc)
    · exact h

/-- Where each round lowers a measure, rounds for the measure are enough: the condition fails at the end. -/
theorem loopWhile_done (μ : σ → Nat) (hstep : ∀ x, cond x = true → μ (body x) < μ x) (n : Nat) (x : σ) (h : μ x ≤ n) :
    cond (loopWhile cond body n x) = false := by
  induction n generalizing x with
  | zero =>
    by_contra hc
    have := hstep x (by simpa using hc)
    omega
  | succ n ih =>
    rw [loopWhile_succ]
    split
    · rename_i hc
      have := hstep x hc
      exact ih _ (by omega)
    · rename_i hc; simpa using hc

/-- More rounds than the measure change nothing. -/
theorem loopWhile_eq_of_le (μ : σ → Nat) (hstep : ∀ x, cond x = true → μ (body x) < μ x) (n k : Nat) (x : σ)
    (hn : μ x ≤ n) (hk : μ x ≤ k) : loopWhile cond body n x = loopWhile cond body k x := by
  induction n generalizing x k with
  | zero =>
    have h0 : cond x = false := by
      by_contra hc
      have := hstep x (by simpa using hc)
      omega
    rw [loopWhile_of_not _ _ _ _ h0, loopWhile_of_not _ _ _ _ h0]
  | succ n ih =>
    cases k with
    | zero =>
      have h0 : cond x = false := by
        by_contra hc
        have := hstep x (by simpa using hc)
        omega
      rw [loopWhile_of_not _ _ _ _ h0, loopWhile_of_not _ _ _ _ h0]
    | succ k =>
      rw [loopWhile_succ, loopWhile_succ]
      split
      · rename_i hc
        have := hstep x hc
        exact ih _ _ (by omega) (by omega)
      · rfl

end Sys2Proof.Machine
end

