-- ==== Sys2Proof/Laws/State.lean ====
section
/-! SUPPORT. One lemma per field per named update of State: no later proof unfolds a record update. Then what the
slot and stream readers see of an update. -/

namespace Sys2Proof.Machine

variable (s : State)

/-! ### `State.respond` -/

@[simp] theorem State.respond_params (st : Status) (r0 : DWord) (r1 : Word) : (s.respond st r0 r1).params = s.params := rfl
@[simp] theorem State.respond_src (st : Status) (r0 : DWord) (r1 : Word) : (s.respond st r0 r1).src = s.src := rfl
@[simp] theorem State.respond_host (st : Status) (r0 : DWord) (r1 : Word) : (s.respond st r0 r1).host = s.host := rfl
@[simp] theorem State.respond_rsp (st : Status) (r0 : DWord) (r1 : Word) : (s.respond st r0 r1).rsp = ⟨st, r0, r1⟩ := rfl
@[simp] theorem State.respond_bs (st : Status) (r0 : DWord) (r1 : Word) : (s.respond st r0 r1).bs = s.bs := rfl
@[simp] theorem State.respond_crc (st : Status) (r0 : DWord) (r1 : Word) : (s.respond st r0 r1).crc = s.crc := rfl
@[simp] theorem State.respond_huf (st : Status) (r0 : DWord) (r1 : Word) : (s.respond st r0 r1).huf = s.huf := rfl
@[simp] theorem State.respond_lz (st : Status) (r0 : DWord) (r1 : Word) : (s.respond st r0 r1).lz = s.lz := rfl
@[simp] theorem State.respond_flt (st : Status) (r0 : DWord) (r1 : Word) : (s.respond st r0 r1).flt = s.flt := rfl

/-! ### `State.fail` -/

@[simp] theorem State.fail_params (st : Status) : (s.fail st).params = s.params := rfl
@[simp] theorem State.fail_src (st : Status) : (s.fail st).src = s.src := rfl
@[simp] theorem State.fail_host (st : Status) : (s.fail st).host = s.host := rfl
@[simp] theorem State.fail_rsp (st : Status) : (s.fail st).rsp = ⟨st, 0, 0⟩ := rfl
@[simp] theorem State.fail_bs (st : Status) : (s.fail st).bs = s.bs := rfl
@[simp] theorem State.fail_crc (st : Status) : (s.fail st).crc = s.crc := rfl
@[simp] theorem State.fail_huf (st : Status) : (s.fail st).huf = s.huf := rfl
@[simp] theorem State.fail_lz (st : Status) : (s.fail st).lz = s.lz := rfl
@[simp] theorem State.fail_flt (st : Status) : (s.fail st).flt = s.flt := rfl

/-! ### `State.done` -/

@[simp] theorem State.done_params : (s.done).params = s.params := rfl
@[simp] theorem State.done_src : (s.done).src = s.src := rfl
@[simp] theorem State.done_host : (s.done).host = s.host := rfl
@[simp] theorem State.done_rsp : (s.done).rsp = ⟨.ok, 0, 0⟩ := rfl
@[simp] theorem State.done_bs : (s.done).bs = s.bs := rfl
@[simp] theorem State.done_crc : (s.done).crc = s.crc := rfl
@[simp] theorem State.done_huf : (s.done).huf = s.huf := rfl
@[simp] theorem State.done_lz : (s.done).lz = s.lz := rfl
@[simp] theorem State.done_flt : (s.done).flt = s.flt := rfl

/-! ### `State.setBs` -/

@[simp] theorem State.setBs_params (v : Bs) : (s.setBs v).params = s.params := rfl
@[simp] theorem State.setBs_src (v : Bs) : (s.setBs v).src = s.src := rfl
@[simp] theorem State.setBs_host (v : Bs) : (s.setBs v).host = s.host := rfl
@[simp] theorem State.setBs_rsp (v : Bs) : (s.setBs v).rsp = s.rsp := rfl
@[simp] theorem State.setBs_bs (v : Bs) : (s.setBs v).bs = v := rfl
@[simp] theorem State.setBs_crc (v : Bs) : (s.setBs v).crc = s.crc := rfl
@[simp] theorem State.setBs_huf (v : Bs) : (s.setBs v).huf = s.huf := rfl
@[simp] theorem State.setBs_lz (v : Bs) : (s.setBs v).lz = s.lz := rfl
@[simp] theorem State.setBs_flt (v : Bs) : (s.setBs v).flt = s.flt := rfl

/-! ### `State.setCrc` -/

@[simp] theorem State.setCrc_params (v : Word) : (s.setCrc v).params = s.params := rfl
@[simp] theorem State.setCrc_src (v : Word) : (s.setCrc v).src = s.src := rfl
@[simp] theorem State.setCrc_host (v : Word) : (s.setCrc v).host = s.host := rfl
@[simp] theorem State.setCrc_rsp (v : Word) : (s.setCrc v).rsp = s.rsp := rfl
@[simp] theorem State.setCrc_bs (v : Word) : (s.setCrc v).bs = s.bs := rfl
@[simp] theorem State.setCrc_crc (v : Word) : (s.setCrc v).crc = ⟨v⟩ := rfl
@[simp] theorem State.setCrc_huf (v : Word) : (s.setCrc v).huf = s.huf := rfl
@[simp] theorem State.setCrc_lz (v : Word) : (s.setCrc v).lz = s.lz := rfl
@[simp] theorem State.setCrc_flt (v : Word) : (s.setCrc v).flt = s.flt := rfl

/-! ### `State.setStage` -/

@[simp] theorem State.setStage_params (v : List (Nat × StageEntry)) : (s.setStage v).params = s.params := rfl
@[simp] theorem State.setStage_src (v : List (Nat × StageEntry)) : (s.setStage v).src = s.src := rfl
@[simp] theorem State.setStage_host (v : List (Nat × StageEntry)) : (s.setStage v).host = s.host := rfl
@[simp] theorem State.setStage_rsp (v : List (Nat × StageEntry)) : (s.setStage v).rsp = s.rsp := rfl
@[simp] theorem State.setStage_bs (v : List (Nat × StageEntry)) : (s.setStage v).bs = s.bs := rfl
@[simp] theorem State.setStage_crc (v : List (Nat × StageEntry)) : (s.setStage v).crc = s.crc := rfl
@[simp] theorem State.setStage_huf (v : List (Nat × StageEntry)) : (s.setStage v).huf = ⟨v, s.huf.slots⟩ := rfl
@[simp] theorem State.setStage_lz (v : List (Nat × StageEntry)) : (s.setStage v).lz = s.lz := rfl
@[simp] theorem State.setStage_flt (v : List (Nat × StageEntry)) : (s.setStage v).flt = s.flt := rfl

/-! ### `State.setSlot` -/

@[simp] theorem State.setSlot_params (t : Nat) (v : Slot) : (s.setSlot t v).params = s.params := rfl
@[simp] theorem State.setSlot_src (t : Nat) (v : Slot) : (s.setSlot t v).src = s.src := rfl
@[simp] theorem State.setSlot_host (t : Nat) (v : Slot) : (s.setSlot t v).host = s.host := rfl
@[simp] theorem State.setSlot_rsp (t : Nat) (v : Slot) : (s.setSlot t v).rsp = s.rsp := rfl
@[simp] theorem State.setSlot_bs (t : Nat) (v : Slot) : (s.setSlot t v).bs = s.bs := rfl
@[simp] theorem State.setSlot_crc (t : Nat) (v : Slot) : (s.setSlot t v).crc = s.crc := rfl
@[simp] theorem State.setSlot_huf (t : Nat) (v : Slot) : (s.setSlot t v).huf = ⟨s.huf.stage, s.huf.slots.setIfInBounds t v⟩ := rfl
@[simp] theorem State.setSlot_lz (t : Nat) (v : Slot) : (s.setSlot t v).lz = s.lz := rfl
@[simp] theorem State.setSlot_flt (t : Nat) (v : Slot) : (s.setSlot t v).flt = s.flt := rfl

/-! ### `State.setLz` -/

@[simp] theorem State.setLz_params (v : Lz) : (s.setLz v).params = s.params := rfl
@[simp] theorem State.setLz_src (v : Lz) : (s.setLz v).src = s.src := rfl
@[simp] theorem State.setLz_host (v : Lz) : (s.setLz v).host = s.host := rfl
@[simp] theorem State.setLz_rsp (v : Lz) : (s.setLz v).rsp = s.rsp := rfl
@[simp] theorem State.setLz_bs (v : Lz) : (s.setLz v).bs = s.bs := rfl
@[simp] theorem State.setLz_crc (v : Lz) : (s.setLz v).crc = s.crc := rfl
@[simp] theorem State.setLz_huf (v : Lz) : (s.setLz v).huf = s.huf := rfl
@[simp] theorem State.setLz_lz (v : Lz) : (s.setLz v).lz = v := rfl
@[simp] theorem State.setLz_flt (v : Lz) : (s.setLz v).flt = s.flt := rfl

/-! ### `State.setFmem` -/

@[simp] theorem State.setFmem_params (v : Mem) : (s.setFmem v).params = s.params := rfl
@[simp] theorem State.setFmem_src (v : Mem) : (s.setFmem v).src = s.src := rfl
@[simp] theorem State.setFmem_host (v : Mem) : (s.setFmem v).host = s.host := rfl
@[simp] theorem State.setFmem_rsp (v : Mem) : (s.setFmem v).rsp = s.rsp := rfl
@[simp] theorem State.setFmem_bs (v : Mem) : (s.setFmem v).bs = s.bs := rfl
@[simp] theorem State.setFmem_crc (v : Mem) : (s.setFmem v).crc = s.crc := rfl
@[simp] theorem State.setFmem_huf (v : Mem) : (s.setFmem v).huf = s.huf := rfl
@[simp] theorem State.setFmem_lz (v : Mem) : (s.setFmem v).lz = s.lz := rfl
@[simp] theorem State.setFmem_flt (v : Mem) : (s.setFmem v).flt = ⟨v⟩ := rfl

/-! ### `State.advance` -/

@[simp] theorem State.advance_params (n : Nat) : (s.advance n).params = s.params := rfl
@[simp] theorem State.advance_src (n : Nat) : (s.advance n).src = s.src := rfl
@[simp] theorem State.advance_host (n : Nat) : (s.advance n).host = s.host := rfl
@[simp] theorem State.advance_rsp (n : Nat) : (s.advance n).rsp = s.rsp := rfl
@[simp] theorem State.advance_bs (n : Nat) : (s.advance n).bs = { s.bs with pos := s.bs.pos + BitVec.ofNat 64 n } := rfl
@[simp] theorem State.advance_crc (n : Nat) : (s.advance n).crc = s.crc := rfl
@[simp] theorem State.advance_huf (n : Nat) : (s.advance n).huf = s.huf := rfl
@[simp] theorem State.advance_lz (n : Nat) : (s.advance n).lz = s.lz := rfl
@[simp] theorem State.advance_flt (n : Nat) : (s.advance n).flt = s.flt := rfl

/-! ### `State.overRead` -/

@[simp] theorem State.overRead_params : (s.overRead).params = s.params := rfl
@[simp] theorem State.overRead_src : (s.overRead).src = s.src := rfl
@[simp] theorem State.overRead_host : (s.overRead).host = s.host := rfl
@[simp] theorem State.overRead_rsp : (s.overRead).rsp = ⟨.readFail, 0, 0⟩ := rfl
@[simp] theorem State.overRead_bs : (s.overRead).bs = { s.bs with err := true } := rfl
@[simp] theorem State.overRead_crc : (s.overRead).crc = s.crc := rfl
@[simp] theorem State.overRead_huf : (s.overRead).huf = s.huf := rfl
@[simp] theorem State.overRead_lz : (s.overRead).lz = s.lz := rfl
@[simp] theorem State.overRead_flt : (s.overRead).flt = s.flt := rfl

/-! ### `State.loadLine` -/

@[simp] theorem State.loadLine_params (line : Nat) : (s.loadLine line).params = s.params := rfl
@[simp] theorem State.loadLine_src (line : Nat) : (s.loadLine line).src = s.src := rfl
@[simp] theorem State.loadLine_host (line : Nat) : (s.loadLine line).host = s.host := rfl
@[simp] theorem State.loadLine_rsp (line : Nat) : (s.loadLine line).rsp = s.rsp := rfl
@[simp] theorem State.loadLine_crc (line : Nat) : (s.loadLine line).crc = s.crc := rfl
@[simp] theorem State.loadLine_huf (line : Nat) : (s.loadLine line).huf = s.huf := rfl
@[simp] theorem State.loadLine_lz (line : Nat) : (s.loadLine line).lz = s.lz := rfl
@[simp] theorem State.loadLine_flt (line : Nat) : (s.loadLine line).flt = s.flt := rfl

/-! ### `State.hardReset` -/

@[simp] theorem State.hardReset_params : (s.hardReset).params = s.params := rfl
@[simp] theorem State.hardReset_src : (s.hardReset).src = s.src := rfl
@[simp] theorem State.hardReset_host : (s.hardReset).host = s.host := rfl
@[simp] theorem State.hardReset_rsp : (s.hardReset).rsp = State.reset.rsp := rfl
@[simp] theorem State.hardReset_bs : (s.hardReset).bs = State.reset.bs := rfl
@[simp] theorem State.hardReset_crc : (s.hardReset).crc = State.reset.crc := rfl
@[simp] theorem State.hardReset_huf : (s.hardReset).huf = State.reset.huf := rfl
@[simp] theorem State.hardReset_lz : (s.hardReset).lz = State.reset.lz := rfl
@[simp] theorem State.hardReset_flt : (s.hardReset).flt = State.reset.flt := rfl

/-! ### Slots -/

@[simp] theorem State.respond_slot (st : Status) (r0 : DWord) (r1 : Word) (u : Nat) : (s.respond st r0 r1).slot u = s.slot u := rfl
@[simp] theorem State.fail_slot (st : Status) (u : Nat) : (s.fail st).slot u = s.slot u := rfl
@[simp] theorem State.done_slot (u : Nat) : (s.done).slot u = s.slot u := rfl
@[simp] theorem State.setBs_slot (v : Bs) (u : Nat) : (s.setBs v).slot u = s.slot u := rfl
@[simp] theorem State.setCrc_slot (v : Word) (u : Nat) : (s.setCrc v).slot u = s.slot u := rfl
@[simp] theorem State.setStage_slot (v : List (Nat × StageEntry)) (u : Nat) : (s.setStage v).slot u = s.slot u := rfl
@[simp] theorem State.setLz_slot (v : Lz) (u : Nat) : (s.setLz v).slot u = s.slot u := rfl
@[simp] theorem State.setFmem_slot (v : Mem) (u : Nat) : (s.setFmem v).slot u = s.slot u := rfl
@[simp] theorem State.advance_slot (n : Nat) (u : Nat) : (s.advance n).slot u = s.slot u := rfl
@[simp] theorem State.overRead_slot (u : Nat) : (s.overRead).slot u = s.slot u := rfl

/-- Reading a slot after a slot was written. -/
theorem State.slot_setSlot (t u : Nat) (v : Slot) :
    (s.setSlot t v).slot u = if t = u ∧ t < 8 then v else s.slot u := by
  simp only [State.slot, State.setSlot]
  by_cases hu : u < 8
  · by_cases h : t = u
    · subst h; simp [hu]
    · simp [hu, h]
  · have h : ¬ (t = u ∧ t < 8) := by omega
    simp [hu, h]

/-- The slot just written. -/
@[simp] theorem State.slot_setSlot_self (t : Nat) (v : Slot) (h : t < 8) : (s.setSlot t v).slot t = v := by
  simp [State.slot_setSlot, h]

/-- Every other slot. -/
theorem State.slot_setSlot_ne (t u : Nat) (v : Slot) (h : t ≠ u) : (s.setSlot t v).slot u = s.slot u := by
  simp [State.slot_setSlot, h]

/-- After a reset every slot is free. -/
@[simp] theorem State.hardReset_slot (u : Nat) : s.hardReset.slot u = Slot.free := by
  simp only [State.slot, State.hardReset, State.reset]
  by_cases hu : u < 8 <;> simp [hu]

/-! ### What the stream readers see -/

@[simp] theorem State.respond_srcByte (st : Status) (r0 : DWord) (r1 : Word) (i : Nat) : (s.respond st r0 r1).srcByte i = s.srcByte i := rfl
@[simp] theorem State.respond_bitlen (st : Status) (r0 : DWord) (r1 : Word) : (s.respond st r0 r1).bitlen = s.bitlen := rfl
@[simp] theorem State.respond_remaining (st : Status) (r0 : DWord) (r1 : Word) : (s.respond st r0 r1).remaining = s.remaining := rfl
@[simp] theorem State.fail_srcByte (st : Status) (i : Nat) : (s.fail st).srcByte i = s.srcByte i := rfl
@[simp] theorem State.fail_bitlen (st : Status) : (s.fail st).bitlen = s.bitlen := rfl
@[simp] theorem State.fail_remaining (st : Status) : (s.fail st).remaining = s.remaining := rfl
@[simp] theorem State.done_srcByte (i : Nat) : (s.done).srcByte i = s.srcByte i := rfl
@[simp] theorem State.done_bitlen : (s.done).bitlen = s.bitlen := rfl
@[simp] theorem State.done_remaining : (s.done).remaining = s.remaining := rfl
@[simp] theorem State.setCrc_srcByte (v : Word) (i : Nat) : (s.setCrc v).srcByte i = s.srcByte i := rfl
@[simp] theorem State.setCrc_bitlen (v : Word) : (s.setCrc v).bitlen = s.bitlen := rfl
@[simp] theorem State.setCrc_remaining (v : Word) : (s.setCrc v).remaining = s.remaining := rfl
@[simp] theorem State.setStage_srcByte (v : List (Nat × StageEntry)) (i : Nat) : (s.setStage v).srcByte i = s.srcByte i := rfl
@[simp] theorem State.setStage_bitlen (v : List (Nat × StageEntry)) : (s.setStage v).bitlen = s.bitlen := rfl
@[simp] theorem State.setStage_remaining (v : List (Nat × StageEntry)) : (s.setStage v).remaining = s.remaining := rfl
@[simp] theorem State.setSlot_srcByte (t : Nat) (v : Slot) (i : Nat) : (s.setSlot t v).srcByte i = s.srcByte i := rfl
@[simp] theorem State.setSlot_bitlen (t : Nat) (v : Slot) : (s.setSlot t v).bitlen = s.bitlen := rfl
@[simp] theorem State.setSlot_remaining (t : Nat) (v : Slot) : (s.setSlot t v).remaining = s.remaining := rfl
@[simp] theorem State.setLz_srcByte (v : Lz) (i : Nat) : (s.setLz v).srcByte i = s.srcByte i := rfl
@[simp] theorem State.setLz_bitlen (v : Lz) : (s.setLz v).bitlen = s.bitlen := rfl
@[simp] theorem State.setLz_remaining (v : Lz) : (s.setLz v).remaining = s.remaining := rfl
@[simp] theorem State.setFmem_srcByte (v : Mem) (i : Nat) : (s.setFmem v).srcByte i = s.srcByte i := rfl
@[simp] theorem State.setFmem_bitlen (v : Mem) : (s.setFmem v).bitlen = s.bitlen := rfl
@[simp] theorem State.setFmem_remaining (v : Mem) : (s.setFmem v).remaining = s.remaining := rfl
@[simp] theorem State.advance_srcByte (n : Nat) (i : Nat) : (s.advance n).srcByte i = s.srcByte i := rfl
@[simp] theorem State.advance_bitlen (n : Nat) : (s.advance n).bitlen = s.bitlen := rfl
@[simp] theorem State.overRead_srcByte (i : Nat) : (s.overRead).srcByte i = s.srcByte i := rfl
@[simp] theorem State.overRead_bitlen : (s.overRead).bitlen = s.bitlen := rfl
@[simp] theorem State.overRead_remaining : (s.overRead).remaining = s.remaining := rfl
@[simp] theorem State.loadLine_srcByte (line : Nat) (i : Nat) : (s.loadLine line).srcByte i = s.srcByte i := rfl
@[simp] theorem State.loadLine_bitlen (line : Nat) : (s.loadLine line).bitlen = s.bitlen := rfl
@[simp] theorem State.loadLine_remaining (line : Nat) : (s.loadLine line).remaining = s.remaining := rfl

/-! ### Reset -/

/-- After reset every memory lists nothing, which is the canonical form. -/
theorem State.reset_memories :
    State.reset.flt.mem = [] ∧ State.reset.lz.win = [] ∧ State.reset.lz.out = [] ∧ State.reset.bs.l2Data = [] ∧
    State.reset.huf.stage = [] ∧ State.reset.src.bytes = [] ∧ Mem.Wf [] ∧ Cells.Wf StageEntry.zero [] := by
  refine ⟨rfl, rfl, rfl, rfl, rfl, rfl, ⟨.nil, by simp⟩, .nil, by simp⟩

end Sys2Proof.Machine
end

