-- ==== Sys2Proof/Laws/Filters.lean ====
section
/-! SUPPORT. The transforms' frames: each writes only its slice of FMEM and keeps the canonical form and the bound;
and the ranges of the audio predictor's parts. -/

namespace Sys2Proof.Machine

/-- `m'` is `m` but for bytes in `[lo, hi)`, with canonical form and any bound from `hi` on kept. -/
def WritesIn (lo hi : Nat) (m m' : Mem) : Prop :=
  (∀ a, a < lo ∨ hi ≤ a → m'.read a = m.read a) ∧ (m.Wf → m'.Wf) ∧ ∀ n, hi ≤ n → m.Below n → m'.Below n

theorem WritesIn.refl (lo hi : Nat) (m : Mem) : WritesIn lo hi m m := ⟨fun _ _ => rfl, id, fun _ _ h => h⟩

theorem WritesIn.trans {lo hi : Nat} {m m' m'' : Mem} (h : WritesIn lo hi m m') (k : WritesIn lo hi m' m'') :
    WritesIn lo hi m m'' :=
  ⟨fun a ha => (k.1 a ha).trans (h.1 a ha), fun hm => k.2.1 (h.2.1 hm), fun n hn hm => k.2.2 n hn (h.2.2 n hn hm)⟩

/-- One byte written in the range. -/
theorem WritesIn.write {lo hi : Nat} {m m' : Mem} (h : WritesIn lo hi m m') (a : Nat) (b : Byte) (h1 : lo ≤ a)
    (h2 : a < hi) : WritesIn lo hi m (m'.write a b) :=
  h.trans
    ⟨fun x hx => Mem.read_write_ne _ _ _ _ (by omega), fun hm => Mem.write_wf _ _ _ hm,
      fun n hn hm => Mem.write_below _ _ _ _ hm (by omega)⟩

/-- Four bytes written in the range. -/
theorem WritesIn.writeLE32 {lo hi : Nat} {m m' : Mem} (h : WritesIn lo hi m m') (a : Nat) (v : Word) (h1 : lo ≤ a)
    (h2 : a + 4 ≤ hi) : WritesIn lo hi m (m'.writeLE32 a v) :=
  ((((h.write a _ h1 (by omega)).write (a + 1) _ (by omega) (by omega)).write (a + 2) _ (by omega)
    (by omega)).write (a + 3) _ (by omega) (by omega))

/-- A fold of writers is a writer. -/
theorem WritesIn.foldl {lo hi : Nat} {σ ι : Type} (mem : σ → Mem) (f : σ → ι → σ)
    (hf : ∀ x i, WritesIn lo hi (mem x) (mem (f x i))) (l : List ι) (x : σ) :
    WritesIn lo hi (mem x) (mem (l.foldl f x)) := by
  induction l generalizing x with
  | nil => exact .refl _ _ _
  | cons i l ih => exact (hf x i).trans (ih (f x i))

/-- A loop of writers is a writer. -/
theorem WritesIn.loop {lo hi : Nat} {σ : Type} (mem : σ → Mem) (cond : σ → Bool) (body : σ → σ)
    (hb : ∀ x, cond x = true → WritesIn lo hi (mem x) (mem (body x))) (n : Nat) (x : σ) :
    WritesIn lo hi (mem x) (mem (loopWhile cond body n x)) :=
  loopWhile_inv cond body (fun y => WritesIn lo hi (mem x) (mem y)) (fun y hy hc => hy.trans (hb y hc)) n x
    (.refl _ _ _)

/-- A channel of the delta transform writes its output slice only. -/
theorem deltaChannel_writes (n channels : Nat) (sm : Nat × Mem) (c : Nat) :
    WritesIn n (2 * n) sm.2 (deltaChannel n channels sm c).2 :=
  WritesIn.loop DeltaState.mem _ _
    (fun d hd => (WritesIn.refl n (2 * n) d.mem).write _ _ (by omega) (by simp at hd; omega)) n _

/-- The delta transform writes its output slice only (R145). -/
theorem deltaTransform_writes (n channels : Nat) (m : Mem) : WritesIn n (2 * n) m (deltaTransform n channels m) :=
  WritesIn.foldl Prod.snd _ (deltaChannel_writes n channels) _ (0, m)

/-- A channel of the audio transform writes its output slice only. -/
theorem audioChannel_writes (n channels : Nat) (sm : Nat × Mem) (c : Nat) :
    WritesIn n (2 * n) sm.2 (audioChannel n channels sm c).2 :=
  WritesIn.loop AudioState.mem _ _
    (fun d hd => (WritesIn.refl n (2 * n) d.mem).write _ _ (by omega) (by simp at hd; omega)) n _

/-- The audio transform writes its output slice only (R146). -/
theorem audioTransform_writes (n channels : Nat) (m : Mem) : WritesIn n (2 * n) m (audioTransform n channels m) :=
  WritesIn.foldl Prod.snd _ (audioChannel_writes n channels) _ (0, m)

/-- A plane of the colour transform writes its output slice only. -/
theorem rgbPlane_writes (n stride : Nat) (sm : Nat × Mem) (c : Nat) :
    WritesIn n (2 * n) sm.2 (rgbPlane n stride sm c).2 :=
  WritesIn.loop RgbState.mem _ _
    (fun d hd => (WritesIn.refl n (2 * n) d.mem).write _ _ (by omega) (by simp at hd; omega)) n _

/-- The colour transform writes its output slice only (R147). -/
theorem rgbTransform_writes (n stride posr : Nat) (m : Mem) :
    WritesIn n (2 * n) m (rgbTransform n stride posr m) := by
  refine (WritesIn.foldl Prod.snd _ (rgbPlane_writes n stride) (List.range 3) (0, m)).trans ?_
  refine WritesIn.loop Prod.snd _ _ (fun im him => ?_) n (posr, _)
  simp only [decide_eq_true_eq] at him
  exact ((WritesIn.refl n (2 * n) im.2).write _ _ (by omega) (by omega)).write _ _ (by omega) (by omega)

/-- An x86 transform writes inside its slice only (R148, R150). -/
theorem x86Transform_writes (isCall : Byte → Bool) (pos n : Nat) (m : Mem) :
    WritesIn 0 n m (x86Transform isCall pos n m) := by
  refine WritesIn.loop Prod.snd _ _ (fun im him => ?_) n (0, m)
  simp only [decide_eq_true_eq] at him
  unfold x86Step
  split
  · split
    · exact .refl _ _ _
    · exact (WritesIn.refl 0 n im.2).writeLE32 _ _ (by omega) (by omega)
  · exact .refl _ _ _

/-- The ARM transform writes inside its slice only (R149). -/
theorem armTransform_writes (pos n : Nat) (m : Mem) : WritesIn 0 n m (armTransform pos n m) := by
  refine WritesIn.loop Prod.snd _ _ (fun im him => ?_) n (0, m)
  simp only [decide_eq_true_eq] at him
  unfold armStep
  dsimp only
  split
  · exact (((WritesIn.refl 0 n im.2).write _ _ (by omega) (by omega)).write _ _ (by omega) (by omega)).write _ _
      (by omega) (by omega)
  · exact .refl _ _ _

/-! ### The ends of the transforms (R140, R142) -/

/-- All an in-place transform can do. -/
theorem State.inPlace_cases (s : State) (pos n : Word) (m : Mem) :
    s.inPlace pos n m = s.fail .filtersInvalidLength ∨
    s.inPlace pos n m = s.fail .filtersInvalidFilePosition ∨
    (n.toNat ≤ s.params.fltMemSize ∧ s.inPlace pos n m = (s.setFmem m).respond .ok 0 n) := by
  unfold State.inPlace oneSliceFits
  split
  · exact .inl rfl
  · rename_i h
    split
    · exact .inr (.inl rfl)
    · simp only [Bool.not_eq_true, Bool.not_eq_false', Bool.and_eq_true, decide_eq_true_eq] at h
      exact .inr (.inr ⟨h.1, rfl⟩)

end Sys2Proof.Machine
end

