-- ==== Sys2Proof/Laws/Stream.lean ====
section
/-! SUPPORT. The stream and the hidden buffers: what a word fetch changes and what it brings, and how a field of the
stream splits. -/

namespace Sys2Proof.Machine

/-! ### States that differ at most in the hidden buffers -/

/-- What "same but for the buffers" is, field by field. -/
theorem sameButBuffers_iff (s t : State) :
    SameButBuffers s t ↔
      t.params = s.params ∧ t.src = s.src ∧ t.host = s.host ∧ t.rsp = s.rsp ∧ t.crc = s.crc ∧ t.huf = s.huf ∧
      t.lz = s.lz ∧ t.flt = s.flt ∧ t.bs.isOpen = s.bs.isOpen ∧ t.bs.base = s.bs.base ∧ t.bs.size = s.bs.size ∧
      t.bs.pos = s.bs.pos ∧ t.bs.err = s.bs.err := by
  obtain ⟨p, src, host, rsp, ⟨⟩, crc, huf, lz, flt⟩ := s
  obtain ⟨p', src', host', rsp', ⟨⟩, crc', huf', lz', flt'⟩ := t
  simp only [SameButBuffers, State.setBs, State.mk.injEq, Bs.mk.injEq]
  tauto

/-- Every state is the same as itself. -/
theorem SameButBuffers.refl (s : State) : SameButBuffers s s := rfl

/-- Symmetry. -/
theorem SameButBuffers.symm {s t : State} (h : SameButBuffers s t) : SameButBuffers t s := by
  rw [sameButBuffers_iff] at h ⊢
  simp [h]

/-- Transitivity. -/
theorem SameButBuffers.trans {s t u : State} (h : SameButBuffers s t) (k : SameButBuffers t u) :
    SameButBuffers s u := by
  rw [sameButBuffers_iff] at h k ⊢
  simp [h, k]

/-- Both sides may respond alike. -/
theorem SameButBuffers.respond {s t : State} (h : SameButBuffers s t) (st : Status) (r0 : DWord) (r1 : Word) :
    SameButBuffers (s.respond st r0 r1) (t.respond st r0 r1) := by
  rw [sameButBuffers_iff] at h ⊢
  simp [h]

/-- Both sides may move alike. -/
theorem SameButBuffers.advance {s t : State} (h : SameButBuffers s t) (n : Nat) :
    SameButBuffers (s.advance n) (t.advance n) := by
  rw [sameButBuffers_iff] at h ⊢
  simp [h]

/-- The stream's bytes do not depend on the buffers. -/
theorem SameButBuffers.srcByte {s t : State} (h : SameButBuffers s t) (i : Nat) : t.srcByte i = s.srcByte i := by
  rw [sameButBuffers_iff] at h
  simp [State.srcByte, h]

/-- Nor do its bits. -/
theorem SameButBuffers.streamBit {s t : State} (h : SameButBuffers s t) (p : Nat) :
    t.streamBit p = s.streamBit p := by
  simp [State.streamBit, h.srcByte]

/-- Nor do its fields. -/
theorem SameButBuffers.bits {s t : State} (h : SameButBuffers s t) (p n : Nat) : t.bits p n = s.bits p n := by
  induction n with
  | zero => rfl
  | succ n ih => simp [State.bits, ih, h.streamBit]

/-- Nor does what remains of it. -/
theorem SameButBuffers.remaining {s t : State} (h : SameButBuffers s t) : t.remaining = s.remaining := by
  rw [sameButBuffers_iff] at h
  simp [State.remaining, State.bitlen, h]

/-- Nor does a word of it. -/
theorem SameButBuffers.streamWord {s t : State} (h : SameButBuffers s t) (w : Nat) :
    t.streamWord w = s.streamWord w := by
  have : ∀ n, t.wordBytes w n = s.wordBytes w n := by
    intro n
    induction n with
    | zero => rfl
    | succ n ih => simp [State.wordBytes, ih, h.srcByte]
  exact this 8

/-! ### What a fetch changes (R85) -/

/-- A line refill touches the buffers only. -/
theorem State.loadLine_same (s : State) (line : Nat) : SameButBuffers s (s.loadLine line) := by
  rw [sameButBuffers_iff]; simp [State.loadLine]

/-- The L2 step touches the buffers only. -/
theorem State.ensureLine_same (s : State) (line : Nat) : SameButBuffers s (s.ensureLine line) := by
  unfold State.ensureLine
  split
  · exact .refl s
  · exact s.loadLine_same line

/-- A word fetch touches the buffers only. -/
theorem State.fetchWord_same (s : State) (w : Nat) : SameButBuffers s (s.fetchWord w) := by
  unfold State.fetchWord
  split
  · exact .refl s
  · refine (s.ensureLine_same (8 * w / s.params.l2Bytes)).trans ?_
    rw [sameButBuffers_iff]; simp

/-- An extraction touches the buffers only. -/
theorem State.extract_same (s : State) (p n : Nat) : SameButBuffers s (s.extract p n).2 := by
  unfold State.extract
  split
  · exact .refl s
  · dsimp only
    split
    · exact s.fetchWord_same _
    · exact (s.fetchWord_same _).trans (State.fetchWord_same _ _)

/-! An extraction leaves every field but the buffers. -/

section

variable (s : State) (p n : Nat)

@[simp] theorem State.extract_params : (s.extract p n).2.params = s.params :=
  ((sameButBuffers_iff _ _).1 (s.extract_same p n)).1

@[simp] theorem State.extract_src : (s.extract p n).2.src = s.src :=
  ((sameButBuffers_iff _ _).1 (s.extract_same p n)).2.1

@[simp] theorem State.extract_host : (s.extract p n).2.host = s.host :=
  ((sameButBuffers_iff _ _).1 (s.extract_same p n)).2.2.1

@[simp] theorem State.extract_rsp : (s.extract p n).2.rsp = s.rsp :=
  ((sameButBuffers_iff _ _).1 (s.extract_same p n)).2.2.2.1

@[simp] theorem State.extract_crc : (s.extract p n).2.crc = s.crc :=
  ((sameButBuffers_iff _ _).1 (s.extract_same p n)).2.2.2.2.1

@[simp] theorem State.extract_huf : (s.extract p n).2.huf = s.huf :=
  ((sameButBuffers_iff _ _).1 (s.extract_same p n)).2.2.2.2.2.1

@[simp] theorem State.extract_lz : (s.extract p n).2.lz = s.lz :=
  ((sameButBuffers_iff _ _).1 (s.extract_same p n)).2.2.2.2.2.2.1

@[simp] theorem State.extract_flt : (s.extract p n).2.flt = s.flt :=
  ((sameButBuffers_iff _ _).1 (s.extract_same p n)).2.2.2.2.2.2.2.1

@[simp] theorem State.extract_bs_isOpen : (s.extract p n).2.bs.isOpen = s.bs.isOpen :=
  ((sameButBuffers_iff _ _).1 (s.extract_same p n)).2.2.2.2.2.2.2.2.1

@[simp] theorem State.extract_bs_base : (s.extract p n).2.bs.base = s.bs.base :=
  ((sameButBuffers_iff _ _).1 (s.extract_same p n)).2.2.2.2.2.2.2.2.2.1

@[simp] theorem State.extract_bs_size : (s.extract p n).2.bs.size = s.bs.size :=
  ((sameButBuffers_iff _ _).1 (s.extract_same p n)).2.2.2.2.2.2.2.2.2.2.1

@[simp] theorem State.extract_bs_pos : (s.extract p n).2.bs.pos = s.bs.pos :=
  ((sameButBuffers_iff _ _).1 (s.extract_same p n)).2.2.2.2.2.2.2.2.2.2.2.1

@[simp] theorem State.extract_bs_err : (s.extract p n).2.bs.err = s.bs.err :=
  ((sameButBuffers_iff _ _).1 (s.extract_same p n)).2.2.2.2.2.2.2.2.2.2.2.2

@[simp] theorem State.extract_remaining : (s.extract p n).2.remaining = s.remaining := (s.extract_same p n).remaining

end

/-- The mask of R86 as a number. -/
theorem lowMask_toNat (n : Nat) (h : n ≤ 64) : (lowMask n).toNat = 2 ^ n - 1 := by
  simp only [lowMask, BitVec.toNat_ofNat]
  rcases Nat.lt_or_ge n 64 with h1 | h1
  · have : 2 ^ n < 2 ^ 64 := Nat.pow_lt_pow_right (by omega) h1
    omega
  · obtain rfl : n = 64 := by omega
    rfl

/-- A field of no bits is 0 and fetches nothing (R86). -/
@[simp] theorem State.extract_zero (s : State) (p : Nat) : s.extract p 0 = (0, s) := rfl

/-! ### What a fetch brings (R84, R85) -/

/-- A matching tag is the tag's number. -/
theorem tagIs_iff (tag : Option Word) (x : Nat) : tagIs tag x = true ↔ ∃ t, tag = some t ∧ t.toNat = x := by
  cases tag <;> simp [tagIs]

/-- The line after the L2 step holds the stream's bytes, whatever the line number. -/
theorem State.ensureLine_data (s : State) (line : Nat)
    (h2 : tagIs s.bs.l2Tag line = true → ∀ j, j < s.params.l2Bytes →
      s.bs.l2Data.read j = s.srcByte (line * s.params.l2Bytes + j))
    (j : Nat) (hj : j < s.params.l2Bytes) :
    (s.ensureLine line).bs.l2Data.read j = s.srcByte (line * s.params.l2Bytes + j) := by
  unfold State.ensureLine
  split
  · rename_i h
    exact h2 h j hj
  · simp only [State.loadLine, State.setBs_bs, Mem.read_slice, State.srcByte]
    by_cases hs : line * s.params.l2Bytes + j < s.bs.size.toNat
    · rw [if_pos (by omega), if_pos hs]; congr 1; omega
    · rw [if_neg (by omega), if_neg hs]

/-- A matching L2 tag of coherent buffers: the line holds the stream's bytes. -/
theorem State.line_of_tagIs (s : State) (h : s.BuffersOk) (line : Nat) (ht : tagIs s.bs.l2Tag line = true) (j : Nat)
    (hj : j < s.params.l2Bytes) : s.bs.l2Data.read j = s.srcByte (line * s.params.l2Bytes + j) := by
  obtain ⟨t, he, rfl⟩ := (tagIs_iff _ _).1 ht
  exact h.2 t he j hj

/-- Eight bytes of a line are the stream's word there. -/
theorem State.readBE_eq_wordBytes (s : State) (m : Mem) (a w n : Nat)
    (h : ∀ j, j < n → m.read (a + j) = s.srcByte (8 * w + j)) : m.readBE a n = s.wordBytes w n := by
  induction n with
  | zero => rfl
  | succ n ih => simp only [Mem.readBE, State.wordBytes, ih fun j hj => h j (by omega), h n (by omega)]

/-- `n` bytes are below `256^n`. -/
theorem State.wordBytes_lt (s : State) (w n : Nat) : s.wordBytes w n < 256 ^ n := by
  induction n with
  | zero => simp [State.wordBytes]
  | succ n ih =>
    have := (s.srcByte (8 * w + n)).isLt
    simp only [State.wordBytes, Nat.pow_succ]
    omega

/-- A stream word has 64 bits. -/
theorem State.streamWord_lt (s : State) (w : Nat) : s.streamWord w < 2 ^ 64 := s.wordBytes_lt w 8

/-- After a fetch the L1 word is the stream word asked for, where matching tags tell the truth (R85). -/
theorem State.fetchWord_l1Word_of (s : State) (w : Nat) (hp : s.params.Legal)
    (h1 : tagIs s.bs.l1Tag w = true → s.bs.l1Word.toNat = s.streamWord w)
    (h2 : tagIs s.bs.l2Tag (8 * w / s.params.l2Bytes) = true → ∀ j, j < s.params.l2Bytes →
      s.bs.l2Data.read j = s.srcByte (8 * w / s.params.l2Bytes * s.params.l2Bytes + j)) :
    (s.fetchWord w).bs.l1Word.toNat = s.streamWord w := by
  unfold State.fetchWord
  split
  · rename_i hm
    exact h1 hm
  · have hw : (s.ensureLine (8 * w / s.params.l2Bytes)).bs.l2Data.readBE (8 * w % s.params.l2Bytes) 8 =
        s.streamWord w := by
      refine s.readBE_eq_wordBytes _ _ w 8 fun j hj => ?_
      obtain ⟨⟨h8, hle, -⟩, -⟩ := hp
      have hd := Nat.div_add_mod (8 * w) s.params.l2Bytes
      have hr : 8 * w % s.params.l2Bytes % 8 = 0 := by
        rw [Nat.mod_mod_of_dvd _ (Nat.dvd_of_mod_eq_zero h8)]; omega
      have hlt := Nat.mod_lt (8 * w) (show s.params.l2Bytes > 0 by omega)
      rw [s.ensureLine_data _ h2 _ (by omega)]
      congr 1
      rw [Nat.mul_comm] at hd
      omega
    have := s.streamWord_lt w
    simp only [State.setBs_bs, hw, BitVec.toNat_ofNat]
    omega

/-- After a fetch through coherent buffers the L1 word is the stream word asked for (R85). -/
theorem State.fetchWord_l1Word (s : State) (w : Nat) (hp : s.params.Legal) (h : s.BuffersOk) :
    (s.fetchWord w).bs.l1Word.toNat = s.streamWord w := by
  refine s.fetchWord_l1Word_of w hp (fun hm => ?_) (s.line_of_tagIs h _)
  obtain ⟨t, ht, rfl⟩ := (tagIs_iff _ _).1 hm
  exact h.1 t ht

/-- A fetch of a word whose number fits the tag keeps the buffers coherent. -/
theorem State.fetchWord_buffersOk (s : State) (w : Nat) (hp : s.params.Legal) (h : s.BuffersOk) (hw : w < 2 ^ 32) :
    (s.fetchWord w).BuffersOk := by
  have hsame := s.fetchWord_same w
  have hword := s.fetchWord_l1Word w hp h
  have hparams : (s.fetchWord w).params = s.params := ((sameButBuffers_iff _ _).1 hsame).1
  refine ⟨fun t ht => ?_, fun t ht j hj => ?_⟩
  · rw [hsame.streamWord]
    unfold State.fetchWord at ht hword ⊢
    split at ht
    · rename_i hm; rw [if_pos hm]; exact h.1 t ht
    · rename_i hm
      rw [if_neg hm] at hword ⊢
      simp only [State.setBs_bs, Option.some.injEq] at ht
      subst ht
      rw [hword, BitVec.toNat_ofNat, Nat.mod_eq_of_lt (by omega)]
  · rw [hparams] at hj ⊢
    rw [hsame.srcByte]
    have hl : 8 * w / s.params.l2Bytes < 2 ^ 32 := by
      obtain ⟨⟨-, hle, -⟩, -⟩ := hp
      calc 8 * w / s.params.l2Bytes ≤ 8 * w / 8 := Nat.div_le_div_left hle (by omega)
        _ < 2 ^ 32 := by omega
    unfold State.fetchWord at ht ⊢
    split at ht
    · rename_i hm; rw [if_pos hm]; exact h.2 t ht j hj
    · rename_i hm
      rw [if_neg hm]
      simp only [State.setBs_bs] at ht ⊢
      rw [s.ensureLine_data _ (s.line_of_tagIs h _) j hj]
      unfold State.ensureLine at ht
      split at ht
      · rename_i hl2
        obtain ⟨t', ht', he⟩ := (tagIs_iff _ _).1 hl2
        rw [ht', Option.some.injEq] at ht
        subst ht
        rw [he]
      · simp only [State.loadLine, State.setBs_bs, Option.some.injEq] at ht
        subst ht
        rw [BitVec.toNat_ofNat, Nat.mod_eq_of_lt (by omega)]

/-- A second fetch, of the next word, brings that word too, even where its number does not fit the tag. -/
theorem State.fetchWord_next_l1Word (s : State) (w : Nat) (hp : s.params.Legal) (h : s.BuffersOk) :
    ((s.fetchWord w).fetchWord (w + 1)).bs.l1Word.toNat = s.streamWord (w + 1) := by
  have hsame := s.fetchWord_same w
  have hparams : (s.fetchWord w).params = s.params := ((sameButBuffers_iff _ _).1 hsame).1
  rcases Nat.lt_or_ge w (2 ^ 32) with hw | hw
  · rw [State.fetchWord_l1Word _ _ (hparams ▸ hp) (s.fetchWord_buffersOk w hp h hw), hsame.streamWord]
  · have hno : ∀ t : Word, t.toNat ≠ w ∧ t.toNat ≠ w + 1 := fun t => by have := t.isLt; omega
    have hmiss : ¬ tagIs s.bs.l1Tag w = true := by
      rw [tagIs_iff]; rintro ⟨t, -, ht⟩; exact (hno t).1 ht
    rw [State.fetchWord_l1Word_of _ _ (hparams ▸ hp), hsame.streamWord]
    · rw [tagIs_iff]
      rintro ⟨t, -, ht⟩
      exact absurd ht (hno t).2
    · rw [hparams, tagIs_iff]
      rintro ⟨t, ht, he⟩ j hj
      have hle : 8 * w / s.params.l2Bytes ≤ 8 * (w + 1) / s.params.l2Bytes := Nat.div_le_div_right (by omega)
      have ht32 := t.isLt
      rw [hsame.srcByte]
      unfold State.fetchWord at ht ⊢
      rw [if_neg hmiss] at ht ⊢
      simp only [State.setBs_bs] at ht ⊢
      rw [s.ensureLine_data _ (s.line_of_tagIs h _) j hj]
      unfold State.ensureLine at ht
      split at ht
      · rename_i hm
        obtain ⟨t', ht', he'⟩ := (tagIs_iff _ _).1 hm
        rw [ht', Option.some.injEq] at ht
        subst ht
        rw [← he, ← he']
      · simp only [State.loadLine, State.setBs_bs, Option.some.injEq] at ht
        subst ht
        rw [BitVec.toNat_ofNat] at he
        have : 8 * w / s.params.l2Bytes % 2 ^ 32 ≤ 8 * w / s.params.l2Bytes := Nat.mod_le _ _
        rw [show 8 * (w + 1) / s.params.l2Bytes = 8 * w / s.params.l2Bytes by omega]

/-- An extraction whose words fit the tag keeps the buffers coherent. -/
theorem State.extract_buffersOk (s : State) (p n : Nat) (hp : s.params.Legal) (h : s.BuffersOk)
    (hw : p / 64 + 1 < 2 ^ 32) : (s.extract p n).2.BuffersOk := by
  unfold State.extract
  split
  · exact h
  · dsimp only
    have h1 := s.fetchWord_buffersOk (p / 64) hp h (by omega)
    have hp1 : (s.fetchWord (p / 64)).params.Legal := by
      rw [((sameButBuffers_iff _ _).1 (s.fetchWord_same (p / 64))).1]; exact hp
    split
    · exact h1
    · exact State.fetchWord_buffersOk _ _ hp1 h1 hw

/-- Buffers that a change of position or response leaves alone stay coherent. -/
theorem State.buffersOk_of_eq {s t : State} (h : s.BuffersOk) (hparams : t.params = s.params) (hsrc : t.src = s.src)
    (hbs : t.bs = { s.bs with pos := t.bs.pos, err := t.bs.err }) : t.BuffersOk := by
  have hb : ∀ i, t.srcByte i = s.srcByte i := fun i => by simp only [State.srcByte, hsrc]; rw [hbs]
  have hw : ∀ w n, t.wordBytes w n = s.wordBytes w n := by
    intro w n
    induction n with
    | zero => rfl
    | succ n ih => simp only [State.wordBytes, ih, hb]
  refine ⟨fun u hu => ?_, fun u hu j hj => ?_⟩
  · rw [hbs] at hu ⊢
    simpa only [State.streamWord, hw] using h.1 u hu
  · rw [hparams] at hj ⊢
    rw [hb]
    rw [hbs] at hu ⊢
    exact h.2 u hu j hj

/-! ### Fields of the stream (R31) -/

/-- A field of `n` bits is below `2^n`. -/
theorem State.bits_lt (s : State) (p n : Nat) : s.bits p n < 2 ^ n := by
  induction n with
  | zero => simp [State.bits]
  | succ n ih =>
    have : (s.streamBit (p + n)).toNat ≤ 1 := by cases s.streamBit (p + n) <;> simp
    simp only [State.bits, Nat.pow_succ]
    omega

/-- Consecutive fields join, the first most significant. -/
theorem State.bits_append (s : State) (p n k : Nat) :
    s.bits p (n + k) = s.bits p n * 2 ^ k + s.bits (p + n) k := by
  induction k with
  | zero => simp [State.bits]
  | succ k ih =>
    rw [← Nat.add_assoc]
    simp only [State.bits, ih, Nat.pow_succ, Nat.add_assoc]
    ring

/-- A field of one bit. -/
theorem State.bits_one (s : State) (p : Nat) : s.bits p 1 = (s.streamBit p).toNat := by simp [State.bits]

/-- Eight bits at a byte boundary are the byte. -/
theorem State.bits_byte (s : State) (i : Nat) : s.bits (8 * i) 8 = (s.srcByte i).toNat := by
  have hbit : ∀ j, j < 8 → s.streamBit (8 * i + j) = (s.srcByte i).getLsbD (7 - j) := by
    intro j hj
    simp only [State.streamBit]
    rw [show (8 * i + j) / 8 = i by omega, show (8 * i + j) % 8 = j by omega]
  have h0 := hbit 0 (by omega)
  simp only [Nat.add_zero] at h0
  simp only [State.bits, Nat.add_zero, h0, hbit 1 (by omega), hbit 2 (by omega), hbit 3 (by omega),
    hbit 4 (by omega), hbit 5 (by omega), hbit 6 (by omega), hbit 7 (by omega)]
  generalize s.srcByte i = b
  revert b
  decide

/-- The first `8 n` bits of a word are its first `n` bytes. -/
theorem State.bits_wordBytes (s : State) (w n : Nat) : s.bits (64 * w) (8 * n) = s.wordBytes w n := by
  induction n with
  | zero => rfl
  | succ n ih =>
    rw [Nat.mul_succ, s.bits_append, ih, show 64 * w + 8 * n = 8 * (8 * w + n) by ring, s.bits_byte]
    simp only [State.wordBytes]
    omega

/-- A stream word is the 64 bits it holds (R84). -/
theorem State.streamWord_eq_bits (s : State) (w : Nat) : s.streamWord w = s.bits (64 * w) 64 :=
  (s.bits_wordBytes w 8).symm

/-- Beyond the end of the stream every bit is 0 (R45). -/
theorem State.srcByte_of_le (s : State) (i : Nat) (h : s.bs.size.toNat ≤ i) : s.srcByte i = 0 := by
  rw [State.srcByte, if_neg (by omega)]

/-! ### Checks and the sticky error (R70, R72) -/

section

variable (s : State) (failValue : DWord) (act : State)

/-- With no open stream. -/
theorem State.onStream_closed (h : s.bs.isOpen = false) : s.onStream failValue act = s.fail .notReady := by
  simp [State.onStream, h]

/-- Under the sticky error. -/
theorem State.onStream_err (h : s.bs.isOpen = true) (he : s.bs.err = true) :
    s.onStream failValue act = s.respond .readFail failValue 0 := by
  simp [State.onStream, h, he]

/-- With an open stream and no error. -/
theorem State.onStream_ready (h : s.bs.isOpen = true) (he : s.bs.err = false) : s.onStream failValue act = act := by
  simp [State.onStream, h, he]

/-- All it can do. -/
theorem State.onStream_cases :
    (s.bs.isOpen = false ∧ s.onStream failValue act = s.fail .notReady) ∨
    (s.bs.isOpen = true ∧ s.bs.err = true ∧ s.onStream failValue act = s.respond .readFail failValue 0) ∨
    (s.bs.isOpen = true ∧ s.bs.err = false ∧ s.onStream failValue act = act) := by
  cases h : s.bs.isOpen
  · exact .inl ⟨rfl, s.onStream_closed _ _ h⟩
  · cases he : s.bs.err
    · exact .inr (.inr ⟨rfl, rfl, s.onStream_ready _ _ h he⟩)
    · exact .inr (.inl ⟨rfl, rfl, s.onStream_err _ _ h he⟩)

end

/-- Where `n` bits remain, `advance` moves the position by exactly `n`. -/
theorem State.advance_pos (s : State) (n : Nat) (hs : s.StreamOk) (hn : n ≤ s.remaining) :
    (s.advance n).bs.pos.toNat = s.bs.pos.toNat + n := by
  have h := hs.1
  have := s.bs.size.isLt
  simp only [State.remaining, State.bitlen] at hn h
  simp only [State.advance_bs, BitVec.toNat_add, BitVec.toNat_ofNat]
  omega

/-- ... and the stream invariant stays. -/
theorem State.advance_streamOk (s : State) (n : Nat) (hs : s.StreamOk) (hn : n ≤ s.remaining) :
    (s.advance n).StreamOk := by
  refine ⟨?_, hs.2⟩
  rw [s.advance_pos n hs hn]
  have := hs.1
  simp only [State.remaining, State.advance_bitlen] at hn ⊢
  omega

/-- ... and what remains is less by `n`. -/
theorem State.advance_remaining (s : State) (n : Nat) (hs : s.StreamOk) (hn : n ≤ s.remaining) :
    (s.advance n).remaining = s.remaining - n := by
  have h := s.advance_pos n hs hn
  simp only [State.remaining, h, State.advance_bitlen]
  omega

/-- The stream invariant does not see the buffers. -/
theorem SameButBuffers.streamOk {s t : State} (h : SameButBuffers s t) (hs : s.StreamOk) : t.StreamOk := by
  rw [sameButBuffers_iff] at h
  simpa [State.StreamOk, State.bitlen, h] using hs

/-- `advance` leaves coherent buffers coherent. -/
theorem State.advance_buffersOk (s : State) (n : Nat) (h : s.BuffersOk) : (s.advance n).BuffersOk :=
  State.buffersOk_of_eq h rfl rfl rfl

end Sys2Proof.Machine
end

