-- ==== Sys2Proof/Laws/Huffman.lean ====
section
/-! SUPPORT. The Huffman unit: what an insertion does to the nodes, that a build leaves a well-formed tree of bounded
size, the parts of a table word, and the outcomes of the decode. -/

namespace Sys2Proof.Machine

/-! ### Nodes -/

@[simp] theorem emptyWord_toNat : emptyWord.toNat = 4294967295 := rfl

@[simp] theorem Node.isLeaf_fresh : Node.fresh.isLeaf = false := rfl

theorem Node.isLeaf_iff (nd : Node) : nd.isLeaf = true ↔ nd.b0 = nd.b1 ∧ nd.b0 ≠ emptyWord := by
  simp [Node.isLeaf]

theorem Node.ext_iff' (a b : Node) : a = b ↔ a.b0 = b.b0 ∧ a.b1 = b.b1 := by cases a; cases b; simp

/-- A node that is there. -/
theorem nodeAt_of_lt (ns : List Node) (j : Nat) (h : j < ns.length) : nodeAt ns j = ns[j] := by
  simp [nodeAt, List.getD, h]

/-- A node that is not. -/
theorem nodeAt_of_le (ns : List Node) (j : Nat) (h : ns.length ≤ j) : nodeAt ns j = Node.fresh := by
  simp [nodeAt, List.getD, h]

/-- Reading nodes after one was replaced. -/
theorem nodeAt_set (ns : List Node) (j k : Nat) (nd : Node) (h : j < ns.length) :
    nodeAt (ns.set j nd) k = if k = j then nd else nodeAt ns k := by
  by_cases hk : k = j
  · subst hk; simp [nodeAt, List.getD, h]
  · simp [nodeAt, List.getD, hk, List.getElem?_set_ne (Ne.symm hk)]

/-- Appending a fresh node changes no node. -/
theorem nodeAt_append_fresh (ns : List Node) (k : Nat) : nodeAt (ns ++ [Node.fresh]) k = nodeAt ns k := by
  rcases Nat.lt_trichotomy k ns.length with h | h | h
  · simp [nodeAt, List.getD, List.getElem?_append, h]
  · subst h; simp [nodeAt, List.getD]
  · rw [nodeAt_of_le _ _ (by simp; omega), nodeAt_of_le _ _ (by omega)]

/-! ### Trees under construction (R101, R102) -/

/-- A larger node count keeps a branch legal. -/
theorem BranchOk.mono {c c' j : Nat} {b : Word} (h : BranchOk c j b) (hc : c ≤ c') : BranchOk c' j b :=
  h.imp id fun ⟨h1, h2⟩ => ⟨h1, by omega⟩

/-- A larger node count keeps a node legal. -/
theorem NodeOk.mono {c c' j : Nat} {nd : Node} (h : NodeOk c j nd) (hc : c ≤ c') : NodeOk c' j nd :=
  h.imp id fun h => h.imp id fun ⟨h0, h1, h2⟩ => ⟨h0, h1.mono hc, h2.mono hc⟩

/-- A legal node that is no leaf has two legal branches. -/
theorem NodeOk.branches {c j : Nat} {nd : Node} (h : NodeOk c j nd) (hl : nd.isLeaf = false) :
    BranchOk c j nd.b0 ∧ BranchOk c j nd.b1 := by
  rcases h with rfl | ⟨h, hlt⟩ | ⟨-, h0, h1⟩
  · exact ⟨.inl rfl, .inl rfl⟩
  · have : nd.isLeaf = true := by
      rw [Node.isLeaf_iff]
      refine ⟨h, fun he => ?_⟩
      rw [he, emptyWord_toNat] at hlt
      omega
    rw [this] at hl; cases hl
  · exact ⟨h0, h1⟩

/-- A legal branch of a node that is no leaf: `EMPTY`, or a later node in use. -/
theorem NodeOk.branch {c j : Nat} {nd : Node} (h : NodeOk c j nd) (hl : nd.isLeaf = false) (bit : Bool) :
    BranchOk c j (nd.branch bit) := by
  cases bit
  · exact (h.branches hl).1
  · exact (h.branches hl).2

/-- A legal leaf's symbol has 27 bits. -/
theorem NodeOk.leaf {c j : Nat} {nd : Node} (h : NodeOk c j nd) (hl : nd.isLeaf = true) :
    nd.b0 = nd.b1 ∧ nd.b0.toNat < 2 ^ 27 := by
  rw [Node.isLeaf_iff] at hl
  rcases h with rfl | h | ⟨h, -, -⟩
  · exact absurd rfl hl.2
  · exact h
  · exact absurd hl.1 h

/-- Linking a new node into an `EMPTY` branch keeps a node legal and no leaf. -/
theorem NodeOk.link {c j : Nat} {nd : Node} (h : NodeOk c j nd) (hl : nd.isLeaf = false) (bit : Bool) (hj : j < c)
    (hc : c < 4294967295) :
    NodeOk (c + 1) j (nd.setBranch bit (BitVec.ofNat 32 c)) ∧
      (nd.setBranch bit (BitVec.ofNat 32 c)).isLeaf = false := by
  obtain ⟨h0, h1⟩ := h.branches hl
  have hcn : (BitVec.ofNat 32 c).toNat = c := by simp; omega
  have hne : ∀ b, BranchOk c j b → b ≠ BitVec.ofNat 32 c := by
    rintro b hb rfl
    rcases hb with hb | ⟨-, hb⟩
    · rw [hb, emptyWord_toNat] at hcn; omega
    · omega
  have hnew : BranchOk (c + 1) j (BitVec.ofNat 32 c) := .inr (by omega)
  have key : ∀ nd' : Node, nd'.b0 ≠ nd'.b1 → BranchOk (c + 1) j nd'.b0 → BranchOk (c + 1) j nd'.b1 →
      NodeOk (c + 1) j nd' ∧ nd'.isLeaf = false := fun nd' hd k0 k1 =>
    ⟨.inr (.inr ⟨hd, k0, k1⟩), by
      rw [← Bool.not_eq_true, Node.isLeaf_iff]
      exact fun hh => hd hh.1⟩
  cases bit
  · exact key _ (Ne.symm (hne _ h1)) hnew (h1.mono (by omega))
  · exact key _ (hne _ h0) (h0.mono (by omega)) hnew

/-- The nodes of a tree under construction: at least the root, at most `cap`, each legal. -/
def NodesOk (cap : Nat) (ns : List Node) : Prop :=
  1 ≤ ns.length ∧ ns.length ≤ cap ∧ (∀ j, j < ns.length → NodeOk ns.length j (nodeAt ns j)) ∧
  (nodeAt ns 0).isLeaf = false

/-- A fresh root. -/
theorem nodesOk_fresh (cap : Nat) (h : 1 ≤ cap) : NodesOk cap [Node.fresh] := by
  refine ⟨by simp, by simpa using h, fun j hj => ?_, rfl⟩
  obtain rfl : j = 0 := by simpa using hj
  exact .inl rfl

/-- All a walk can do: fail with one of two statuses, or answer a tree with at most `i` more nodes and, unless it
walks no bit, a node behind where it began. -/
theorem insertWalk_spec (cap : Nat) (hcap : cap < 4294967295) (code : Word) (i j : Nat) (ns : List Node)
    (h : NodesOk cap ns) (hj : j < ns.length) :
    match insertWalk cap code i j ns with
    | .error st => st = .huffPrefixPresent ∨ (st = .allocFail ∧ cap < ns.length + i)
    | .ok (j', ns') =>
      NodesOk cap ns' ∧ ns.length ≤ ns'.length ∧ ns'.length ≤ ns.length + i ∧ j' < ns'.length ∧ j ≤ j' ∧
        (1 ≤ i → j < j') := by
  induction i generalizing j ns with
  | zero => exact ⟨h, le_refl _, by omega, hj, le_refl _, by omega⟩
  | succ i ih =>
    obtain ⟨h1, h2, h3, h4⟩ := h
    rw [insertWalk]
    by_cases hleaf : (nodeAt ns j).isLeaf = true
    · rw [if_pos hleaf]; exact .inl rfl
    · rw [Bool.not_eq_true] at hleaf
      rw [if_neg (by simp [hleaf])]
      dsimp only
      by_cases hb : (nodeAt ns j).branch (code.getLsbD i) = emptyWord
      · rw [if_pos hb]
        by_cases hc : ns.length = cap
        · rw [if_pos hc]; exact .inr ⟨rfl, by omega⟩
        · rw [if_neg hc]
          obtain ⟨k1, k2⟩ := (h3 j hj).link hleaf (code.getLsbD i) hj (by omega)
          have hat : ∀ k, nodeAt (ns.set j ((nodeAt ns j).setBranch (code.getLsbD i) (BitVec.ofNat 32 ns.length)) ++
              [Node.fresh]) k =
              if k = j then (nodeAt ns j).setBranch (code.getLsbD i) (BitVec.ofNat 32 ns.length)
              else nodeAt ns k := fun k => by rw [nodeAt_append_fresh, nodeAt_set _ _ _ _ hj]
          have hok : NodesOk cap (ns.set j ((nodeAt ns j).setBranch (code.getLsbD i) (BitVec.ofNat 32 ns.length)) ++
              [Node.fresh]) := by
            refine ⟨by simp, by simp; omega, fun k hk => ?_, ?_⟩
            · simp only [List.length_append, List.length_set, List.length_singleton] at hk ⊢
              rw [hat]
              split
              · rename_i he; subst he; exact k1
              · rcases Nat.lt_or_ge k ns.length with hk' | hk'
                · exact (h3 k hk').mono (by omega)
                · rw [nodeAt_of_le _ _ hk']; exact .inl rfl
            · rw [hat]; split
              · exact k2
              · exact h4
          have hrec := ih ns.length _ hok (by simp)
          simp only [List.length_append, List.length_set, List.length_singleton] at hrec
          revert hrec
          cases insertWalk cap code i ns.length _ with
          | error st => exact fun hrec => hrec.imp id fun ⟨a, b⟩ => ⟨a, by omega⟩
          | ok r =>
            rintro ⟨a, b, c, d, e, -⟩
            exact ⟨a, by omega, by omega, d, by omega, fun _ => by omega⟩
      · rw [if_neg hb]
        rcases (h3 j hj).branch hleaf (code.getLsbD i) with hbr | ⟨hbr, hlt⟩
        · exact absurd hbr hb
        · have hrec := ih _ ns ⟨h1, h2, h3, h4⟩ hlt
          revert hrec
          cases insertWalk cap code i ((nodeAt ns j).branch (code.getLsbD i)).toNat ns with
          | error st => exact fun hrec => hrec.imp id fun ⟨a, b⟩ => ⟨a, by omega⟩
          | ok r =>
            rintro ⟨a, b, c, d, e, -⟩
            exact ⟨a, b, by omega, d, by omega, fun _ => by omega⟩

/-- All an insertion can do: fail with one of three statuses, or leave a well-formed tree with at most `length` more
nodes. -/
theorem insertCode_spec (cap : Nat) (hcap : cap < 4294967295) (code symbol : Word) (length : Nat) (ns : List Node)
    (h : NodesOk cap ns) (hl : 1 ≤ length) :
    match insertCode cap code length symbol ns with
    | .error st =>
      st = .huffPrefixPresent ∨ (st = .allocFail ∧ cap < ns.length + length) ∨
        (st = .huffReservedSymbol ∧ 2 ^ 27 ≤ symbol.toNat)
    | .ok ns' => NodesOk cap ns' ∧ ns'.length ≤ ns.length + length := by
  have hsym : symbol.extractLsb' 27 5 = 0 ↔ symbol.toNat < 2 ^ 27 := by
    have := symbol.isLt
    rw [← BitVec.toNat_inj, BitVec.extractLsb'_toNat]
    simp only [Nat.shiftRight_eq_div_pow, BitVec.ofNat_eq_ofNat, BitVec.toNat_ofNat]
    omega
  rw [insertCode]
  by_cases hs : symbol.extractLsb' 27 5 = 0
  · rw [if_neg (by simpa using hs)]
    have hs := hsym.1 hs
    have hw := insertWalk_spec cap hcap code length 0 ns h h.1
    revert hw
    cases insertWalk cap code length 0 ns with
    | error st => exact fun hw => hw.imp id .inl
    | ok r =>
      obtain ⟨j, ns'⟩ := r
      rintro ⟨⟨a1, a2, a3, a4⟩, -, b, c, -, d⟩
      by_cases hf : nodeAt ns' j = Node.fresh
      · simp only [hf, if_true]
        refine ⟨⟨by simpa using a1, by simpa using a2, fun k hk => ?_, ?_⟩, by simpa using b⟩
        · simp only [List.length_set] at hk ⊢
          rw [nodeAt_set _ _ _ _ c]
          split
          · exact .inr (.inl ⟨rfl, hs⟩)
          · exact a3 k hk
        · rw [nodeAt_set _ _ _ _ c, if_neg (by have := d hl; omega)]
          exact a4
      · simp only [hf, if_false]
        exact .inl trivial
  · rw [if_pos hs]
    have := mt hsym.2 hs
    exact .inr (.inr ⟨rfl, by omega⟩)

/-! ### Builds (R105, R107, R108) -/

/-- The staged entries: index `i` with what the staging memory reads there. -/
theorem mem_stagedEntries (stage : List (Nat × StageEntry)) (count i : Nat) (e : StageEntry) :
    (i, e) ∈ stagedEntries stage count ↔ i < count ∧ e = Cells.read StageEntry.zero stage i := by
  simp only [stagedEntries, List.mem_map, List.mem_range, Prod.mk.injEq]
  constructor
  · rintro ⟨k, hk, rfl, rfl⟩; exact ⟨hk, rfl⟩
  · rintro ⟨hi, rfl⟩; exact ⟨i, hi, rfl, rfl⟩

@[simp] theorem length_stagedEntries (stage : List (Nat × StageEntry)) (count : Nat) :
    (stagedEntries stage count).length = count := by simp [stagedEntries]

/-- The length check of `HUF.BUILDC`, entry by entry. -/
theorem stagedLengthsOk_iff (maxlen : Nat) (stage : List (Nat × StageEntry)) (count : Nat) :
    stagedLengthsOk maxlen (stagedEntries stage count) = true ↔
      ∀ j, j < count →
        1 ≤ (Cells.read StageEntry.zero stage j).length.toNat ∧
        (Cells.read StageEntry.zero stage j).length.toNat ≤ maxlen := by
  simp [stagedLengthsOk, stagedEntries]

/-- The bits the entries of length `len` add. -/
def levelBits (len : Nat) (entries : List (Nat × StageEntry)) : Nat :=
  len * entries.countP fun e => e.2.length.toNat == len

/-- All one length of the canonical build can do. -/
theorem canonicalLevel_spec (cap : Nat) (hcap : cap < 4294967295) (len : Nat) (hlen : 1 ≤ len)
    (entries : List (Nat × StageEntry)) (he : ∀ e ∈ entries, e.1 < 2 ^ 27) (code : Word) (ns : List Node)
    (h : NodesOk cap ns) :
    match canonicalLevel cap len entries (code, ns) with
    | .error st => st = .huffPrefixPresent ∨ (st = .allocFail ∧ cap < ns.length + levelBits len entries)
    | .ok (_, ns') => NodesOk cap ns' ∧ ns'.length ≤ ns.length + levelBits len entries := by
  induction entries generalizing code ns with
  | nil => exact ⟨h, by omega⟩
  | cons e entries ih =>
    obtain ⟨i, e⟩ := e
    have hi : i < 2 ^ 27 := he (i, e) (by simp)
    have ih := ih fun e h => he e (by simp [h])
    rw [canonicalLevel]
    by_cases hel : e.length.toNat = len
    · have hbits : levelBits len ((i, e) :: entries) = levelBits len entries + len := by
        simp [levelBits, hel, Nat.mul_add]
      rw [if_pos hel, hbits]
      have hins := insertCode_spec cap hcap code (BitVec.ofNat 32 i) len ns h hlen
      revert hins
      cases insertCode cap code len (BitVec.ofNat 32 i) ns with
      | error st =>
        rintro (hs | ⟨hs, hc⟩ | ⟨-, hs⟩)
        · exact .inl hs
        · exact .inr ⟨hs, by omega⟩
        · rw [BitVec.toNat_ofNat] at hs; omega
      | ok ns1 =>
        rintro ⟨h1, hl1⟩
        have hrec := ih (code + 1) ns1 h1
        revert hrec
        dsimp only
        cases canonicalLevel cap len entries (code + 1, ns1) with
        | error st => exact fun hrec => hrec.imp id fun ⟨a, b⟩ => ⟨a, by omega⟩
        | ok r => exact fun ⟨a, b⟩ => ⟨a, by omega⟩
    · have hbits : levelBits len ((i, e) :: entries) = levelBits len entries := by
        simp [levelBits, hel]
      rw [if_neg hel, hbits]
      exact ih code ns h

/-- All the canonical insertion loop can do. -/
theorem canonicalLevels_spec (cap : Nat) (hcap : cap < 4294967295) (entries : List (Nat × StageEntry))
    (he : ∀ e ∈ entries, e.1 < 2 ^ 27) (lens : List Nat) (hlens : ∀ l ∈ lens, 1 ≤ l) (code : Word) (ns : List Node)
    (h : NodesOk cap ns) :
    match canonicalLevels cap entries lens (code, ns) with
    | .error st =>
      st = .huffPrefixPresent ∨
        (st = .allocFail ∧ cap < ns.length + (lens.map fun l => levelBits l entries).sum)
    | .ok ns' => NodesOk cap ns' := by
  induction lens generalizing code ns with
  | nil => exact h
  | cons len lens ih =>
    have ih := ih fun l hl => hlens l (by simp [hl])
    rw [canonicalLevels]
    have hlev := canonicalLevel_spec cap hcap len (hlens len (by simp)) entries he code ns h
    revert hlev
    simp only [List.map_cons, List.sum_cons]
    cases canonicalLevel cap len entries (code, ns) with
    | error st => exact fun hlev => hlev.imp id fun ⟨a, b⟩ => ⟨a, by omega⟩
    | ok r =>
      obtain ⟨code1, ns1⟩ := r
      rintro ⟨h1, hl1⟩
      have hrec := ih (code1 <<< 1) ns1 h1
      revert hrec
      dsimp only
      cases canonicalLevels cap entries lens (code1 <<< 1, ns1) with
      | error st => exact fun hrec => hrec.imp id fun ⟨a, b⟩ => ⟨a, by omega⟩
      | ok r => exact id

/-- All the insertion loop of `HUF.BUILDL` can do. -/
theorem canonicalBuild_spec (cap : Nat) (h1 : 1 ≤ cap) (hcap : cap < 4294967295) (entries : List (Nat × StageEntry))
    (he : ∀ e ∈ entries, e.1 < 2 ^ 27) (maxlen : Nat) :
    match canonicalBuild cap entries maxlen with
    | .error st =>
      st = .huffPrefixPresent ∨
        (st = .allocFail ∧ cap < 1 + ((List.range maxlen).map fun l => levelBits (l + 1) entries).sum)
    | .ok ns => NodesOk cap ns := by
  have h := canonicalLevels_spec cap hcap entries he ((List.range maxlen).map (· + 1)) (by simp) 0 [Node.fresh]
    (nodesOk_fresh cap h1)
  simpa only [canonicalBuild, List.map_map, Function.comp_def, List.length_singleton] using h

/-- All the insertion loop of `HUF.BUILDC` can do. -/
theorem explicitInserts_spec (cap : Nat) (hcap : cap < 4294967295) (entries : List (Nat × StageEntry))
    (he : ∀ e ∈ entries, 1 ≤ e.2.length.toNat) (ns : List Node) (h : NodesOk cap ns) :
    match explicitInserts cap entries ns with
    | .error st =>
      st = .huffPrefixPresent ∨ st = .huffReservedSymbol ∨
        (st = .allocFail ∧ cap < ns.length + (entries.map fun e => e.2.length.toNat).sum)
    | .ok ns' => NodesOk cap ns' := by
  induction entries generalizing ns with
  | nil => exact h
  | cons e entries ih =>
    obtain ⟨i, e⟩ := e
    have ih := ih fun e h => he e (by simp [h])
    rw [explicitInserts]
    have hins := insertCode_spec cap hcap e.code e.symbol e.length.toNat ns h (he (i, e) (by simp))
    revert hins
    simp only [List.map_cons, List.sum_cons]
    cases insertCode cap e.code e.length.toNat e.symbol ns with
    | error st =>
      rintro (hs | ⟨hs, hc⟩ | ⟨hs, -⟩)
      · exact .inl hs
      · exact .inr (.inr ⟨hs, by omega⟩)
      · exact .inr (.inl hs)
    | ok ns1 =>
      rintro ⟨h1, hl1⟩
      have hrec := ih ns1 h1
      revert hrec
      dsimp only
      cases explicitInserts cap entries ns1 with
      | error st => exact fun hrec => hrec.imp id fun hrec => hrec.imp id fun ⟨a, b⟩ => ⟨a, by omega⟩
      | ok r => exact id

/-- All the insertion loop of `HUF.BUILDC` from a fresh root can do. -/
theorem explicitBuild_spec (cap : Nat) (h1 : 1 ≤ cap) (hcap : cap < 4294967295) (entries : List (Nat × StageEntry))
    (he : ∀ e ∈ entries, 1 ≤ e.2.length.toNat) :
    match explicitBuild cap entries with
    | .error st =>
      st = .huffPrefixPresent ∨ st = .huffReservedSymbol ∨
        (st = .allocFail ∧ cap < 1 + (entries.map fun e => e.2.length.toNat).sum)
    | .ok ns => NodesOk cap ns :=
  explicitInserts_spec cap hcap entries he [Node.fresh] (nodesOk_fresh cap h1)

@[simp] theorem length_buildTable (ns : List Node) (d : Nat) : (buildTable ns d).length = 2 ^ d := by
  simp [buildTable]

/-- An entry of the table is the walk of its index (R103). -/
theorem buildTable_getElem? (ns : List Node) (d p : Nat) (h : p < 2 ^ d) :
    (buildTable ns d)[p]? = some (tableWalk ns d p d 0) := by
  simp [buildTable, h]

/-- The slot a successful build leaves is well formed. -/
theorem builtSlot_ok (p : Params) (hp : p.Legal) (maxlen : Nat) (h1 : 1 ≤ maxlen) (h31 : maxlen ≤ 31)
    (ns : List Node) (h : NodesOk p.hufNodeCap ns) : SlotOk p (builtSlot p maxlen ns) := by
  obtain ⟨-, ⟨t1, t16⟩, -, ⟨c1, c2⟩, -⟩ := hp
  obtain ⟨k1, k2, k3, k4⟩ := h
  have hd : (BitVec.ofNat 5 (min maxlen p.tableDepth)).toNat = min maxlen p.tableDepth := by
    rw [BitVec.toNat_ofNat]; omega
  have hm : (BitVec.ofNat 5 maxlen).toNat = maxlen := by rw [BitVec.toNat_ofNat]; omega
  refine ⟨fun h => by simp [builtSlot] at h, fun _ => ?_⟩
  simp only [builtSlot, hd, hm]
  exact ⟨h1, trivial, k1, k2, by rw [BitVec.toNat_ofNat]; omega, ⟨k3, k4⟩, trivial⟩

/-- All the end of a build can do (R108). -/
theorem State.finishBuild_error (s : State) (slot maxlen : Nat) (st : Status) :
    s.finishBuild slot maxlen (.error st) = (s.setSlot slot Slot.free).fail st := rfl

theorem State.finishBuild_ok (s : State) (slot maxlen : Nat) (ns : List Node) :
    s.finishBuild slot maxlen (.ok ns) =
      (s.setSlot slot (builtSlot s.params maxlen ns)).respond .ok
        ((builtSlot s.params maxlen ns).nNodes.setWidth 64) ((builtSlot s.params maxlen ns).depth.setWidth 32) := rfl

/-! ### Table words (R103) -/

/-- The length field of a table word. -/
theorem tableWord_len (len : Nat) (val : Word) (hl : len < 32) (hv : val.toNat < 2 ^ 27) :
    ((tableWord len val).extractLsb' 27 5).toNat = len := by
  have hlt : (len <<< 27) < 2 ^ 32 := by rw [Nat.shiftLeft_eq]; omega
  rw [BitVec.extractLsb'_toNat, tableWord, BitVec.toNat_or, BitVec.toNat_shiftLeft, BitVec.toNat_ofNat,
    Nat.mod_eq_of_lt (show len < 2 ^ 32 by omega), Nat.mod_eq_of_lt hlt, Nat.shiftRight_or_distrib,
    Nat.shiftLeft_shiftRight, Nat.shiftRight_eq_div_pow, Nat.div_eq_of_lt hv, Nat.or_zero, Nat.mod_eq_of_lt hl]

/-- The value field of a table word. -/
theorem tableWord_val (len : Nat) (val : Word) (hl : len < 32) (hv : val.toNat < 2 ^ 27) :
    ((tableWord len val).extractLsb' 0 27).toNat = val.toNat := by
  have hlt : (len <<< 27) < 2 ^ 32 := by rw [Nat.shiftLeft_eq]; omega
  rw [BitVec.extractLsb'_toNat, tableWord, BitVec.toNat_or, BitVec.toNat_shiftLeft, BitVec.toNat_ofNat,
    Nat.mod_eq_of_lt (show len < 2 ^ 32 by omega), Nat.mod_eq_of_lt hlt, Nat.shiftRight_zero,
    Nat.shiftLeft_eq, Nat.mul_comm, ← Nat.two_pow_add_eq_or_of_lt hv]
  omega

/-- The length field of `EMPTY`. -/
theorem emptyWord_len : (emptyWord.extractLsb' 27 5).toNat = 31 := by decide

/-! ### Outcomes of the decode (R109) -/

/-- All a bit-by-bit walk can do, begun on a coherent stream with `rem` bits left: run out at the end of the stream,
find no branch, or answer a symbol; the position moved by the bits used. -/
theorem State.decodeWalk_cases (ns : List Node) (rem j used : Nat) (s : State) (hs : s.StreamOk)
    (hr : s.remaining = rem) :
    ∃ k v, k ≤ rem ∧ SameButBuffers (s.advance k) v ∧
      ((k = rem ∧ State.decodeWalk ns rem j used s = v.overRead) ∨
        State.decodeWalk ns rem j used s = v.fail .huffInvalidCode ∨
        ∃ sym n, State.decodeWalk ns rem j used s = v.respond .ok sym n) := by
  induction rem generalizing j used s with
  | zero =>
    refine ⟨0, s, le_refl _, ?_, .inl ⟨rfl, rfl⟩⟩
    rw [sameButBuffers_iff]; simp
  | succ rem ih =>
    have hx := s.extract_same s.bs.pos.toNat 1
    have hx1 : SameButBuffers (s.advance 1) ((s.extract s.bs.pos.toNat 1).2.advance 1) := hx.advance 1
    rw [State.decodeWalk]
    split
    · exact ⟨1, _, by omega, hx1, .inr (.inl rfl)⟩
    · split
      · exact ⟨1, _, by omega, hx1, .inr (.inr ⟨_, _, rfl⟩)⟩
      · have ha := s.advance_streamOk 1 hs (by omega)
        have hrem := s.advance_remaining 1 hs (by omega)
        obtain ⟨k, v, hk, hv, hout⟩ := ih ((nodeAt ns j).branch ((s.extract s.bs.pos.toNat 1).1 == 1)).toNat
          (used + 1) _ (hx1.streamOk ha) (by rw [hx1.remaining]; omega)
        refine ⟨k + 1, v, by omega, ?_, ?_⟩
        · refine SameButBuffers.trans ?_ hv
          rw [sameButBuffers_iff] at hx1 ⊢
          simp only [hx1, State.advance_params, State.advance_src, State.advance_host, State.advance_rsp,
            State.advance_crc, State.advance_huf, State.advance_lz, State.advance_flt, State.advance_bs, true_and]
          simp only [State.advance_bs] at hx1
          simp only [hx1, true_and, and_true]
          rw [BitVec.add_assoc, ← BitVec.ofNat_add, Nat.add_comm 1 k]
        · rcases hout with ⟨h1, h2⟩ | h
          · exact .inl ⟨by omega, h2⟩
          · exact .inr h

/-- All the decode can do, on a coherent stream: over-read (consuming nothing, or everything), find no code, or answer
a symbol; besides the buffers, the sticky error and the response only the position changes. -/
theorem State.decodeSymbol_cases (s : State) (h : Slot) (hs : s.StreamOk) :
    ∃ k v, k ≤ s.remaining ∧ SameButBuffers (s.advance k) v ∧
      (((k = 0 ∨ k = s.remaining) ∧ s.decodeSymbol h = v.overRead) ∨
        s.decodeSymbol h = v.fail .huffInvalidCode ∨ ∃ sym n, s.decodeSymbol h = v.respond .ok sym n) := by
  have hx := s.extract_same s.bs.pos.toNat h.depth.toNat
  have h0 : SameButBuffers (s.advance 0) (s.extract s.bs.pos.toNat h.depth.toNat).2 := by
    rw [sameButBuffers_iff] at hx ⊢; simp
  have hr := hx.remaining
  rw [State.decodeSymbol]
  split
  · split
    · exact ⟨0, _, by omega, h0, .inl ⟨.inl rfl, rfl⟩⟩
    · exact ⟨_, _, by omega, hx.advance _, .inr (.inr ⟨_, _, rfl⟩)⟩
  · split
    · exact ⟨0, _, by omega, h0, .inl ⟨.inl rfl, rfl⟩⟩
    · split
      · exact ⟨0, _, by omega, h0, .inr (.inl rfl)⟩
      · have hle : h.depth.toNat ≤ s.remaining := by omega
        have ha := s.advance_streamOk h.depth.toNat hs hle
        have hd := hx.advance h.depth.toNat
        have hrem := hd.remaining.trans (s.advance_remaining h.depth.toNat hs hle)
        obtain ⟨k, v, hk, hv, hout⟩ := State.decodeWalk_cases h.node _ _ h.depth.toNat _ (hd.streamOk ha) rfl
        rw [hrem] at hk
        refine ⟨h.depth.toNat + k, v, by omega, ?_, ?_⟩
        · refine SameButBuffers.trans ?_ hv
          rw [sameButBuffers_iff] at hd ⊢
          simp only [State.advance_bs, State.advance_params, State.advance_src, State.advance_host,
            State.advance_rsp, State.advance_crc, State.advance_huf, State.advance_lz, State.advance_flt] at hd ⊢
          simp only [hd, true_and, and_true]
          rw [BitVec.add_assoc, ← BitVec.ofNat_add]
        · rcases hout with ⟨h1, h2⟩ | h
          · exact .inl ⟨.inr (by omega), h2⟩
          · exact .inr h

/-- The walk's frame, in every state: the position, the buffers, the sticky error and the response are all it
changes; each status comes with its error flag. -/
theorem State.decodeWalk_frame (ns : List Node) (rem j used : Nat) (s : State) :
    let t := State.decodeWalk ns rem j used s
    t.params = s.params ∧ t.src = s.src ∧ t.host = s.host ∧ t.crc = s.crc ∧ t.huf = s.huf ∧ t.lz = s.lz ∧
    t.flt = s.flt ∧ t.bs.isOpen = s.bs.isOpen ∧
    (t.rsp = ⟨.readFail, 0, 0⟩ ∧ t.bs.err = true ∨
      t.rsp = ⟨.huffInvalidCode, 0, 0⟩ ∧ t.bs.err = s.bs.err ∨ t.rsp.status = .ok ∧ t.bs.err = s.bs.err) := by
  induction rem generalizing j used s with
  | zero => simp [State.decodeWalk]
  | succ rem ih =>
    rw [State.decodeWalk]
    split
    · simp
    · split
      · simp
      · simpa using ih ((nodeAt ns j).branch ((s.extract s.bs.pos.toNat 1).1 == 1)).toNat (used + 1)
          ((s.extract s.bs.pos.toNat 1).2.advance 1)

/-- The decode's frame, in every state. -/
theorem State.decodeSymbol_frame (s : State) (h : Slot) :
    let t := s.decodeSymbol h
    t.params = s.params ∧ t.src = s.src ∧ t.host = s.host ∧ t.crc = s.crc ∧ t.huf = s.huf ∧ t.lz = s.lz ∧
    t.flt = s.flt ∧ t.bs.isOpen = s.bs.isOpen ∧
    (t.rsp = ⟨.readFail, 0, 0⟩ ∧ t.bs.err = true ∨
      t.rsp = ⟨.huffInvalidCode, 0, 0⟩ ∧ t.bs.err = s.bs.err ∨ t.rsp.status = .ok ∧ t.bs.err = s.bs.err) := by
  rw [State.decodeSymbol]
  split
  · split <;> simp
  · split
    · simp
    · split
      · simp
      · simpa using
          State.decodeWalk_frame h.node ((s.extract s.bs.pos.toNat h.depth.toNat).2.advance h.depth.toNat).remaining
            ((h.table.getD (s.extract s.bs.pos.toNat h.depth.toNat).1.toNat emptyWord).extractLsb' 0 27).toNat
            h.depth.toNat ((s.extract s.bs.pos.toNat h.depth.toNat).2.advance h.depth.toNat)

/-- A bit-by-bit walk keeps coherent buffers coherent. -/
theorem State.decodeWalk_buffersOk (ns : List Node) (rem j used : Nat) (s : State) (hp : s.params.Legal)
    (hs : s.StreamOk) (hb : s.BuffersOk) (hr : s.remaining = rem) :
    (State.decodeWalk ns rem j used s).BuffersOk := by
  induction rem generalizing j used s with
  | zero => exact State.buffersOk_of_eq hb rfl rfl rfl
  | succ rem ih =>
    have hlt : s.bs.pos.toNat / 64 + 1 < 2 ^ 32 := by
      have := hs.1
      have := s.bs.size.isLt
      simp only [State.bitlen] at *
      omega
    have hx := s.extract_buffersOk s.bs.pos.toNat 1 hp hb hlt
    rw [State.decodeWalk]
    split
    · exact State.buffersOk_of_eq hx rfl rfl rfl
    · split
      · exact State.buffersOk_of_eq hx rfl rfl rfl
      · have hx1 := (s.extract_same s.bs.pos.toNat 1).advance 1
        refine ih _ _ _ ?_ (hx1.streamOk (s.advance_streamOk 1 hs (by omega)))
          (State.advance_buffersOk _ _ hx) ?_
        · simpa using hp
        · rw [hx1.remaining, s.advance_remaining 1 hs (by omega)]; omega

/-- The decode keeps coherent buffers coherent. -/
theorem State.decodeSymbol_buffersOk (s : State) (h : Slot) (hp : s.params.Legal) (hs : s.StreamOk)
    (hb : s.BuffersOk) : (s.decodeSymbol h).BuffersOk := by
  have hlt : s.bs.pos.toNat / 64 + 1 < 2 ^ 32 := by
    have := hs.1
    have := s.bs.size.isLt
    simp only [State.bitlen] at *
    omega
  have hx := s.extract_buffersOk s.bs.pos.toNat h.depth.toNat hp hb hlt
  rw [State.decodeSymbol]
  split
  · split
    · exact State.buffersOk_of_eq hx rfl rfl rfl
    · exact State.buffersOk_of_eq hx rfl rfl rfl
  · split
    · exact State.buffersOk_of_eq hx rfl rfl rfl
    · split
      · exact State.buffersOk_of_eq hx rfl rfl rfl
      · rename_i hrem _
        simp only [State.extract_remaining] at hrem
        have hx1 := (s.extract_same s.bs.pos.toNat h.depth.toNat).advance h.depth.toNat
        refine State.decodeWalk_buffersOk _ _ _ _ _ (by simpa using hp)
          (hx1.streamOk (s.advance_streamOk _ hs (by omega))) (State.advance_buffersOk _ _ hx) rfl

end Sys2Proof.Machine
end

