-- ==== Sys2Proof/Laws/Lzss.lean ====
section
/-! SUPPORT. The LZSS unit: the window's mask, what one byte emitted changes, what a copy loop changes and how far it
gets. -/

namespace Sys2Proof.Machine

/-! ### The window's index (R120, R125) -/

/-- The mask is one less than the window size. -/
theorem Lz.mask_toNat (z : Lz) : z.mask.toNat = 2 ^ z.k.toNat - 1 := by
  have hk := z.k.isLt
  have h64 : 2 ^ z.k.toNat < 2 ^ 64 := Nat.pow_lt_pow_right (by omega) (by omega)
  have hpos : 0 < 2 ^ z.k.toNat := Nat.two_pow_pos _
  rw [Lz.mask, BitVec.toNat_sub, BitVec.toNat_shiftLeft, Nat.shiftLeft_eq]
  simp only [BitVec.ofNat_eq_ofNat, BitVec.toNat_ofNat]
  omega

/-- Masking an index reduces it modulo the window size. -/
theorem Lz.and_mask_toNat (z : Lz) (x : DWord) : (x &&& z.mask).toNat = x.toNat % 2 ^ z.k.toNat := by
  rw [BitVec.toNat_and, z.mask_toNat, Nat.and_two_pow_sub_one_eq_mod]

/-- The index behind the write position, as a remainder. -/
theorem Lz.backIndex_eq (z : Lz) (off : Word) :
    z.backIndex off = (z.wpos - off.setWidth 64).toNat % 2 ^ z.k.toNat := z.and_mask_toNat _

/-! ### One byte (R121) -/

section

variable (z : Lz) (b : Byte)

@[simp] theorem Lz.emit_init : (z.emit b).init = z.init := rfl
@[simp] theorem Lz.emit_k : (z.emit b).k = z.k := rfl
@[simp] theorem Lz.emit_wpos : (z.emit b).wpos = z.wpos + 1 := rfl
@[simp] theorem Lz.emit_ovOff : (z.emit b).ovOff = z.ovOff := rfl
@[simp] theorem Lz.emit_ovLen : (z.emit b).ovLen = z.ovLen := rfl
@[simp] theorem Lz.emit_outCap : (z.emit b).outCap = z.outCap := rfl
@[simp] theorem Lz.emit_outLen : (z.emit b).outLen = z.outLen + 1 := rfl
@[simp] theorem Lz.emit_outDiscard : (z.emit b).outDiscard = z.outDiscard := rfl

/-- The window after a byte. -/
theorem Lz.emit_win : (z.emit b).win = z.win.write (z.wpos.toNat % 2 ^ z.k.toNat) b := by
  rw [← z.and_mask_toNat]; rfl

/-- The output buffer after a byte. -/
theorem Lz.emit_out : (z.emit b).out = if z.outDiscard then z.out else z.out.write z.outLen.toNat b := rfl

end

/-- The memories of the unit: canonical, and listing only cells that exist. -/
def LzMemOk (z : Lz) : Prop :=
  (z.win.Wf ∧ z.win.Below (2 ^ z.k.toNat)) ∧ (z.out.Wf ∧ z.out.Below z.outLen.toNat)

/-- A byte emitted where there is room keeps the memories. -/
theorem Lz.emit_memOk (z : Lz) (b : Byte) (h : LzMemOk z) (hroom : z.outLen < z.outCap) : LzMemOk (z.emit b) := by
  obtain ⟨⟨h1, h2⟩, h3, h4⟩ := h
  have hlt : z.outLen.toNat < z.outCap.toNat := hroom
  have := z.outCap.isLt
  have hlen : (z.outLen + 1).toNat = z.outLen.toNat + 1 := by
    rw [BitVec.toNat_add]; simp only [BitVec.ofNat_eq_ofNat, BitVec.toNat_ofNat]; omega
  refine ⟨⟨?_, ?_⟩, ?_, ?_⟩
  · rw [Lz.emit_win]; exact Mem.write_wf _ _ _ h1
  · rw [Lz.emit_win]; exact Mem.write_below _ _ _ _ h2 (Nat.mod_lt _ (Nat.two_pow_pos _))
  · rw [Lz.emit_out]
    split
    · exact h3
    · exact Mem.write_wf _ _ _ h3
  · rw [Lz.emit_out, Lz.emit_outLen, hlen]
    split
    · exact Mem.below_mono _ _ _ h4 (by omega)
    · exact Mem.write_below _ _ _ _ (Mem.below_mono _ _ _ h4 (by omega)) (by omega)

/-! ### The copy loop (R124) -/

@[simp] theorem Lz.copyLoop_zero (off : Word) (z : Lz) : Lz.copyLoop off 0 z = (0, z) := rfl

/-- One round of the loop. -/
theorem Lz.copyLoop_succ (off : Word) (len : Nat) (z : Lz) :
    Lz.copyLoop off (len + 1) z =
      if z.outLen < z.outCap then
        ((Lz.copyLoop off len (z.emit (z.winBack off))).1 + 1, (Lz.copyLoop off len (z.emit (z.winBack off))).2)
      else (0, z) := rfl

/-- What a copy loop does besides the two memories, and how far it gets: to the end or to the buffer's end. -/
theorem Lz.copyLoop_spec (off : Word) (len : Nat) (z : Lz) (h : z.outLen.toNat ≤ z.outCap.toNat) :
    (Lz.copyLoop off len z).1 = min len (z.outCap.toNat - z.outLen.toNat) ∧
    (Lz.copyLoop off len z).2 =
      { z with
        win := (Lz.copyLoop off len z).2.win, out := (Lz.copyLoop off len z).2.out
        outLen := BitVec.ofNat 32 (z.outLen.toNat + (Lz.copyLoop off len z).1)
        wpos := z.wpos + BitVec.ofNat 64 (Lz.copyLoop off len z).1 } := by
  induction len generalizing z with
  | zero => simp
  | succ len ih =>
    rw [Lz.copyLoop_succ]
    by_cases hr : z.outLen < z.outCap
    · have hlt : z.outLen.toNat < z.outCap.toNat := hr
      have := z.outCap.isLt
      have hlen : (z.outLen + 1).toNat = z.outLen.toNat + 1 := by
        rw [BitVec.toNat_add]; simp only [BitVec.ofNat_eq_ofNat, BitVec.toNat_ofNat]; omega
      obtain ⟨h1, h2⟩ := ih (z.emit (z.winBack off)) (by
        rw [Lz.emit_outLen, Lz.emit_outCap, hlen]; omega)
      rw [if_pos hr]
      refine ⟨?_, ?_⟩
      · dsimp only
        rw [h1, Lz.emit_outLen, Lz.emit_outCap, hlen]; omega
      · dsimp only
        conv_lhs => rw [h2]
        simp only [Lz.emit_init, Lz.emit_k, Lz.emit_wpos, Lz.emit_ovOff, Lz.emit_ovLen, Lz.emit_outCap,
          Lz.emit_outLen, Lz.emit_outDiscard, hlen, Lz.mk.injEq, true_and, and_true]
        refine ⟨?_, ?_⟩
        · rw [BitVec.add_assoc, Nat.add_comm _ 1, BitVec.ofNat_add]; rfl
        · rw [Nat.add_assoc, Nat.add_comm 1]
    · have hge : ¬ z.outLen.toNat < z.outCap.toNat := hr
      rw [if_neg hr]
      refine ⟨by dsimp only; omega, by simp⟩

/-- A copy loop keeps the memories. -/
theorem Lz.copyLoop_memOk (off : Word) (len : Nat) (z : Lz) (h : LzMemOk z) : LzMemOk (Lz.copyLoop off len z).2 := by
  induction len generalizing z with
  | zero => exact h
  | succ len ih =>
    rw [Lz.copyLoop_succ]
    split
    · rename_i hr
      exact ih _ (z.emit_memOk _ h hr)
    · exact h

/-- A discarding copy loop leaves the output bytes. -/
theorem Lz.copyLoop_out_discard (off : Word) (len : Nat) (z : Lz) (h : z.outDiscard = true) :
    (Lz.copyLoop off len z).2.out = z.out := by
  induction len generalizing z with
  | zero => rfl
  | succ len ih =>
    rw [Lz.copyLoop_succ]
    split
    · dsimp only
      rw [ih _ (by simpa using h), Lz.emit_out, if_pos h]
    · rfl

/-- Two loops after another are one loop (R128, R187), while the first runs to its end. -/
theorem Lz.copyLoop_add (off : Word) (n k : Nat) (z : Lz) (h : (Lz.copyLoop off n z).1 = n) :
    Lz.copyLoop off (n + k) z =
      (n + (Lz.copyLoop off k (Lz.copyLoop off n z).2).1, (Lz.copyLoop off k (Lz.copyLoop off n z).2).2) := by
  induction n generalizing z with
  | zero => simp
  | succ n ih =>
    rw [show n + 1 + k = (n + k) + 1 by omega, Lz.copyLoop_succ]
    rw [Lz.copyLoop_succ] at h ⊢
    split at h
    · rename_i hr
      rw [if_pos hr, if_pos hr, ih _ (by simpa using h)]
      simp only [Prod.mk.injEq, and_true]
      omega
    · simp at h

end Sys2Proof.Machine
end

