-- ==== Sys2Proof/Laws/PerInstr.lean ====
section
/-! SUPPORT. The encoding, command by command: each command's word carries the opcode of its row of
spec/opcode_table.json and clears the bits its format does not use (30_encoding.md R52, R53, R60). -/

namespace Sys2Proof

/-- The part of a word a format does not fix, field by field. -/
theorem pack_and (opc t mt : Byte) (idx mi : Half) (a ma b mb c mc : Word) :
    pack opc t idx a b c &&& pack 0xFF mt mi ma mb mc =
      pack opc (t &&& mt) (idx &&& mi) (a &&& ma) (b &&& mb) (c &&& mc) := by
  have h : opc &&& 0xFF#8 = opc := BitVec.and_allOnes
  unfold pack
  refine BitVec.and_append.trans (congrArg₂ (· ++ ·) ?_ h)
  refine BitVec.and_append.trans (congrArg₂ (· ++ ·) ?_ rfl)
  refine BitVec.and_append.trans (congrArg₂ (· ++ ·) ?_ rfl)
  exact BitVec.and_append.trans (congrArg₂ (· ++ ·) BitVec.and_append rfl)

/-- A word as a number: each field at its first bit (R51). -/
theorem pack_toNat (opc t : Byte) (idx : Half) (a b c : Word) :
    (pack opc t idx a b c).toNat =
      opc.toNat + 2 ^ 8 * t.toNat + 2 ^ 16 * idx.toNat + 2 ^ 32 * a.toNat + 2 ^ 64 * b.toNat + 2 ^ 96 * c.toNat := by
  unfold pack
  simp only [BitVec.toNat_append, Nat.shiftLeft_eq, ← Nat.two_pow_add_eq_or_of_lt, Nat.mul_comm _ (2 ^ _), BitVec.isLt]
  omega

/-- A word with nothing but its opcode. -/
theorem pack_opc (opc : Byte) : pack opc 0 0 0 0 0 = opc.setWidth 128 := by
  have h : pack opc 0 0 0 0 0 = (0#120 ++ opc : BitVec (120 + 8)) := rfl
  rw [h]
  apply BitVec.eq_of_toNat_eq
  have := opc.isLt
  rw [BitVec.toNat_append, BitVec.toNat_setWidth, Nat.mod_eq_of_lt (by omega)]
  simp

/-- The masks of R52 in fields. -/
theorem Format.mask_fields :
    Format.n.mask = pack 0xFF 0xFF 0xFFFF 0xFFFFFFFF 0xFFFFFFFF 0xFFFFFFFF ∧
    Format.t.mask = pack 0xFF 0 0xFFFF 0xFFFFFFFF 0xFFFFFFFF 0xFFFFFFFF ∧
    Format.a.mask = pack 0xFF 0xFF 0xFFFF 0 0xFFFFFFFF 0xFFFFFFFF ∧
    Format.ab.mask = pack 0xFF 0xFF 0xFFFF 0 0 0xFFFFFFFF ∧
    Format.abc.mask = pack 0xFF 0xFF 0xFFFF 0 0 0 ∧
    Format.ta.mask = pack 0xFF 0 0xFFFF 0 0xFFFFFFFF 0xFFFFFFFF ∧
    Format.tabc.mask = pack 0xFF 0 0xFFFF 0 0 0 ∧
    Format.tia.mask = pack 0xFF 0 0 0 0xFFFFFFFF 0xFFFFFFFF ∧
    Format.tiab.mask = pack 0xFF 0 0 0 0 0xFFFFFFFF := by decide

namespace Laws.RowSelected

/-- The row of a command in R53: its opcode and its format. -/
def row : Instr → Byte × Format
  | .sysNop => (0x00, .n)
  | .sysReset => (0x01, .n)
  | .sysStat => (0x02, .n)
  | .sysParam _ => (0x03, .t)
  | .bsOpen _ _ => (0x10, .ab)
  | .bsRead _ => (0x11, .t)
  | .bsPeek _ => (0x12, .t)
  | .bsSkip _ => (0x13, .a)
  | .bsAlign => (0x14, .n)
  | .bsHas _ => (0x15, .a)
  | .bsAtend => (0x16, .n)
  | .bsErr => (0x17, .n)
  | .bsBack _ => (0x18, .a)
  | .bsTell => (0x19, .n)
  | .crcSeed _ => (0x20, .a)
  | .crcUpd _ _ => (0x21, .ta)
  | .crcGet => (0x22, .n)
  | .crcUpdo _ _ => (0x23, .ab)
  | .crcUpdf _ _ => (0x24, .ab)
  | .hufStage _ _ _ _ => (0x30, .tiab)
  | .hufBuildl _ _ _ => (0x31, .tia)
  | .hufBuildc _ _ _ => (0x32, .tia)
  | .hufDecode _ => (0x33, .t)
  | .hufFree _ => (0x34, .t)
  | .hufRdtab _ _ => (0x35, .ta)
  | .hufRdnode _ _ => (0x36, .ta)
  | .lzInit _ => (0x40, .t)
  | .lzSetout _ _ => (0x41, .ta)
  | .lzLit _ => (0x42, .t)
  | .lzCopy _ _ => (0x43, .ab)
  | .lzDrain => (0x44, .n)
  | .lzHasov => (0x45, .n)
  | .lzOutlen => (0x46, .n)
  | .lzOutrd _ => (0x47, .a)
  | .lzTell => (0x48, .n)
  | .lzWinrd _ => (0x49, .a)
  | .fltWr _ _ => (0x50, .ta)
  | .fltRd _ => (0x51, .a)
  | .fltDelta _ _ _ => (0x52, .abc)
  | .fltAudio _ _ _ => (0x53, .abc)
  | .fltRgb _ _ _ _ => (0x54, .tabc)
  | .fltX86 _ _ => (0x55, .ab)
  | .fltX86e9 _ _ => (0x56, .ab)
  | .fltArm _ _ => (0x57, .ab)

/-- A command's word selects its row: with the mask of the row's format only the row's opcode is left. -/
def Statement (i : Instr) : Prop := encode i &&& (row i).2.mask = (row i).1.setWidth 128

/-- How each lemma below is proved: in fields, the mask leaves the opcode. -/
theorem of_fields {i : Instr} {opc t mt : Byte} {idx mi : Half} {a ma b mb c mc : Word}
    (he : encode i = pack opc t idx a b c) (hm : (row i).2.mask = pack 0xFF mt mi ma mb mc) (ho : (row i).1 = opc)
    (ht : t &&& mt = 0) (hi : idx &&& mi = 0) (ha : a &&& ma = 0) (hb : b &&& mb = 0) (hc : c &&& mc = 0) :
    Statement i := by
  rw [Statement, he, hm, ho, pack_and, ht, hi, ha, hb, hc, pack_opc]

theorem sysNop : Statement (.sysNop) :=
  of_fields rfl Format.mask_fields.1 rfl BitVec.zero_and BitVec.zero_and BitVec.zero_and BitVec.zero_and BitVec.zero_and

theorem sysReset : Statement (.sysReset) :=
  of_fields rfl Format.mask_fields.1 rfl BitVec.zero_and BitVec.zero_and BitVec.zero_and BitVec.zero_and BitVec.zero_and

theorem sysStat : Statement (.sysStat) :=
  of_fields rfl Format.mask_fields.1 rfl BitVec.zero_and BitVec.zero_and BitVec.zero_and BitVec.zero_and BitVec.zero_and

theorem sysParam (index : Byte) : Statement (.sysParam index) :=
  of_fields rfl Format.mask_fields.2.1 rfl BitVec.and_zero BitVec.zero_and BitVec.zero_and BitVec.zero_and BitVec.zero_and

theorem bsOpen (base : Word) (size : Word) : Statement (.bsOpen base size) :=
  of_fields rfl Format.mask_fields.2.2.2.1 rfl BitVec.zero_and BitVec.zero_and BitVec.and_zero BitVec.and_zero BitVec.zero_and

theorem bsRead (n : Byte) : Statement (.bsRead n) :=
  of_fields rfl Format.mask_fields.2.1 rfl BitVec.and_zero BitVec.zero_and BitVec.zero_and BitVec.zero_and BitVec.zero_and

theorem bsPeek (n : Byte) : Statement (.bsPeek n) :=
  of_fields rfl Format.mask_fields.2.1 rfl BitVec.and_zero BitVec.zero_and BitVec.zero_and BitVec.zero_and BitVec.zero_and

theorem bsSkip (n : Word) : Statement (.bsSkip n) :=
  of_fields rfl Format.mask_fields.2.2.1 rfl BitVec.zero_and BitVec.zero_and BitVec.and_zero BitVec.zero_and BitVec.zero_and

theorem bsAlign : Statement (.bsAlign) :=
  of_fields rfl Format.mask_fields.1 rfl BitVec.zero_and BitVec.zero_and BitVec.zero_and BitVec.zero_and BitVec.zero_and

theorem bsHas (n : Word) : Statement (.bsHas n) :=
  of_fields rfl Format.mask_fields.2.2.1 rfl BitVec.zero_and BitVec.zero_and BitVec.and_zero BitVec.zero_and BitVec.zero_and

theorem bsAtend : Statement (.bsAtend) :=
  of_fields rfl Format.mask_fields.1 rfl BitVec.zero_and BitVec.zero_and BitVec.zero_and BitVec.zero_and BitVec.zero_and

theorem bsErr : Statement (.bsErr) :=
  of_fields rfl Format.mask_fields.1 rfl BitVec.zero_and BitVec.zero_and BitVec.zero_and BitVec.zero_and BitVec.zero_and

theorem bsBack (n : Word) : Statement (.bsBack n) :=
  of_fields rfl Format.mask_fields.2.2.1 rfl BitVec.zero_and BitVec.zero_and BitVec.and_zero BitVec.zero_and BitVec.zero_and

theorem bsTell : Statement (.bsTell) :=
  of_fields rfl Format.mask_fields.1 rfl BitVec.zero_and BitVec.zero_and BitVec.zero_and BitVec.zero_and BitVec.zero_and

theorem crcSeed (value : Word) : Statement (.crcSeed value) :=
  of_fields rfl Format.mask_fields.2.2.1 rfl BitVec.zero_and BitVec.zero_and BitVec.and_zero BitVec.zero_and BitVec.zero_and

theorem crcUpd (count : Byte) (data : Word) : Statement (.crcUpd count data) :=
  of_fields rfl Format.mask_fields.2.2.2.2.2.1 rfl BitVec.and_zero BitVec.zero_and BitVec.and_zero BitVec.zero_and BitVec.zero_and

theorem crcGet : Statement (.crcGet) :=
  of_fields rfl Format.mask_fields.1 rfl BitVec.zero_and BitVec.zero_and BitVec.zero_and BitVec.zero_and BitVec.zero_and

theorem crcUpdo (off : Word) (len : Word) : Statement (.crcUpdo off len) :=
  of_fields rfl Format.mask_fields.2.2.2.1 rfl BitVec.zero_and BitVec.zero_and BitVec.and_zero BitVec.and_zero BitVec.zero_and

theorem crcUpdf (off : Word) (len : Word) : Statement (.crcUpdf off len) :=
  of_fields rfl Format.mask_fields.2.2.2.1 rfl BitVec.zero_and BitVec.zero_and BitVec.and_zero BitVec.and_zero BitVec.zero_and

theorem hufStage (index : Half) (length : Byte) (code : Word) (symbol : Word) : Statement (.hufStage index length code symbol) :=
  of_fields rfl Format.mask_fields.2.2.2.2.2.2.2.2 rfl BitVec.and_zero BitVec.and_zero BitVec.and_zero BitVec.and_zero BitVec.zero_and

theorem hufBuildl (slot : Byte) (count : Half) (maxlen : Word) : Statement (.hufBuildl slot count maxlen) :=
  of_fields rfl Format.mask_fields.2.2.2.2.2.2.2.1 rfl BitVec.and_zero BitVec.and_zero BitVec.and_zero BitVec.zero_and BitVec.zero_and

theorem hufBuildc (slot : Byte) (count : Half) (maxlen : Word) : Statement (.hufBuildc slot count maxlen) :=
  of_fields rfl Format.mask_fields.2.2.2.2.2.2.2.1 rfl BitVec.and_zero BitVec.and_zero BitVec.and_zero BitVec.zero_and BitVec.zero_and

theorem hufDecode (slot : Byte) : Statement (.hufDecode slot) :=
  of_fields rfl Format.mask_fields.2.1 rfl BitVec.and_zero BitVec.zero_and BitVec.zero_and BitVec.zero_and BitVec.zero_and

theorem hufFree (slot : Byte) : Statement (.hufFree slot) :=
  of_fields rfl Format.mask_fields.2.1 rfl BitVec.and_zero BitVec.zero_and BitVec.zero_and BitVec.zero_and BitVec.zero_and

theorem hufRdtab (slot : Byte) (index : Word) : Statement (.hufRdtab slot index) :=
  of_fields rfl Format.mask_fields.2.2.2.2.2.1 rfl BitVec.and_zero BitVec.zero_and BitVec.and_zero BitVec.zero_and BitVec.zero_and

theorem hufRdnode (slot : Byte) (index : Word) : Statement (.hufRdnode slot index) :=
  of_fields rfl Format.mask_fields.2.2.2.2.2.1 rfl BitVec.and_zero BitVec.zero_and BitVec.and_zero BitVec.zero_and BitVec.zero_and

theorem lzInit (k : Byte) : Statement (.lzInit k) :=
  of_fields rfl Format.mask_fields.2.1 rfl BitVec.and_zero BitVec.zero_and BitVec.zero_and BitVec.zero_and BitVec.zero_and

theorem lzSetout (flags : Byte) (cap : Word) : Statement (.lzSetout flags cap) :=
  of_fields rfl Format.mask_fields.2.2.2.2.2.1 rfl BitVec.and_zero BitVec.zero_and BitVec.and_zero BitVec.zero_and BitVec.zero_and

theorem lzLit (byte : Byte) : Statement (.lzLit byte) :=
  of_fields rfl Format.mask_fields.2.1 rfl BitVec.and_zero BitVec.zero_and BitVec.zero_and BitVec.zero_and BitVec.zero_and

theorem lzCopy (offset : Word) (length : Word) : Statement (.lzCopy offset length) :=
  of_fields rfl Format.mask_fields.2.2.2.1 rfl BitVec.zero_and BitVec.zero_and BitVec.and_zero BitVec.and_zero BitVec.zero_and

theorem lzDrain : Statement (.lzDrain) :=
  of_fields rfl Format.mask_fields.1 rfl BitVec.zero_and BitVec.zero_and BitVec.zero_and BitVec.zero_and BitVec.zero_and

theorem lzHasov : Statement (.lzHasov) :=
  of_fields rfl Format.mask_fields.1 rfl BitVec.zero_and BitVec.zero_and BitVec.zero_and BitVec.zero_and BitVec.zero_and

theorem lzOutlen : Statement (.lzOutlen) :=
  of_fields rfl Format.mask_fields.1 rfl BitVec.zero_and BitVec.zero_and BitVec.zero_and BitVec.zero_and BitVec.zero_and

theorem lzOutrd (index : Word) : Statement (.lzOutrd index) :=
  of_fields rfl Format.mask_fields.2.2.1 rfl BitVec.zero_and BitVec.zero_and BitVec.and_zero BitVec.zero_and BitVec.zero_and

theorem lzTell : Statement (.lzTell) :=
  of_fields rfl Format.mask_fields.1 rfl BitVec.zero_and BitVec.zero_and BitVec.zero_and BitVec.zero_and BitVec.zero_and

theorem lzWinrd (offset : Word) : Statement (.lzWinrd offset) :=
  of_fields rfl Format.mask_fields.2.2.1 rfl BitVec.zero_and BitVec.zero_and BitVec.and_zero BitVec.zero_and BitVec.zero_and

theorem fltWr (addr : Word) (byte : Byte) : Statement (.fltWr addr byte) :=
  of_fields rfl Format.mask_fields.2.2.2.2.2.1 rfl BitVec.and_zero BitVec.zero_and BitVec.and_zero BitVec.zero_and BitVec.zero_and

theorem fltRd (addr : Word) : Statement (.fltRd addr) :=
  of_fields rfl Format.mask_fields.2.2.1 rfl BitVec.zero_and BitVec.zero_and BitVec.and_zero BitVec.zero_and BitVec.zero_and

theorem fltDelta (pos : Word) (len : Word) (channels : Word) : Statement (.fltDelta pos len channels) :=
  of_fields rfl Format.mask_fields.2.2.2.2.1 rfl BitVec.zero_and BitVec.zero_and BitVec.and_zero BitVec.and_zero BitVec.and_zero

theorem fltAudio (pos : Word) (len : Word) (channels : Word) : Statement (.fltAudio pos len channels) :=
  of_fields rfl Format.mask_fields.2.2.2.2.1 rfl BitVec.zero_and BitVec.zero_and BitVec.and_zero BitVec.and_zero BitVec.and_zero

theorem fltRgb (pos : Word) (len : Word) (stride : Word) (posr : Byte) : Statement (.fltRgb pos len stride posr) :=
  of_fields rfl Format.mask_fields.2.2.2.2.2.2.1 rfl BitVec.and_zero BitVec.zero_and BitVec.and_zero BitVec.and_zero BitVec.and_zero

theorem fltX86 (pos : Word) (len : Word) : Statement (.fltX86 pos len) :=
  of_fields rfl Format.mask_fields.2.2.2.1 rfl BitVec.zero_and BitVec.zero_and BitVec.and_zero BitVec.and_zero BitVec.zero_and

theorem fltX86e9 (pos : Word) (len : Word) : Statement (.fltX86e9 pos len) :=
  of_fields rfl Format.mask_fields.2.2.2.1 rfl BitVec.zero_and BitVec.zero_and BitVec.and_zero BitVec.and_zero BitVec.zero_and

theorem fltArm (pos : Word) (len : Word) : Statement (.fltArm pos len) :=
  of_fields rfl Format.mask_fields.2.2.2.1 rfl BitVec.zero_and BitVec.zero_and BitVec.and_zero BitVec.and_zero BitVec.zero_and

end Laws.RowSelected

end Sys2Proof
end

