-- ==== Sys2Proof/Tests/Slice0.lean ====
section
/-! SUPPORT. The model's own tests: ill-formed operands refused, every command's word decoded, one step of each
command with the answer spec/95_test_vectors.md gives, and for each statement with hypotheses a state that meets
them. The decode words are written from the fields of spec/opcode_table.json. -/

namespace Sys2Proof.Tests

open Sys2Proof Sys2Proof.Machine

/-! ### Small states -/

/-- The state after one command (every command answers). -/
def after (i : Instr) (s : State) : State :=
  match exec i s with
  | .next t => t
  | _ => s

/-- A byte space holding these bytes from address 0 on. -/
def space (l : List Nat) : Mem :=
  (l.zipIdx.filter fun c => c.1 != 0).map fun c => (c.2, BitVec.ofNat 8 c.1)

/-- After reset, with these bytes attached as the source. -/
def withSource (l : List Nat) : State := { State.reset with src := ⟨BitVec.ofNat 32 l.length, space l⟩ }

/-- ... and a stream over all of them, at bit `p`. -/
def atBit (l : List Nat) (p : DWord) : State :=
  (withSource l).setBs { State.reset.bs with isOpen := true, size := BitVec.ofNat 32 l.length, pos := p }

/-- A state with the sticky error set. -/
def withError (s : State) : State := s.setBs { s.bs with err := true }

/-- The stream of table B1 (spec/95_test_vectors.md section 2). -/
def b1 : List Nat := [0xA5, 0x3C, 0xF0, 0x0F, 0x12, 0x34, 0x56, 0x78, 0x9A]

/-- After reset, with these bytes in FMEM. -/
def withFmem (l : List Nat) : State := State.reset.setFmem (space l)

/-- After reset, with the lengths of codebook H1 staged (section 4). -/
def h1Staged : State :=
  State.reset.setStage
    (([3, 3, 3, 3, 3, 2, 4, 4] : List Byte).zipIdx.map fun c => (c.2, { length := c.1, code := 0, symbol := 0 }))

/-- The nodes of H1, from the dump of section 4. -/
def h1Nodes : List Node :=
  [⟨1, 6⟩, ⟨2, 3⟩, ⟨5, 5⟩, ⟨4, 5⟩, ⟨0, 0⟩, ⟨1, 1⟩, ⟨7, 10⟩, ⟨8, 9⟩, ⟨2, 2⟩, ⟨3, 3⟩, ⟨11, 12⟩, ⟨4, 4⟩, ⟨13, 14⟩, ⟨6, 6⟩,
    ⟨7, 7⟩]

/-- The table of H1, from the dump of section 4. -/
def h1Table : List Word :=
  [0x10000005, 0x10000005, 0x10000005, 0x10000005, 0x18000000, 0x18000000, 0x18000001, 0x18000001, 0x18000002,
    0x18000002, 0x18000003, 0x18000003, 0x18000004, 0x18000004, 0x20000006, 0x20000007]

/-- The slot of H1. -/
def h1Slot : Slot := ⟨true, 4, 4, 15, h1Nodes, h1Table⟩

/-- The stream of H1, at bit `p`, with the codebook in slot 0. -/
def h1At (p : DWord) : State := (atBit [0x17, 0x7E] p).setSlot 0 h1Slot

/-- After reset, with the three entries of codebook H3 staged (section 4). -/
def h3Staged : State :=
  State.reset.setStage [(0, ⟨1, 0, 0x41⟩), (1, ⟨2, 2, 0x42⟩), (2, ⟨3, 0xFFFFFFF6, 0x7FFFFFF⟩)]

/-- An LZSS unit with a window of 16 bytes that has seen "abc", the buffer of capacity `cap` holding it. -/
def lzAbc (cap : Word) : State :=
  State.reset.setLz
    { init := true, k := 4, win := space [0x61, 0x62, 0x63], wpos := 3, ovOff := 0, ovLen := 0
      outCap := cap, outLen := 3, outDiscard := false, out := space [0x61, 0x62, 0x63] }

/-- ... with four bytes of a copy at offset 3 owed and an empty buffer of capacity `cap`. -/
def lzOwed (cap : Word) : State :=
  (lzAbc 3).setLz { (lzAbc 3).lz with ovOff := 3, ovLen := 4, outCap := cap, outLen := 0, out := [] }

/-- A slot with the two codes of length 1, symbols 0 and 1, and depth 1 (section 4, table H3c). -/
def smallSlot : Slot := ⟨true, 1, 1, 3, [⟨1, 2⟩, ⟨0, 0⟩, ⟨1, 1⟩], [0x08000000, 0x08000001]⟩

/-- A small state that meets every invariant: a stream open at bit 3 and a codebook in slot 0. -/
def small : State := (atBit b1 3).setSlot 0 smallSlot

/-! ### Well-formedness: a term each check refuses, and the answer it gets -/

theorem test_wellFormed_refuses :
    Instr.wellFormed .default (.sysParam 11) = false ∧
    Instr.wellFormed .default (.bsRead 33) = false ∧
    Instr.wellFormed .default (.bsPeek 33) = false ∧
    Instr.wellFormed .default (.crcUpd 0 0) = false ∧
    Instr.wellFormed .default (.crcUpd 5 0) = false ∧
    Instr.wellFormed .default (.hufStage 1024 1 0 0) = false ∧
    Instr.wellFormed .default (.hufStage 0 32 0 0) = false ∧
    Instr.wellFormed .default (.hufBuildl 8 1 1) = false ∧
    Instr.wellFormed .default (.hufBuildl 0 1025 1) = false ∧
    Instr.wellFormed .default (.hufBuildc 0 1 0) = false ∧
    Instr.wellFormed .default (.hufBuildc 0 1 32) = false ∧
    Instr.wellFormed .default (.hufDecode 8) = false ∧
    Instr.wellFormed .default (.hufFree 8) = false ∧
    Instr.wellFormed .default (.hufRdtab 8 0) = false ∧
    Instr.wellFormed .default (.hufRdnode 8 0) = false ∧
    Instr.wellFormed .default (.lzInit 31) = false ∧
    Instr.wellFormed .default (.lzSetout 2 0) = false ∧
    Instr.wellFormed .default (.fltWr 0x40000 0) = false ∧
    Instr.wellFormed .default (.fltRd 0x40000) = false ∧
    Instr.wellFormed .default (.fltDelta 0 1 0) = false ∧
    Instr.wellFormed .default (.fltAudio 0 1 0) = false ∧
    Instr.wellFormed .default (.fltRgb 0 3 3 3) = false := by decide

theorem test_wellFormed_accepts_bounds :
    Instr.wellFormed .default (.sysParam 10) = true ∧
    Instr.wellFormed .default (.bsRead 32) = true ∧
    Instr.wellFormed .default (.crcUpd 1 0) = true ∧
    Instr.wellFormed .default (.crcUpd 4 0) = true ∧
    Instr.wellFormed .default (.hufStage 1023 31 0 0) = true ∧
    Instr.wellFormed .default (.hufBuildl 7 1024 31) = true ∧
    Instr.wellFormed .default (.hufBuildc 0 0 1) = true ∧
    Instr.wellFormed .default (.lzInit 30) = true ∧
    Instr.wellFormed .default (.lzSetout 1 0) = true ∧
    Instr.wellFormed .default (.fltWr 0x3FFFF 0) = true ∧
    Instr.wellFormed .default (.fltAudio 0 0 1) = true ∧
    Instr.wellFormed .default (.fltRgb 0 0 0 2) = true := by decide

theorem test_illFormed_answers_badCommand :
    (after (.bsRead 33) State.reset).rsp = ⟨.badCommand, 0, 0⟩ ∧
    (after (.crcUpd 5 0) State.reset).rsp = ⟨.badCommand, 0, 0⟩ ∧
    (after (.hufStage 1024 1 0 0) State.reset).rsp = ⟨.badCommand, 0, 0⟩ ∧
    (after (.hufBuildl 8 1 1) State.reset).rsp = ⟨.badCommand, 0, 0⟩ ∧
    (after (.lzInit 31) State.reset).rsp = ⟨.badCommand, 0, 0⟩ ∧
    (after (.fltRgb 0 3 3 3) State.reset).rsp = ⟨.badCommand, 0, 0⟩ := by decide

/-! ### Decoding: every command, from a word written out field by field -/

/-- The words of the system commands. -/
theorem test_decode_sys :
    decode 0x00000000_00000000_00000000_00000000#128 = .ok .sysNop ∧
    decode 0x00000000_00000000_00000000_00000001#128 = .ok .sysReset ∧
    decode 0x00000000_00000000_00000000_00000002#128 = .ok .sysStat ∧
    decode 0x00000000_00000000_00000000_00000303#128 = .ok (.sysParam 0x3) := by
  refine ⟨rfl, rfl, rfl, rfl⟩

/-- The words of the Bitstream commands. -/
theorem test_decode_bs :
    decode 0x00000000_A69E0D37_F2A74DE5_00000010#128 = .ok (.bsOpen 0xF2A74DE5 0xA69E0D37) ∧
    decode 0x00000000_00000000_00000000_00000411#128 = .ok (.bsRead 0x4) ∧
    decode 0x00000000_00000000_00000000_00000612#128 = .ok (.bsPeek 0x6) ∧
    decode 0x00000000_00000000_8C5C7FD1_00000013#128 = .ok (.bsSkip 0x8C5C7FD1) ∧
    decode 0x00000000_00000000_00000000_00000014#128 = .ok .bsAlign ∧
    decode 0x00000000_00000000_928B2F33_00000015#128 = .ok (.bsHas 0x928B2F33) ∧
    decode 0x00000000_00000000_00000000_00000016#128 = .ok .bsAtend ∧
    decode 0x00000000_00000000_00000000_00000017#128 = .ok .bsErr ∧
    decode 0x00000000_00000000_D23F0825_00000018#128 = .ok (.bsBack 0xD23F0825) ∧
    decode 0x00000000_00000000_00000000_00000019#128 = .ok .bsTell := by
  refine ⟨rfl, rfl, rfl, rfl, rfl, rfl, rfl, rfl, rfl, rfl⟩

/-- The words of the CRC32 commands. -/
theorem test_decode_crc :
    decode 0x00000000_00000000_892F902B_00000020#128 = .ok (.crcSeed 0x892F902B) ∧
    decode 0x00000000_00000000_DD9DC9F9_00000121#128 = .ok (.crcUpd 0x1 0xDD9DC9F9) ∧
    decode 0x00000000_00000000_00000000_00000022#128 = .ok .crcGet ∧
    decode 0x00000000_8ED90475_9531985D_00000023#128 = .ok (.crcUpdo 0x9531985D 0x8ED90475) ∧
    decode 0x00000000_81E74EF5_E8E25D95_00000024#128 = .ok (.crcUpdf 0xE8E25D95 0x81E74EF5) := by
  refine ⟨rfl, rfl, rfl, rfl, rfl⟩

/-- The words of the Huffman commands. -/
theorem test_decode_huf :
    decode 0x00000000_EF03675B_9600A35B_B6F70130#128 = .ok (.hufStage 0xB6F7 0x1 0x9600A35B 0xEF03675B) ∧
    decode 0x00000000_00000000_BD9C1725_91E30431#128 = .ok (.hufBuildl 0x4 0x91E3 0xBD9C1725) ∧
    decode 0x00000000_00000000_ECAD4A27_8D110132#128 = .ok (.hufBuildc 0x1 0x8D11 0xECAD4A27) ∧
    decode 0x00000000_00000000_00000000_00000133#128 = .ok (.hufDecode 0x1) ∧
    decode 0x00000000_00000000_00000000_00000734#128 = .ok (.hufFree 0x7) ∧
    decode 0x00000000_00000000_9FB17C23_00000535#128 = .ok (.hufRdtab 0x5 0x9FB17C23) ∧
    decode 0x00000000_00000000_A170B339_00000236#128 = .ok (.hufRdnode 0x2 0xA170B339) := by
  refine ⟨rfl, rfl, rfl, rfl, rfl, rfl, rfl⟩

/-- The words of the LZSS commands. -/
theorem test_decode_lz :
    decode 0x00000000_00000000_00000000_00000640#128 = .ok (.lzInit 0x6) ∧
    decode 0x00000000_00000000_F29D0DA9_00000541#128 = .ok (.lzSetout 0x5 0xF29D0DA9) ∧
    decode 0x00000000_00000000_00000000_00000142#128 = .ok (.lzLit 0x1) ∧
    decode 0x00000000_95E60AF5_93BD04CF_00000043#128 = .ok (.lzCopy 0x93BD04CF 0x95E60AF5) ∧
    decode 0x00000000_00000000_00000000_00000044#128 = .ok .lzDrain ∧
    decode 0x00000000_00000000_00000000_00000045#128 = .ok .lzHasov ∧
    decode 0x00000000_00000000_00000000_00000046#128 = .ok .lzOutlen ∧
    decode 0x00000000_00000000_E58CDA15_00000047#128 = .ok (.lzOutrd 0xE58CDA15) ∧
    decode 0x00000000_00000000_00000000_00000048#128 = .ok .lzTell ∧
    decode 0x00000000_00000000_8CB1E29D_00000049#128 = .ok (.lzWinrd 0x8CB1E29D) := by
  refine ⟨rfl, rfl, rfl, rfl, rfl, rfl, rfl, rfl, rfl, rfl⟩

/-- The words of the Filter commands. -/
theorem test_decode_flt :
    decode 0x00000000_00000000_F9EBDACD_00000250#128 = .ok (.fltWr 0xF9EBDACD 0x2) ∧
    decode 0x00000000_00000000_8BECD7B1_00000051#128 = .ok (.fltRd 0x8BECD7B1) ∧
    decode 0xA217BEAD_DBC496CB_8E81973F_00000052#128 = .ok (.fltDelta 0x8E81973F 0xDBC496CB 0xA217BEAD) ∧
    decode 0xA4EDE6A5_EB4CB243_CA23D597_00000053#128 = .ok (.fltAudio 0xCA23D597 0xEB4CB243 0xA4EDE6A5) ∧
    decode 0x92276659_9E27A1C1_8A6A63ED_00000354#128 = .ok (.fltRgb 0x8A6A63ED 0x9E27A1C1 0x92276659 0x3) ∧
    decode 0x00000000_D0EDA82F_8F6D0559_00000055#128 = .ok (.fltX86 0x8F6D0559 0xD0EDA82F) ∧
    decode 0x00000000_AE44158B_AE97BA95_00000056#128 = .ok (.fltX86e9 0xAE97BA95 0xAE44158B) ∧
    decode 0x00000000_94E3BF91_9A61DBE3_00000057#128 = .ok (.fltArm 0x9A61DBE3 0x94E3BF91) := by
  refine ⟨rfl, rfl, rfl, rfl, rfl, rfl, rfl, rfl⟩

/-- A bit of an unused field, and opcodes of no row (table B2). -/
theorem test_decode_rejects :
    decode 0x00000000_00000000_00000001_00000811#128 = .error .reservedBits ∧
    decode 0x00000000_00000000_00000000_00010811#128 = .error .reservedBits ∧
    decode 0x00000001_00000000_00000000_00000010#128 = .error .reservedBits ∧
    decode 0x00000000_00000000_00000000_000000FF#128 = .error .unknownOpcode ∧
    decode 0x00000000_00000000_00000000_00000058#128 = .error .unknownOpcode :=
  ⟨rfl, rfl, rfl, rfl, rfl⟩

/-- The host's numbering: bit 0 is the least significant bit of `W0`; bits the table gives no row are 0. -/
theorem test_decodeTableWord :
    decodeTableWord 128 0x00000000_00000009_00000003_00000043 = some (.lzCopy 3 9) ∧
    decodeTableWord 16 0x2011 = some (.bsRead 32) ∧ decodeTableWord 8 0x1A = none := ⟨rfl, rfl, rfl⟩

/-! ### Steps (expected answers from spec/95_test_vectors.md) -/

theorem test_step_runs_the_fetched_word :
    ∃ t, step (State.reset.withFetchWord 128 0x0000000000000000_34333231_00000421) = .next t ∧
      t.rsp = ⟨.ok, 0x9BE3E0A3, 0⟩ ∧ t.host = [] := ⟨_, rfl, by decide +kernel⟩

theorem test_step_answers_badCommand :
    ∃ t, step (State.reset.withFetchWord 128 0x1A) = .next t ∧ t.rsp = ⟨.badCommand, 0, 0⟩ := ⟨_, rfl, by decide⟩

/-! System (table Y1) -/

theorem test_sysNop : (after .sysNop (withError State.reset)).rsp = ⟨.ok, 0, 0⟩ := by decide

theorem test_sysReset :
    (after .sysReset (h1At 7)).bs.isOpen = false ∧ (after .sysReset (h1At 7)).crc.reg = 0xFFFFFFFF ∧
    ((after .sysReset (h1At 7)).slot 0).valid = false ∧ (after .sysReset (h1At 7)).src = (h1At 7).src := by decide

theorem test_sysStat_reset : (after .sysStat State.reset).rsp = ⟨.ok, 0x20, 0⟩ := by decide

theorem test_sysStat_h1 : (after .sysStat (withError (h1At 16))).rsp = ⟨.ok, 0x123, 0⟩ := by decide

theorem test_sysParam :
    (after (.sysParam 2) State.reset).rsp = ⟨.ok, 0x1000, 0⟩ ∧
    (after (.sysParam 9) State.reset).rsp = ⟨.ok, 0xEDB88320, 0⟩ ∧
    (after (.sysParam 10) (withSource b1)).rsp = ⟨.ok, 9, 0⟩ ∧
    (after (.sysParam 11) State.reset).rsp = ⟨.badCommand, 0, 0⟩ := by decide

/-! Bitstream (table B1) -/

theorem test_bsOpen :
    (after (.bsOpen 4 5) (withError (atBit b1 0x48))).bs.err = false ∧
    (after (.bsOpen 4 5) (withError (atBit b1 0x48))).bs.base = 4 ∧
    (after (.bsOpen 4 5) (withError (atBit b1 0x48))).bs.pos = 0 := by decide

theorem test_bsOpen_beyond_source :
    (after (.bsOpen 4 6) (withError (atBit b1 0x48))).rsp = ⟨.seekFail, 0, 0⟩ ∧
    (after (.bsOpen 4 6) (withError (atBit b1 0x48))).bs = (withError (atBit b1 0x48)).bs := by decide

theorem test_bsRead :
    (after (.bsRead 32) (atBit b1 11)).rsp = ⟨.ok, 0xE7807891, 0⟩ ∧
    (after (.bsRead 32) (atBit b1 11)).bs.pos = 0x2B := by decide

theorem test_bsRead_beyond_end :
    (after (.bsRead 1) (atBit b1 0x48)).rsp = ⟨.readFail, 0, 0⟩ ∧ (after (.bsRead 1) (atBit b1 0x48)).bs.err = true ∧
    (after (.bsRead 1) (atBit b1 0x48)).bs.pos = 0x48 := by decide

theorem test_bsPeek :
    (after (.bsPeek 12) (atBit b1 8)).rsp = ⟨.ok, 0x3CF, 0⟩ ∧ (after (.bsPeek 12) (atBit b1 8)).bs.pos = 8 := by decide

theorem test_bsPeek_pads :
    (after (.bsPeek 32) (atBit b1 0x33)).rsp = ⟨.ok, 0xB3C4D000, 0⟩ ∧
    (after (.bsPeek 32) (atBit b1 0x33)).bs.err = false := by decide

theorem test_bsSkip : (after (.bsSkip 3) (atBit b1 8)).bs.pos = 11 := by decide

theorem test_bsSkip_beyond_end :
    (after (.bsSkip 9) (atBit b1 0x40)).rsp = ⟨.readFail, 0, 0⟩ ∧ (after (.bsSkip 9) (atBit b1 0x40)).bs.err = true := by
  decide

theorem test_bsAlign :
    (after .bsAlign (atBit b1 0x2B)).bs.pos = 0x30 ∧ (after .bsAlign (atBit b1 0x30)).bs.pos = 0x30 := by decide

theorem test_bsHas :
    (after (.bsHas 0x18) (atBit b1 0x30)).rsp = ⟨.ok, 1, 0⟩ ∧ (after (.bsHas 0x19) (atBit b1 0x30)).rsp = ⟨.ok, 0, 0⟩ := by
  decide

theorem test_bsAtend :
    (after .bsAtend (atBit b1 0x47)).rsp = ⟨.ok, 0, 0⟩ ∧ (after .bsAtend (atBit b1 0x48)).rsp = ⟨.ok, 1, 0⟩ ∧
    (after .bsAtend (withError (atBit b1 0x48))).rsp = ⟨.readFail, 1, 0⟩ := by decide

theorem test_bsErr :
    (after .bsErr (withError (atBit b1 0x48))).rsp = ⟨.ok, 1, 0⟩ ∧ (after .bsErr State.reset).rsp = ⟨.ok, 0, 0⟩ := by
  decide

theorem test_bsBack :
    (after (.bsBack 13) (atBit b1 0x30)).bs.pos = 0x23 ∧
    (after (.bsBack 0x21) (atBit b1 0x20)).rsp = ⟨.seekFail, 0, 0⟩ := by decide

theorem test_bsTell :
    (after .bsTell (withError (atBit b1 0x48))).rsp = ⟨.ok, 0x48, 0⟩ ∧ (after .bsTell State.reset).rsp = ⟨.ok, 0, 0⟩ := by
  decide

/-! CRC32 (tables C1, C2 and the spot values of section 3) -/

theorem test_crcTab :
    crcTab 0 = 0 ∧ crcTab 1 = 0x77073096 ∧ crcTab 2 = 0xEE0E612C ∧ crcTab 8 = 0x0EDB8832 ∧
    crcTab 128 = 0xEDB88320 ∧ crcTab 255 = 0x2D02EF8D := by decide

theorem test_crcSeed :
    (after (.crcSeed 0x9BE3E0A3) State.reset).rsp = ⟨.ok, 0x9BE3E0A3, 0⟩ ∧
    (after (.crcSeed 0x9BE3E0A3) State.reset).crc.reg = 0x641C1F5C := by decide

theorem test_crcUpd_check_value :
    (after (.crcUpd 1 0x39) (State.reset.setCrc 0x651F2550)).rsp = ⟨.ok, 0xCBF43926, 0⟩ := by decide

theorem test_crcUpd_ignores_high_bytes : (after (.crcUpd 1 0xFFFFFF61) State.reset).rsp = ⟨.ok, 0xE8B7BE43, 0⟩ := by
  decide

theorem test_crcGet : (after .crcGet (State.reset.setCrc 0x340BC6D9)).rsp = ⟨.ok, 0xCBF43926, 0⟩ := by decide

theorem test_crcUpdo :
    (after (.crcUpdo 0 3) (lzAbc 8)).rsp = ⟨.ok, 0x352441C2, 0⟩ ∧
    (after (.crcUpdo 3 1) (lzAbc 8)).rsp = ⟨.badCommand, 0, 0⟩ := by decide +kernel

theorem test_crcUpdf :
    (after (.crcUpdf 5 1) (withFmem [0, 0, 0, 0, 0, 0xAB])).rsp = ⟨.ok, 0x930695ED, 0⟩ ∧
    (after (.crcUpdf 0x3FFFF 2) State.reset).rsp = ⟨.badCommand, 0, 0⟩ := by decide

/-! Huffman (section 4) -/

theorem test_hufStage :
    (after (.hufStage 2 3 0xFFFFFFF6 0x7FFFFFF) State.reset).huf.stage = [(2, ⟨3, 0xFFFFFFF6, 0x7FFFFFF⟩)] := by decide

theorem test_hufBuildl_h1 :
    (after (.hufBuildl 0 8 4) h1Staged).rsp = ⟨.ok, 15, 4⟩ ∧ (after (.hufBuildl 0 8 4) h1Staged).slot 0 = h1Slot := by
  decide

theorem test_hufBuildl_oversubscribed :
    (after (.hufBuildl 3 3 1) (State.reset.setStage [(0, ⟨1, 0, 0⟩), (1, ⟨1, 0, 0⟩), (2, ⟨1, 0, 0⟩)])).rsp =
      ⟨.huffPrefixPresent, 0, 0⟩ := by decide

theorem test_hufBuildc_h3 :
    (after (.hufBuildc 2 3 3) h3Staged).rsp = ⟨.ok, 6, 3⟩ ∧
    (after (.hufBuildc 2 3 3) h3Staged).slot 2 =
      ⟨true, 3, 3, 6,
        [⟨1, 2⟩, ⟨0x41, 0x41⟩, ⟨3, 4⟩, ⟨0x42, 0x42⟩, ⟨5, emptyWord⟩, ⟨0x7FFFFFF, 0x7FFFFFF⟩],
        [0x08000041, 0x08000041, 0x08000041, 0x08000041, 0x10000042, 0x10000042, 0x1FFFFFFF, 0xFFFFFFFF]⟩ := by
  decide

theorem test_hufBuildc_reserved_symbol :
    (after (.hufBuildc 2 1 3) (State.reset.setStage [(0, ⟨3, 7, 0x8000000⟩)])).rsp = ⟨.huffReservedSymbol, 0, 0⟩ := by
  decide

theorem test_hufDecode_h1 :
    (after (.hufDecode 0) (h1At 0)).rsp = ⟨.ok, 5, 2⟩ ∧ (after (.hufDecode 0) (h1At 5)).rsp = ⟨.ok, 6, 4⟩ ∧
    (after (.hufDecode 0) (h1At 16)).rsp = ⟨.readFail, 0, 0⟩ := by decide

/-- Codes longer than the table: H3's tree under a table of depth 1, whose entry 1 is an overflow entry for node 2. -/
theorem test_hufDecode_walks_overflow :
    (after (.hufDecode 2)
      ((atBit [0x5B, 0x80] 3).setSlot 2
        ⟨true, 3, 1, 6, [⟨1, 2⟩, ⟨0x41, 0x41⟩, ⟨3, 4⟩, ⟨0x42, 0x42⟩, ⟨5, emptyWord⟩, ⟨0x7FFFFFF, 0x7FFFFFF⟩],
          [0x08000041, 0x10000002]⟩)).rsp = ⟨.ok, 0x7FFFFFF, 3⟩ := by decide

theorem test_hufFree :
    ((after (.hufFree 0) (h1At 0)).slot 0).valid = false ∧ (after (.hufFree 5) (h1At 0)).rsp = ⟨.ok, 0, 0⟩ := by decide

theorem test_hufRdtab :
    (after (.hufRdtab 0 4) (h1At 0)).rsp = ⟨.ok, 0x18000000, 0⟩ ∧
    (after (.hufRdtab 0 16) (h1At 0)).rsp = ⟨.badCommand, 0, 0⟩ := by decide

theorem test_hufRdnode :
    (after (.hufRdnode 0 0) (h1At 0)).rsp = ⟨.ok, 1, 6⟩ ∧ (after (.hufRdnode 0 15) (h1At 0)).rsp = ⟨.badCommand, 0, 0⟩ ∧
    (after (.hufRdnode 2 0) (h1At 0)).rsp = ⟨.notReady, 0, 0⟩ := by decide

/-! LZSS (tables L1 to L3) -/

theorem test_lzInit :
    (after (.lzInit 2) (lzOwed 8)).lz.win = [] ∧ (after (.lzInit 2) (lzOwed 8)).lz.ovLen = 0 ∧
    (after (.lzInit 2) (lzOwed 8)).lz.outCap = 8 := by decide

theorem test_lzSetout :
    (after (.lzSetout 1 4) (lzOwed 8)).lz.outDiscard = true ∧ (after (.lzSetout 1 4) (lzOwed 8)).lz.ovLen = 4 ∧
    (after (.lzSetout 2 4) (lzOwed 8)).rsp = ⟨.badCommand, 0, 0⟩ := by decide

theorem test_lzLit :
    (after (.lzLit 0x64) (lzAbc 8)).rsp = ⟨.ok, 1, 0⟩ ∧
    (after (.lzLit 0x64) (lzAbc 8)).lz.out = space [0x61, 0x62, 0x63, 0x64] := by decide

theorem test_lzLit_refused :
    (after (.lzLit 0x61) State.reset).rsp = ⟨.notReady, 0, 0⟩ ∧
    (after (.lzLit 0x7A) (lzOwed 8)).rsp = ⟨.overhangPending, 0, 0⟩ ∧
    (after (.lzLit 0x61) (lzAbc 3)).rsp = ⟨.outFull, 0, 0⟩ := by decide

theorem test_lzCopy :
    (after (.lzCopy 3 9) (lzAbc 8)).rsp = ⟨.ok, 5, 4⟩ ∧
    (after (.lzCopy 3 9) (lzAbc 8)).lz.out = space [0x61, 0x62, 0x63, 0x61, 0x62, 0x63, 0x61, 0x62] := by decide

theorem test_lzCopy_offset_zero_is_window_size :
    (after (.lzCopy 0 1) (lzAbc 8)).lz.out = space [0x61, 0x62, 0x63] ∧
    (after (.lzCopy 0x11 1) (lzAbc 8)).lz.out = space [0x61, 0x62, 0x63, 0x63] := by decide

theorem test_lzDrain :
    (after .lzDrain (lzOwed 3)).rsp = ⟨.ok, 3, 1⟩ ∧ (after .lzDrain (lzOwed 3)).lz.out = space [0x61, 0x62, 0x63] ∧
    (after .lzDrain (lzOwed 8)).rsp = ⟨.ok, 4, 0⟩ ∧ (after .lzDrain (lzOwed 8)).lz.ovOff = 0 := by decide

theorem test_lzHasov :
    (after .lzHasov (lzOwed 8)).rsp = ⟨.ok, 1, 4⟩ ∧ (after .lzHasov (lzAbc 8)).rsp = ⟨.ok, 0, 0⟩ := by decide

theorem test_lzOutlen : (after .lzOutlen (lzAbc 8)).rsp = ⟨.ok, 3, 8⟩ := by decide

theorem test_lzOutrd :
    (after (.lzOutrd 2) (lzAbc 8)).rsp = ⟨.ok, 0x63, 0⟩ ∧ (after (.lzOutrd 3) (lzAbc 8)).rsp = ⟨.badCommand, 0, 0⟩ := by
  decide

theorem test_lzTell : (after .lzTell (lzAbc 8)).rsp = ⟨.ok, 3, 0⟩ := by decide

theorem test_lzWinrd :
    (after (.lzWinrd 1) (lzAbc 8)).rsp = ⟨.ok, 0x63, 0⟩ ∧ (after (.lzWinrd 0) (lzAbc 8)).rsp = ⟨.ok, 0, 0⟩ ∧
    (after (.lzWinrd 0x11) (lzAbc 8)).rsp = ⟨.ok, 0x63, 0⟩ := by decide

/-! Filters (tables F1 to F6) -/

theorem test_fltWr :
    (after (.fltWr 0x3FFFF 0xFF) State.reset).flt.mem = [(0x3FFFF, 0xFF)] ∧
    (after (.fltWr 0x40000 1) State.reset).rsp = ⟨.badCommand, 0, 0⟩ := by decide

theorem test_fltRd :
    (after (.fltRd 5) (withFmem [0, 0, 0, 0, 0, 0xAB])).rsp = ⟨.ok, 0xAB, 0⟩ ∧
    (after (.fltRd 0x40000) State.reset).rsp = ⟨.badCommand, 0, 0⟩ := by decide

theorem test_fltDelta :
    (after (.fltDelta 0 8 3) (withFmem [1, 2, 3, 4, 5, 6, 7, 8])).rsp = ⟨.ok, 8, 8⟩ ∧
    (after (.fltDelta 0 8 3) (withFmem [1, 2, 3, 4, 5, 6, 7, 8])).flt.mem =
      space [1, 2, 3, 4, 5, 6, 7, 8, 0xFF, 0xFC, 0xF9, 0xFD, 0xF7, 0xF1, 0xFA, 0xF1] := by decide

theorem test_fltDelta_more_channels_than_bytes :
    (after (.fltDelta 0 3 0xFFFFFFFF) (withFmem [9, 8, 7])).flt.mem = space [9, 8, 7, 0xF7, 0xF8, 0xF9] := by decide

theorem test_fltAudio :
    (after (.fltAudio 0 8 1) (withFmem [0x10, 0xF0, 5, 0x7F, 0x80, 1, 0xFF, 0])).flt.mem =
      space [0x10, 0xF0, 5, 0x7F, 0x80, 1, 0xFF, 0, 0xF0, 0, 0xFB, 0x7C, 0xFC, 0xFB, 0xFC, 0xFC] := by decide

theorem test_fltAudio_adapts :
    (after (.fltAudio 0 40 1) (withFmem (List.replicate 40 3))).flt.mem.bytes 72 8 =
      [0x9D, 0x99, 0x95, 0x91, 0x8D, 0x89, 0x85, 0x81] := by decide

theorem test_fltRgb :
    (after (.fltRgb 0 12 6 1) (withFmem [1, 2, 3, 4, 5, 6, 7, 8, 9, 10, 11, 12])).flt.mem.bytes 12 12 =
      [0xFF, 0xF2, 0xF7, 0xF4, 0xE2, 0xED, 0xE7, 0xD0, 0xE2, 0xD8, 0xE6, 0xD6] := by decide

theorem test_fltRgb_predicts_from_above :
    (after (.fltRgb 0 18 9 0)
      (withFmem [0x10, 0x80, 3, 0xF0, 0x25, 6, 0x77, 8, 0xC9, 10, 0x5B, 12, 0xEE, 0x31, 0x9F, 0x42, 7, 0xD8])).flt.mem.bytes
        27 9 = [0x2B, 0xAE, 0x4D, 0xB5, 0x5D, 0x98, 0xB8, 0x51, 0x18] := by decide

theorem test_fltX86 :
    (after (.fltX86 0x100 16)
      (withFmem [0x90, 0x90, 0x90, 0xE8, 0x34, 0x12, 0, 0, 0x90, 0x90, 0x90, 0x90, 0x90, 0x90, 0x90, 0x90])).flt.mem =
      space [0x90, 0x90, 0x90, 0xE8, 0x30, 0x11, 0, 0, 0x90, 0x90, 0x90, 0x90, 0x90, 0x90, 0x90, 0x90] := by decide

theorem test_fltX86_negative :
    (after (.fltX86 0x10 8) (withFmem [0xE8, 0xFC, 0xFF, 0xFF, 0xFF, 0x90, 0x90, 0x90])).flt.mem =
      space [0xE8, 0xFC, 0xFF, 0xFF, 0, 0x90, 0x90, 0x90] := by decide

theorem test_fltX86e9 :
    (after (.fltX86e9 0x100 10) (withFmem [0xE9, 0x34, 0x12, 0, 0, 0xE8, 0x34, 0x12, 0, 0])).flt.mem =
      space [0xE9, 0x33, 0x11, 0, 0, 0xE8, 0x2E, 0x11, 0, 0] := by decide

theorem test_fltArm :
    (after (.fltArm 6 8) (withFmem [0, 0, 0, 0xEB, 0, 0, 0, 0xEB])).flt.mem =
      space [0xFF, 0xFF, 0xFF, 0xEB, 0xFE, 0xFF, 0xFF, 0xEB] := by decide

theorem test_fltArm_checks_length_first :
    (after (.fltArm 0xFFFFFFFF 3) State.reset).rsp = ⟨.filtersInvalidLength, 0, 0⟩ ∧
    (after (.fltArm 0x7FFFFFFD 4) State.reset).rsp = ⟨.filtersInvalidFilePosition, 0, 0⟩ := by decide

/-! ### Witnesses: states and operands that meet the hypotheses of each statement that has some -/

theorem small_env : small.EnvOk := ⟨by decide, by decide, by decide⟩

theorem small_stream : small.StreamOk := ⟨by decide, by decide, by decide⟩

theorem small_buffers : small.BuffersOk := by
  constructor
  · intro t h
    cases (h : (none : Option Word) = some t)
  · intro t h
    cases (h : (none : Option Word) = some t)

theorem small_memories : small.MemoriesOk := by
  refine ⟨⟨?_, ?_⟩, ⟨?_, ?_⟩, ⟨?_, ?_⟩, ⟨?_, ?_⟩, ?_, ?_⟩ <;> decide

theorem small_lz : small.LzOk := ⟨by decide, by decide, by decide, by decide⟩

theorem smallSlot_ok : SlotOk .default smallSlot := by
  refine ⟨by decide, fun _ => ⟨by decide, by decide, by decide, by decide, by decide, ⟨fun j hj => ?_, by decide⟩, by decide⟩⟩
  have hj : j < 3 := hj
  interval_cases j
  · exact .inr (.inr ⟨by decide, .inr (by decide), .inr (by decide)⟩)
  · exact .inr (.inl (by decide))
  · exact .inr (.inl (by decide))

theorem freeSlot_ok (p : Params) : SlotOk p Slot.free := ⟨fun _ => rfl, fun h => absurd h (by decide)⟩

/-- A state with one slot filled. -/
theorem oneSlot_ok (l : List Nat) (p : DWord) (h : Slot) (hh : SlotOk .default h) :
    ((atBit l p).setSlot 0 h).SlotsOk := by
  intro t ht
  rw [State.slot_setSlot]
  split
  · exact hh
  · have : (atBit l p).slot t = Slot.free := by
      interval_cases t <;> rfl
    rw [this]
    exact freeSlot_ok _

theorem small_slots : small.SlotsOk := oneSlot_ok b1 3 smallSlot smallSlot_ok

theorem small_inv : small.Inv :=
  ⟨small_env, small_stream, small_buffers, small_memories, small_lz, small_slots⟩

/-- A command for the host's list does not touch the invariants. -/
def smallWith (w : Command) : State := { small with host := [w] }

/-- The byte `FF` as the stream, at bit `p`, and in slot 0 the one code `00`, which stands nowhere in it. -/
def oneCode (p : DWord) : State :=
  (atBit [0xFF] p).setSlot 0
    ⟨true, 2, 2, 3, [⟨1, emptyWord⟩, ⟨2, emptyWord⟩, ⟨5, 5⟩], [0x10000005, emptyWord, emptyWord, emptyWord]⟩

theorem oneCode_slots (p : DWord) : (oneCode p).SlotsOk := by
  refine oneSlot_ok _ _ _
    ⟨by decide, fun _ => ⟨by decide, by decide, by decide, by decide, by decide, ⟨fun j hj => ?_, by decide⟩, by decide⟩⟩
  have hj : j < 3 := hj
  interval_cases j
  · exact .inr (.inr ⟨by decide, .inr (by decide), .inl rfl⟩)
  · exact .inr (.inr ⟨by decide, .inr (by decide), .inl rfl⟩)
  · exact .inr (.inl (by decide))

theorem oneCode_env : (oneCode 0).EnvOk := ⟨by decide, by decide, by decide⟩

theorem oneCode_inv (p : DWord) (h : p.toNat ≤ 8) : (oneCode p).Inv := by
  refine ⟨oneCode_env, ⟨h, fun _ => (by decide : 0 + 1 ≤ 1), fun h => absurd h Bool.false_ne_true⟩, ⟨?_, ?_⟩,
    small_memories, small_lz, oneCode_slots p⟩
  · intro t h
    cases (h : (none : Option Word) = some t)
  · intro t h
    cases (h : (none : Option Word) = some t)

theorem witness_StepRunsTheDecodedCommand :
    (smallWith 0x00000319).host = [0x00000319#128] ∧ (smallWith 0x00000311).host = [0x00000311#128] ∧
    decode 0x00000311#128 = .ok (.bsRead 3) ∧ State.reset.host = [] := ⟨rfl, rfl, rfl, rfl⟩

theorem witness_IllegalCommandsAnswerBadCommand :
    (∀ row ∈ tableRows, ¬ Selects 0x0000001A#128 row) ∧ (∀ row ∈ tableRows, ¬ Selects 0x00000100#128 row) ∧
    decode 0x00002111#128 = .ok (.bsRead 33) ∧ (Instr.bsRead 33).wellFormed State.reset.params = false := by
  refine ⟨?_, ?_, rfl, rfl⟩ <;> simp [tableRows, Selects]

theorem witness_DecodingSelectsTableRows :
    (0x11#128, 0xFFFFFFFFFFFFFFFFFFFFFFFFFFFF00FF#128) ∈ tableRows ∧
    Selects 0x00002011#128 (0x11#128, 0xFFFFFFFFFFFFFFFFFFFFFFFFFFFF00FF#128) := by
  unfold Selects tableRows; decide

theorem witness_EncodeInvertsDecode : decode 0x00000002_00000001_FFFFFFFF_00000254#128 = .ok (.fltRgb 0xFFFFFFFF 1 2 2) :=
  rfl

/-- A failure of each shape of the table of R174. -/
theorem witness_FailuresArePrecise :
    small.StreamOk ∧
    (∃ t, exec (.bsSkip 70) small = .next t ∧ t.rsp.status = .readFail ∧ small.bs.err = false) ∧
    (∃ t, exec (.bsRead 33) small = .next t ∧ t.rsp.status = .badCommand) ∧
    (∃ t, exec (.hufBuildl 8 0 1) small = .next t ∧ t.rsp.status = .badCommand) ∧
    (∃ t, exec (.hufBuildl 3 3 1) (State.reset.setStage [(0, ⟨1, 0, 0⟩), (1, ⟨1, 0, 0⟩), (2, ⟨1, 0, 0⟩)]) = .next t ∧
      t.rsp.status = .huffPrefixPresent) ∧
    (∃ t, exec (.hufDecode 0) (h1At 16) = .next t ∧ t.rsp.status = .readFail) ∧
    (∃ t, exec (.hufDecode 2) ((atBit [0] 0).setSlot 2 (builtSlot .default 1 [Node.fresh])) = .next t ∧
      t.rsp.status = .huffInvalidCode) ∧
    (∃ t, exec (.lzLit 0) small = .next t ∧ t.rsp.status = .notReady) := by
  refine ⟨small_stream, ⟨_, rfl, ?_, ?_⟩, ⟨_, rfl, ?_⟩, ⟨_, rfl, ?_⟩, ⟨_, rfl, ?_⟩, ⟨_, rfl, ?_⟩, ⟨_, rfl, ?_⟩,
    ⟨_, rfl, ?_⟩⟩ <;> decide

theorem witness_FailuresAnswerZero :
    (∃ t, exec .bsAtend (withError small) = .next t ∧ t.rsp.status = .readFail) ∧
    (∃ t, exec .bsAtend State.reset = .next t ∧ t.rsp.status = .notReady) ∧
    (∃ t, exec (.bsBack 4) small = .next t ∧ t.rsp.status = .seekFail) := by
  refine ⟨⟨_, rfl, ?_⟩, ⟨_, rfl, ?_⟩, ⟨_, rfl, ?_⟩⟩ <;> decide

theorem witness_StatusesPerCommand :
    (∃ t, exec (.bsBack 3) small = .next t ∧ t.rsp.status = .ok) ∧
    (∃ t, exec (.bsBack 4) small = .next t ∧ t.rsp.status = .seekFail) ∧
    (∃ t, exec (.hufFree 8) small = .next t ∧ t.rsp.status = .badCommand) := by
  refine ⟨⟨_, rfl, ?_⟩, ⟨_, rfl, ?_⟩, ⟨_, rfl, ?_⟩⟩ <;> decide

theorem witness_EnvironmentNeverChanges : ∃ t, exec .sysReset (smallWith 1) = .next t := ⟨_, rfl⟩

/-- Each flag and each memory does change under a command the statement names. -/
theorem witness_OnlyListedCommandsWrite :
    (after (.bsOpen 0 0) State.reset).bs.isOpen ≠ State.reset.bs.isOpen ∧
    (after (.bsSkip 70) small).bs.err ≠ small.bs.err ∧
    (after (.lzInit 0) State.reset).lz.init ≠ State.reset.lz.init ∧
    (after (.lzSetout 1 0) State.reset).lz.outDiscard ≠ State.reset.lz.outDiscard ∧
    (after .lzDrain (lzOwed 4)).lz.hasOverhang ≠ (lzOwed 4).lz.hasOverhang ∧
    (after (.hufFree 0) small).slot 0 ≠ small.slot 0 ∧
    (after (.hufStage 0 1 0 0) State.reset).huf.stage ≠ State.reset.huf.stage ∧
    (after (.lzLit 1) (lzAbc 4)).lz.win ≠ (lzAbc 4).lz.win ∧
    (after (.lzLit 1) (lzAbc 4)).lz.out ≠ (lzAbc 4).lz.out ∧
    (after (.fltWr 0 1) State.reset).flt.mem ≠ State.reset.flt.mem ∧
    (after (.crcSeed 0) (State.reset.setCrc 0)).crc ≠ (State.reset.setCrc 0).crc ∧
    Instr.bsSkip 70 ≠ .sysReset := by decide

/-- A state that meets every invariant and takes a step; the five invariants' statements share it. -/
theorem witness_StepKeepsInvariants :
    (smallWith 0x00000033).EnvOk ∧ (smallWith 0x00000033).StreamOk ∧ (smallWith 0x00000033).BuffersOk ∧
    (smallWith 0x00000033).MemoriesOk ∧ (smallWith 0x00000033).LzOk ∧ (smallWith 0x00000033).SlotsOk ∧
    ∃ t, step (smallWith 0x00000033) = .next t ∧ t.rsp = ⟨.ok, 0, 1⟩ :=
  ⟨small_env, small_stream, small_buffers, small_memories, small_lz, small_slots, _, rfl, by decide⟩

theorem witness_SysNopAndParamAnswer :
    10 < (11 : Byte).toNat ∧ 10 < (255 : Byte).toNat ∧
    [1, 64, 0, 0, 8, 0, 0, 0, 0, 0xEDB88320, 9][(0 : Byte).toNat]? = some 1 ∧
    [1, 64, 0, 0, 8, 0, 0, 0, 0, 0xEDB88320, 9][(10 : Byte).toNat]? = some 9 := by decide

theorem witness_BsOpenAttachesWindow :
    small.src.total.toNat < (9 : Word).toNat + (1 : Word).toNat ∧
    (9 : Word).toNat + (0 : Word).toNat ≤ small.src.total.toNat ∧
    (0 : Word).toNat + (9 : Word).toNat ≤ small.src.total.toNat := by decide

/-- Also with buffers that hold a word and a line. -/
theorem witness_ExtractEqualsBits :
    small.params.Legal ∧ small.BuffersOk ∧ 32 ≤ 32 ∧ 0 ≤ 32 ∧ (after (.bsRead 32) small).bs.l1Tag = some 0 :=
  ⟨small_env.1, small_buffers, le_refl _, by decide, by decide⟩

theorem witness_BsReadReturnsBits :
    32 < (33 : Byte).toNat ∧ (32 : Byte).toNat ≤ 32 ∧ State.reset.bs.isOpen = false ∧
    (withError small).bs.isOpen = true ∧ (withError small).bs.err = true ∧
    (small.bs.isOpen = true ∧ small.bs.err = false ∧ small.params.Legal ∧ small.BuffersOk) ∧
    (atBit b1 0x29).remaining < (32 : Byte).toNat ∧ (32 : Byte).toNat ≤ (atBit b1 0x28).remaining :=
  ⟨by decide, by decide, by decide, by decide, by decide, ⟨by decide, by decide, small_env.1, small_buffers⟩, by decide,
    by decide⟩

theorem witness_BsPeekReturnsPaddedBits :
    32 < (33 : Byte).toNat ∧ (32 : Byte).toNat ≤ 32 ∧ State.reset.bs.isOpen = false ∧
    ((withError small).bs.isOpen = true ∧ (withError small).bs.err = true) ∧
    (small.bs.isOpen = true ∧ small.bs.err = false ∧ small.params.Legal ∧ small.BuffersOk) ∧ small.bitlen ≤ 72 :=
  ⟨by decide, by decide, by decide, by decide, ⟨by decide, by decide, small_env.1, small_buffers⟩, by decide⟩

theorem witness_ZeroBitReadsChangeNothing :
    small.bs.isOpen = true ∧ small.bs.err = false ∧ (withError small).bs.isOpen = true ∧
    (withError small).bs.err = true := by decide

theorem witness_BsSkipMovesForward :
    State.reset.bs.isOpen = false ∧ ((withError small).bs.isOpen = true ∧ (withError small).bs.err = true) ∧
    (small.bs.isOpen = true ∧ small.bs.err = false ∧ small.remaining < (70 : Word).toNat ∧
      (69 : Word).toNat ≤ small.remaining) := by decide

theorem witness_BsAlignReachesByteBoundary :
    State.reset.bs.isOpen = false ∧ ((withError small).bs.isOpen = true ∧ (withError small).bs.err = true) ∧
    small.StreamOk ∧ small.bs.isOpen = true ∧ small.bs.err = false :=
  ⟨by decide, by decide, small_stream, by decide, by decide⟩

theorem witness_BsHasAndAtendReportRemaining :
    State.reset.bs.isOpen = false ∧ ((withError small).bs.isOpen = true ∧ (withError small).bs.err = true) ∧
    small.bs.isOpen = true ∧ small.bs.err = false ∧ (69 : Word).toNat ≤ small.remaining := by decide

theorem witness_BsBackSeeksBackward :
    State.reset.bs.isOpen = false ∧ ((withError small).bs.isOpen = true ∧ (withError small).bs.err = true) ∧
    (small.bs.isOpen = true ∧ small.bs.err = false ∧ small.bs.pos.toNat < (4 : Word).toNat ∧
      (3 : Word).toNat ≤ small.bs.pos.toNat) := by decide

theorem witness_StickyErrorShortCircuits :
    (small.bs.err = false ∧ (after (.bsRead 32) (atBit b1 0x29)).bs.err = true ∧ (atBit b1 0x29).bs.err = false ∧
      (after (.bsSkip 70) small).bs.err = true ∧ (after (.hufDecode 0) (h1At 16)).bs.err = true ∧
      (h1At 16).bs.err = false) ∧
    ((withError small).bs.err = true ∧ (after (.bsOpen 0 9) (withError small)).bs.err = false ∧
      (after .sysReset (withError small)).bs.err = false) ∧
    ((withError small).bs.isOpen = true ∧ ((withError small).slot (0 : Byte).toNat).valid = true) := by decide

/-- The second state's buffers hold stream word 0 and line 0. -/
theorem witness_HiddenBuffersUnobservable :
    small.params.Legal ∧ small.BuffersOk ∧ small.StreamOk ∧ SameButBuffers small (small.fetchWord 0) ∧
    (small.fetchWord 0).bs.l1Tag = some 0 ∧ (small.fetchWord 0).bs.l1Word.toNat = small.streamWord 0 ∧
    ∃ t, exec (.bsRead 5) small = .next t :=
  ⟨small_env.1, small_buffers, small_stream, rfl, by decide, by decide, _, rfl⟩

theorem witness_CrcSeedAndGet :
    ∃ t, exec (.crcSeed (State.reset.crc.reg ^^^ 0xFFFFFFFF#32)) (State.reset.setCrc 1) = .next t ∧
      t.crc.reg = State.reset.crc.reg := ⟨_, rfl, by decide⟩

theorem witness_CrcUpdFeedsLowBytes :
    (0 : Byte).toNat < 1 ∧ 4 < (5 : Byte).toNat ∧ (1 : Byte) = 1 ∧ (2 ≤ (2 : Byte).toNat ∧ (2 : Byte).toNat ≤ 4) ∧
    (2 ≤ (4 : Byte).toNat ∧ (4 : Byte).toNat ≤ 4) := by decide

theorem witness_CrcUpdoAndUpdfFeedRanges :
    (lzAbc 8).lz.outLen.toNat < (3 : Word).toNat + (1 : Word).toNat ∧
    ((after (.lzSetout 1 8) (lzAbc 8)).lz.outDiscard = true) ∧
    ((lzAbc 8).lz.outDiscard = false ∧ (3 : Word).toNat + (0 : Word).toNat ≤ (lzAbc 8).lz.outLen.toNat ∧
      (0 : Word).toNat + (3 : Word).toNat ≤ (lzAbc 8).lz.outLen.toNat) ∧
    State.reset.params.fltMemSize < (0x3FFFF : Word).toNat + (2 : Word).toNat ∧
    (0x3FFFF : Word).toNat + (1 : Word).toNat ≤ State.reset.params.fltMemSize := by decide

theorem witness_HufStageWritesOneEntry :
    small.params.hufStageSize ≤ (1024 : Half).toNat ∧ 31 < (32 : Byte).toNat ∧
    Cells.Wf StageEntry.zero h3Staged.huf.stage ∧ (1023 : Half).toNat < small.params.hufStageSize ∧
    (31 : Byte).toNat ≤ 31 := by decide

theorem witness_BuildsReplaceTheSlot :
    (8 ≤ (8 : Byte).toNat ∧ State.reset.params.hufStageSize < (1025 : Half).toNat ∧ (0 : Word).toNat < 1 ∧
      31 < (32 : Word).toNat) ∧
    ((0 : Nat) < (1 : Half).toNat ∧ (Cells.read StageEntry.zero State.reset.huf.stage 0).length.toNat < 1 ∧
      (2 : Nat) < (3 : Half).toNat ∧
      (2 : Word).toNat < (Cells.read StageEntry.zero h3Staged.huf.stage 2).length.toNat) ∧
    State.reset.params.Legal ∧ (7 : Byte).toNat < 8 ∧ (1024 : Half).toNat ≤ State.reset.params.hufStageSize ∧
    (1 ≤ (1 : Word).toNat ∧ (31 : Word).toNat ≤ 31) ∧
    (∀ j, j < (3 : Half).toNat →
      1 ≤ (Cells.read StageEntry.zero h3Staged.huf.stage j).length.toNat ∧
      (Cells.read StageEntry.zero h3Staged.huf.stage j).length.toNat ≤ (3 : Word).toNat) ∧
    explicitBuild 65536 (stagedEntries h3Staged.huf.stage 3) =
      .ok [⟨1, 2⟩, ⟨0x41, 0x41⟩, ⟨3, 4⟩, ⟨0x42, 0x42⟩, ⟨5, emptyWord⟩, ⟨0x7FFFFFF, 0x7FFFFFF⟩] ∧
    canonicalBuild 65536 (stagedEntries h1Staged.huf.stage 8) 4 = .ok h1Nodes ∧
    canonicalBuild 65536 (stagedEntries [(0, ⟨1, 0, 0⟩), (1, ⟨1, 0, 0⟩), (2, ⟨1, 0, 0⟩)] 3) 1 =
      .error .huffPrefixPresent :=
  ⟨by decide, by decide, by decide, by decide, by decide, by decide, by decide, rfl, rfl, rfl⟩

theorem witness_BuildsNeverRunOutOfNodes :
    1 + 31 * State.reset.params.hufStageSize ≤ State.reset.params.hufNodeCap ∧
    ∃ t, exec (.hufBuildl 0 8 4) h1Staged = .next t := ⟨by decide, _, rfl⟩

/-- Every outcome of a walk: on the small slot a leaf and the end of the stream, on a slot whose only code is `00` an
unset branch with its two bits there and with one. -/
theorem witness_DecodeEqualsTreeWalk :
    (8 ≤ (8 : Byte).toNat ∧ (7 : Byte).toNat < 8 ∧ (small.slot (7 : Byte).toNat).valid = false ∧
      State.reset.bs.isOpen = false ∧ (withError small).bs.err = true) ∧
    (small.Inv ∧ (0 : Byte).toNat < 8 ∧ (small.slot (0 : Byte).toNat).valid = true ∧ small.bs.isOpen = true ∧
      small.bs.err = false ∧ small.walk 0 = .leaf 0 1) ∧
    ((after (.bsSkip 69) small).Inv ∧ (after (.bsSkip 69) small).bs.err = false ∧
      (after (.bsSkip 69) small).walk 0 = .outOfBits) ∧
    ((oneCode 0).Inv ∧ ((oneCode 0).slot 0).valid = true ∧ (oneCode 0).bs.isOpen = true ∧ (oneCode 0).bs.err = false ∧
      (oneCode 0).walk 0 = .unset 1 ∧ ((oneCode 0).slot 0).depth.toNat ≤ (oneCode 0).remaining) ∧
    ((oneCode 7).Inv ∧ (oneCode 7).walk 0 = .unset 1 ∧
      (oneCode 7).remaining < ((oneCode 7).slot 0).depth.toNat) :=
  ⟨by decide, ⟨small_inv, by decide, by decide, by decide, by decide, by decide⟩,
    ⟨⟨small_env, ⟨by decide, by decide, by decide⟩, small_buffers, small_memories, small_lz, small_slots⟩, by decide,
      by decide⟩,
    ⟨oneCode_inv 0 (by decide), by decide, by decide, by decide, by decide, by decide⟩,
    ⟨oneCode_inv 7 (by decide), by decide, by decide⟩⟩

/-- Codebook H3 on its stream: the first bit is the code of entry 0, the two from bit 1 on the code of entry 1. -/
theorem witness_ExplicitCodesRoundTrip :
    h3Staged.params.Legal ∧
    (∃ t, exec (.hufBuildc 2 3 3) h3Staged = .next t ∧ t.rsp.status = .ok ∧
      ((atBit [0x5B, 0x80] 1).setSlot 2 (t.slot 2)).slot 2 = t.slot 2) ∧
    (atBit [0x5B, 0x80] 1).params.Legal ∧ (atBit [0x5B, 0x80] 1).StreamOk ∧
    (atBit [0x5B, 0x80] 1).bs.l1Tag = none ∧ (atBit [0x5B, 0x80] 1).bs.l2Tag = none ∧
    (atBit [0x5B, 0x80] 1).bs.isOpen = true ∧ (atBit [0x5B, 0x80] 1).bs.err = false ∧
    (2 ≤ (atBit [0x5B, 0x80] 1).remaining ∧
      (atBit [0x5B, 0x80] 1).bits (atBit [0x5B, 0x80] 1).bs.pos.toNat 2 = (2 : Word).toNat % 2 ^ 2) :=
  ⟨by decide, ⟨_, rfl, by decide, by decide⟩, by decide, ⟨by decide, by decide, by decide⟩, rfl, rfl, rfl, rfl, by decide⟩

/-- Codebook H1: entry 5 has the first code, `00`, and entry 7 the last, `1111`; the stream holds entry 5's. -/
theorem witness_CanonicalCodesRoundTrip :
    h1Staged.params.Legal ∧
    (∃ t, exec (.hufBuildl 0 8 4) h1Staged = .next t ∧ t.rsp.status = .ok ∧ (h1At 0).slot 0 = t.slot 0) ∧
    (canonicalCode (fun j => (Cells.read StageEntry.zero h1Staged.huf.stage j).length.toNat) 8 5 = 0 ∧
      canonicalCode (fun j => (Cells.read StageEntry.zero h1Staged.huf.stage j).length.toNat) 8 7 = 15) ∧
    (h1At 0).params.Legal ∧ (h1At 0).StreamOk ∧ (h1At 0).bs.l1Tag = none ∧ (h1At 0).bs.l2Tag = none ∧
    (h1At 0).bs.isOpen = true ∧ (h1At 0).bs.err = false ∧ 2 ≤ (h1At 0).remaining ∧
    (h1At 0).bits (h1At 0).bs.pos.toNat 2 = 0 :=
  ⟨by decide, ⟨_, rfl, by decide, by decide⟩, by decide, by decide, ⟨by decide, by decide, by decide⟩, rfl, rfl, rfl,
    rfl, by decide, by decide⟩

theorem witness_HufFreeAndReaders :
    8 ≤ (8 : Byte).toNat ∧ (7 : Byte).toNat < 8 ∧ small.SlotsOk ∧ (small.slot 7).valid = false ∧
    (small.slot 0).valid = true ∧ 2 ^ (small.slot 0).depth.toNat ≤ (2 : Word).toNat ∧
    (small.slot 0).nNodes.toNat ≤ (3 : Word).toNat ∧
    ((1 : Word).toNat < 2 ^ (small.slot 0).depth.toNat ∧
      (small.slot 0).table[(1 : Word).toNat]? = some 0x08000001) ∧
    ((2 : Word).toNat < (small.slot 0).nNodes.toNat ∧ (small.slot 0).node[(2 : Word).toNat]? = some ⟨1, 1⟩) :=
  ⟨by decide, by decide, small_slots, by decide, by decide, by decide, by decide, by decide, by decide⟩

theorem witness_LzInitAndSetout :
    State.reset.params.winLog2Max < (31 : Byte).toNat ∧ State.reset.params.Legal ∧
    (30 : Byte).toNat ≤ State.reset.params.winLog2Max ∧ 1 < (2 : Byte).toNat ∧ (1 : Byte).toNat ≤ 1 := by decide

theorem lzAbc_memories : (lzAbc 8).MemoriesOk := by
  refine ⟨⟨?_, ?_⟩, ⟨?_, ?_⟩, ⟨?_, ?_⟩, ⟨?_, ?_⟩, ?_, ?_⟩ <;> decide

theorem lzAbc_lz : (lzAbc 8).LzOk := ⟨by decide, by decide, by decide, by decide⟩

theorem witness_LzLitEmitsOneByte :
    State.reset.lz.init = false ∧ ((lzOwed 8).lz.init = true ∧ (lzOwed 8).lz.ovLen ≠ 0) ∧
    ((lzAbc 3).lz.init = true ∧ (lzAbc 3).lz.ovLen = 0 ∧ (lzAbc 3).lz.outLen = (lzAbc 3).lz.outCap) ∧
    (lzAbc 8).MemoriesOk ∧ (lzAbc 8).lz.init = true ∧ (lzAbc 8).lz.ovLen = 0 ∧
    (lzAbc 8).lz.outLen ≠ (lzAbc 8).lz.outCap :=
  ⟨by decide, by decide, by decide, lzAbc_memories, by decide, by decide, by decide⟩

theorem witness_LzCopyAndDrainCounts :
    State.reset.lz.init = false ∧ ((lzOwed 8).lz.init = true ∧ (lzOwed 8).lz.ovLen ≠ 0) ∧
    ((lzAbc 8).LzOk ∧ (lzAbc 8).lz.init = true ∧ (lzAbc 8).lz.ovLen = 0 ∧
      5 = min (9 : Word).toNat ((lzAbc 8).lz.outCap.toNat - (lzAbc 8).lz.outLen.toNat) ∧ 4 = (9 : Word).toNat - 5) ∧
    ((lzOwed 3).LzOk ∧ (lzOwed 3).lz.init = true ∧
      3 = min (lzOwed 3).lz.ovLen.toNat ((lzOwed 3).lz.outCap.toNat - (lzOwed 3).lz.outLen.toNat) ∧
      1 = (lzOwed 3).lz.ovLen.toNat - 3) :=
  ⟨by decide, by decide, ⟨lzAbc_lz, by decide, by decide, by decide, by decide⟩,
    ⟨by decide, by decide, by decide, by decide⟩, by decide, by decide, by decide⟩

/-- A copy and a drain cut by the end of their buffers, and a copy into a discarding buffer. -/
theorem witness_CopiesRepeatPeriodically :
    ((lzAbc 8).MemoriesOk ∧ (lzAbc 8).lz.init = true ∧ (lzAbc 8).lz.ovLen = 0 ∧ (lzAbc 8).lz.outDiscard = false ∧
      ∃ t, exec (.lzCopy 3 9) (lzAbc 8) = .next t ∧ 4 < t.rsp.r0.toNat ∧
        t.rsp.r0.toNat ≤ 0 + 2 ^ (lzAbc 8).lz.k.toNat ∧
        ∀ m, m < 5 → 0 ≠ ((lzAbc 8).lz.wpos + BitVec.ofNat 64 m).toNat % 2 ^ (lzAbc 8).lz.k.toNat) ∧
    ((lzOwed 3).MemoriesOk ∧ (lzOwed 3).lz.init = true ∧
      ∃ t, exec .lzDrain (lzOwed 3) = .next t ∧ t.rsp.r0 = 3 ∧ t.rsp.r1 = 1) ∧
    ((after (.lzSetout 1 8) (lzAbc 8)).lz.outDiscard = true ∧
      ∃ t, exec (.lzCopy 3 9) (after (.lzSetout 1 8) (lzAbc 8)) = .next t ∧ t.rsp.r0 = 8) :=
  ⟨⟨lzAbc_memories, by decide, by decide, by decide, _, rfl, by decide, by decide, by decide⟩,
    ⟨by refine ⟨⟨?_, ?_⟩, ⟨?_, ?_⟩, ⟨?_, ?_⟩, ⟨?_, ?_⟩, ?_, ?_⟩ <;> decide, by decide, _, rfl, by decide, by decide⟩,
    by decide, _, rfl, by decide⟩

theorem witness_ChunkingInvariance :
    (lzAbc 8).MemoriesOk ∧ (lzAbc 8).LzOk ∧ (lzAbc 8).lz.outDiscard = false ∧ (1 : Byte).toNat ≤ 1 ∧
    (lzAbc 8).lz.outLen.toNat + (9 : Word).toNat ≤ (12 : Word).toNat ∧
    (∃ d, exec (.lzCopy 3 9) ((lzAbc 8).setLz { (lzAbc 8).lz with outCap := 12 }) = .next d ∧ d.rsp.status = .ok) ∧
    ∃ a b c, exec (.lzCopy 3 9) (lzAbc 8) = .next a ∧ exec (.lzSetout 0 4) a = .next b ∧ exec .lzDrain b = .next c ∧
      c.lz.ovLen = 0 :=
  ⟨lzAbc_memories, lzAbc_lz, by decide, by decide, by decide, ⟨_, rfl, by decide⟩, _, _, _, rfl, rfl, rfl, by decide⟩

theorem witness_LzReaders :
    ((after (.lzSetout 1 8) (lzAbc 8)).lz.outDiscard = true ∧ (lzAbc 8).lz.outLen.toNat ≤ (3 : Word).toNat) ∧
    ((lzAbc 8).lz.outDiscard = false ∧ (2 : Word).toNat < (lzAbc 8).lz.outLen.toNat) ∧ State.reset.lz.init = false ∧
    ((lzAbc 8).MemoriesOk ∧ (lzAbc 8).lz.init = true ∧
      ∃ t, exec (.lzCopy 3 1) (lzAbc 8) = .next t ∧ t.rsp.r0 = 1) :=
  ⟨by decide, by decide, by decide, lzAbc_memories, by decide, _, rfl, by decide⟩

theorem witness_FltByteAccess :
    State.reset.params.fltMemSize ≤ (0x40000 : Word).toNat ∧ (0x3FFFF : Word).toNat < State.reset.params.fltMemSize ∧
    small.MemoriesOk := ⟨by decide, by decide, small_memories⟩

theorem witness_FilterBounds :
    (0 : Word) = 0 ∧ ((1 : Word) ≠ 0 ∧ State.reset.params.fltMemSize / 2 < (0x20001 : Word).toNat) ∧
    2 < (3 : Byte).toNat ∧ ((2 : Byte).toNat ≤ 2 ∧ (2 : Word).toNat < 3 ∧ (3 : Word).toNat < (4 : Word).toNat) ∧
    (State.reset.params.fltMemSize < (0x40001 : Word).toNat ∧ (3 : Word).toNat < 4) ∧
    ((0x40000 : Word).toNat ≤ State.reset.params.fltMemSize ∧ 4 ≤ (4 : Word).toNat ∧
      0x80000000 < (0x7FFFFFFD : Word).toNat + (4 : Word).toNat ∧
      0x80000000 < (0x7FFC0001 : Word).toNat + (0x40000 : Word).toNat) := by decide

theorem witness_PredictiveTransformsWriteTheirOutputSlice :
    ((1 : Word) ≠ 0 ∧ (0x20000 : Word).toNat ≤ State.reset.params.fltMemSize / 2) ∧
    ((2 : Byte).toNat ≤ 2 ∧ 3 ≤ (3 : Word).toNat ∧ (3 : Word).toNat ≤ (3 : Word).toNat ∧
      (3 : Word).toNat ≤ State.reset.params.fltMemSize / 2) := by decide

/-- Channels 0, 1 and 2 of eight bytes have three, three and two samples; also where there are more channels than
bytes. -/
theorem witness_DeltaOutputsAreNegatedSums :
    (withFmem [1, 2, 3, 4, 5, 6, 7, 8]).flt.mem.Wf ∧ (3 : Word) ≠ 0 ∧
    (8 : Word).toNat ≤ State.reset.params.fltMemSize / 2 ∧ 2 < (3 : Word).toNat ∧ 2 < channelSamples 8 3 0 ∧
    1 < channelSamples 8 3 2 ∧ ¬ 2 < channelSamples 8 3 2 ∧ channelStart 8 3 2 = 6 ∧
    (0 < channelSamples 3 5 2 ∧ ¬ 0 < channelSamples 3 5 3) := by decide

theorem witness_AudioOutputsFollowThePredictor :
    (withFmem [0x10, 0xF0, 5, 0x7F]).flt.mem.Wf ∧ (2 : Word) ≠ 0 ∧
    (4 : Word).toNat ≤ State.reset.params.fltMemSize / 2 ∧ 1 < (2 : Word).toNat ∧ 1 < channelSamples 4 2 1 := by decide

theorem witness_OneRowRgbIsThreeChannelDelta :
    3 ≤ (3 : Word).toNat ∧ (0x20000 : Word).toNat ≤ State.reset.params.fltMemSize / 2 ∧
    (3 : Word).toNat ≤ State.reset.params.fltMemSize / 2 ∧ (2 : Byte).toNat ≤ 2 ∧
    ∃ t, exec (.fltDelta 0 3 3) (withFmem [0x10, 0x20, 0x30]) = .next t :=
  ⟨by decide, by decide, by decide, by decide, _, rfl⟩

/-- Rows of six bytes, of three (the upper neighbour is the byte itself) and of no whole number of pixels; a prediction of
each kind. -/
theorem witness_RgbOutputsFollowThePrediction :
    (withFmem [1, 2, 3, 4, 5, 6, 7, 8, 9]).flt.mem.Wf ∧ (9 : Word).toNat ≤ State.reset.params.fltMemSize / 2 ∧
    (3 ≤ (3 : Word).toNat ∧ (4 : Word).toNat ≤ (9 : Word).toNat ∧ (6 : Word).toNat ≤ (9 : Word).toNat ∧
      (2 : Byte).toNat ≤ 2) ∧
    RgbPrediction 10 10 10 10 ∧ RgbPrediction 10 20 11 20 ∧ RgbPrediction 10 30 20 20 := by
  refine ⟨by decide, by decide, by decide, ?_⟩
  unfold RgbPrediction
  decide

/-- An operand at the last position scanned, a byte in none, and both bounds met exactly. -/
theorem witness_X86TransformsRewriteOperands :
    (withFmem [0xE8, 0x10]).flt.mem.Wf ∧ (5 : Word).toNat ≤ State.reset.params.fltMemSize ∧ 4 ≤ (4 : Word).toNat ∧
    4 ≤ (5 : Word).toNat ∧ (0x7FFFFFFB : Word).toNat + (5 : Word).toNat ≤ 0x80000000 ∧
    OperandAt (fun b => b == 0xE8#8) (withFmem [0xE8, 0x10]).flt.mem 5 0 ∧
    ¬ ∃ i, OperandAt (fun b => b == 0xE8#8) (withFmem [0xE8, 0x10]).flt.mem 5 i ∧ i < 0 ∧ 0 < i + 5 :=
  ⟨by decide, by decide, by decide, by decide, by decide, ⟨.start, by decide, by decide⟩, by simp⟩

/-- A branch in the last whole word of the slice, and bytes of no branch. -/
theorem witness_ArmTransformRebasesBranches :
    (withFmem [0, 0, 0, 0xEB, 1]).flt.mem.Wf ∧ (5 : Word).toNat ≤ State.reset.params.fltMemSize ∧
    4 ≤ (5 : Word).toNat ∧ (0x7FFFFFFB : Word).toNat + (5 : Word).toNat ≤ 0x80000000 ∧
    (4 * 0 + 4 ≤ (5 : Word).toNat ∧ (withFmem [0, 0, 0, 0xEB, 1]).flt.mem.read (4 * 0 + 3) = 0xEB#8) ∧
    ¬ (4 * (4 / 4) + 4 ≤ (5 : Word).toNat) := by decide

end Sys2Proof.Tests
end

section
/-! The commands by the unit they write (10_state.md R12, R13): what one command can do at all, and so what every
command leaves alone; then what one step can do. -/

namespace Sys2Proof.Machine

/-! ### One command, one unit -/

/-- The unit a command may write besides the response registers (R13, R32); `answer` is none, and each table slot is a
unit of its own. -/
inductive StateUnit where
  | answer | stream | crc | stage | slot (t : Nat) | lz | fmem

/-- The unit of each command but `SYS.RESET`, which writes them all. -/
def unitOf : Instr → StateUnit
  | .bsOpen _ _ | .bsRead _ | .bsPeek _ | .bsSkip _ | .bsAlign | .bsBack _ | .hufDecode _ => .stream
  | .crcSeed _ | .crcUpd _ _ | .crcUpdo _ _ | .crcUpdf _ _ => .crc
  | .hufStage _ _ _ _ => .stage
  | .hufBuildl slot _ _ | .hufBuildc slot _ _ | .hufFree slot => .slot slot.toNat
  | .lzInit _ | .lzSetout _ _ | .lzLit _ | .lzCopy _ _ | .lzDrain => .lz
  | .fltWr _ _ | .fltDelta _ _ _ | .fltAudio _ _ _ | .fltRgb _ _ _ _ | .fltX86 _ _ | .fltX86e9 _ _
  | .fltArm _ _ => .fmem
  | .sysNop | .sysReset | .sysStat | .sysParam _ | .bsHas _ | .bsAtend | .bsErr | .bsTell | .crcGet | .hufRdtab _ _
  | .hufRdnode _ _ | .lzHasov | .lzOutlen | .lzOutrd _ | .lzTell | .lzWinrd _ | .fltRd _ => .answer

/-- `t` is `s` with at most the one unit updated, and a response written. -/
inductive Effect (s : State) : StateUnit → State → Prop
  | answer (p : StateUnit) (st : Status) (r0 : DWord) (r1 : Word) : Effect s p (s.respond st r0 r1)
  | stream (v : Bs) (st : Status) (r0 : DWord) (r1 : Word) : Effect s .stream ((s.setBs v).respond st r0 r1)
  | crc (v : Word) (st : Status) (r0 : DWord) (r1 : Word) : Effect s .crc ((s.setCrc v).respond st r0 r1)
  | stage (v : List (Nat × StageEntry)) (st : Status) (r0 : DWord) (r1 : Word) :
    Effect s .stage ((s.setStage v).respond st r0 r1)
  | slot (t : Nat) (v : Slot) (st : Status) (r0 : DWord) (r1 : Word) :
    Effect s (.slot t) ((s.setSlot t v).respond st r0 r1)
  | lz (v : Lz) (st : Status) (r0 : DWord) (r1 : Word) : Effect s .lz ((s.setLz v).respond st r0 r1)
  | fmem (v : Mem) (st : Status) (r0 : DWord) (r1 : Word) : Effect s .fmem ((s.setFmem v).respond st r0 r1)

namespace Effect

variable {s t : State} {p : StateUnit}

/-- A failure is a response. -/
theorem fail (p : StateUnit) (st : Status) : Effect s p (s.fail st) := .answer p st 0 0

/-- Whichever branch is taken. -/
theorem ite {c : Prop} [Decidable c] {a b : State} (ha : Effect s p a) (hb : Effect s p b) :
    Effect s p (if c then a else b) := by
  split
  · exact ha
  · exact hb

/-- The checks before a stream command (R70, R72) only answer. -/
theorem onStream {failValue : DWord} {act : State} (h : Effect s p act) : Effect s p (s.onStream failValue act) :=
  .ite (.fail p _) (.ite (.answer p _ _ _) h)

/-- Reads through the buffers, on whatever position, stay in the Bitstream unit. -/
theorem of_same {w : Bs} {v : State} (h : SameButBuffers (s.setBs w) v) (st : Status) (r0 : DWord) (r1 : Word) :
    Effect s .stream (v.respond st r0 r1) := by
  rw [h]
  exact .stream _ st r0 r1

/-- `HUF.DECODE` reads the slot and stays in the Bitstream unit. -/
theorem decodeSymbol (h : Slot) : Effect s .stream (s.decodeSymbol h) := by
  obtain ⟨hparams, hsrc, hhost, hcrc, hhuf, hlz, hflt, -⟩ := s.decodeSymbol_frame h
  have heq : s.decodeSymbol h = (s.setBs (s.decodeSymbol h).bs).respond (s.decodeSymbol h).rsp.status
      (s.decodeSymbol h).rsp.r0 (s.decodeSymbol h).rsp.r1 := by
    rw [State.respond, State.setBs, ← hparams, ← hsrc, ← hhost, ← hcrc, ← hhuf, ← hlz, ← hflt]
  rw [heq]
  exact .stream _ _ _ _

/-- A build writes its slot, whether it succeeds or fails (R108). -/
theorem finishBuild (slot maxlen : Nat) (r : Except Status (List Node)) :
    Effect s (.slot slot) (s.finishBuild slot maxlen r) := by
  cases r with
  | error st => exact .slot _ _ _ _ _
  | ok ns => exact .slot _ _ _ _ _

/-- An in-place transform writes FMEM or fails (R142). -/
theorem inPlace (pos n : Word) (m : Mem) : Effect s .fmem (s.inPlace pos n m) :=
  .ite (.fail _ _) (.ite (.fail _ _) (.fmem _ _ _ _))

end Effect

/-- Every command but `SYS.RESET` writes its own unit and a response, and no more. -/
theorem exec_effect {i : Instr} {s t : State} (h : exec i s = .next t) (hi : i ≠ .sysReset) :
    Effect s (unitOf i) t := by
  cases i with
  | sysReset => exact absurd rfl hi
  | sysNop | sysStat | bsErr | bsTell | crcGet | lzHasov | lzOutlen | lzTell => cases h; exact .answer _ _ _ _
  | sysParam | lzWinrd | lzOutrd | fltRd => cases h; exact .ite (.fail _ _) (.answer _ _ _ _)
  | bsHas | bsAtend => cases h; exact .onStream (.answer _ _ _ _)
  | hufRdtab | hufRdnode =>
    cases h; exact .ite (.fail _ _) (.ite (.fail _ _) (.ite (.fail _ _) (.answer _ _ _ _)))
  | bsOpen => cases h; exact .ite (.fail _ _) (.stream _ _ _ _)
  | bsRead =>
    cases h
    exact .ite (.fail _ _) (.onStream (.ite (.stream _ _ _ _) (.of_same ((s.extract_same _ _).advance _) _ _ _)))
  | bsPeek => cases h; exact .ite (.fail _ _) (.onStream (.of_same (s.extract_same _ _) _ _ _))
  | bsSkip => cases h; exact .onStream (.ite (.stream _ _ _ _) (.stream _ _ _ _))
  | bsAlign => cases h; exact .onStream (.stream _ _ _ _)
  | bsBack => cases h; exact .onStream (.ite (.fail _ _) (.stream _ _ _ _))
  | hufDecode => cases h; exact .ite (.fail _ _) (.ite (.fail _ _) (.onStream (.decodeSymbol _)))
  | crcSeed => cases h; exact .crc _ _ _ _
  | crcUpd | crcUpdo | crcUpdf => cases h; exact .ite (.fail _ _) (.crc _ _ _ _)
  | hufStage => cases h; exact .ite (.fail _ _) (.stage _ _ _ _)
  | hufBuildl => cases h; exact .ite (.fail _ _) (.finishBuild _ _ _)
  | hufBuildc => cases h; exact .ite (.fail _ _) (.ite (.fail _ _) (.finishBuild _ _ _))
  | hufFree => cases h; exact .ite (.fail _ _) (.slot _ _ _ _ _)
  | lzInit | lzSetout => cases h; exact .ite (.fail _ _) (.lz _ _ _ _)
  | lzLit => cases h; exact .ite (.fail _ _) (.ite (.fail _ _) (.ite (.fail _ _) (.lz _ _ _ _)))
  | lzCopy => cases h; exact .ite (.fail _ _) (.ite (.fail _ _) (.lz _ _ _ _))
  | lzDrain => cases h; exact .ite (.fail _ _) (.lz _ _ _ _)
  | fltWr => cases h; exact .ite (.fail _ _) (.fmem _ _ _ _)
  | fltDelta | fltAudio | fltRgb => cases h; exact .ite (.fail _ _) (.ite (.fail _ _) (.fmem _ _ _ _))
  | fltX86 | fltX86e9 | fltArm => cases h; exact .inPlace _ _ _

/-- `SYS.RESET` is the hardware reset and a response (R161). -/
theorem exec_sysReset (s : State) : exec .sysReset s = .next s.hardReset.done := rfl

/-! ### What an effect leaves alone -/

namespace Effect

variable {s t : State} {p : StateUnit}

theorem params_eq (h : Effect s p t) : t.params = s.params := by cases h <;> rfl

theorem src_eq (h : Effect s p t) : t.src = s.src := by cases h <;> rfl

theorem host_eq (h : Effect s p t) : t.host = s.host := by cases h <;> rfl

theorem bs_eq (h : Effect s p t) (hp : p ≠ .stream) : t.bs = s.bs := by
  cases h with
  | stream => exact absurd rfl hp
  | _ => rfl

theorem crc_eq (h : Effect s p t) (hp : p ≠ .crc) : t.crc = s.crc := by
  cases h with
  | crc => exact absurd rfl hp
  | _ => rfl

theorem stage_eq (h : Effect s p t) (hp : p ≠ .stage) : t.huf.stage = s.huf.stage := by
  cases h with
  | stage => exact absurd rfl hp
  | _ => rfl

theorem slot_eq (h : Effect s p t) (u : Nat) (hp : p ≠ .slot u) : t.slot u = s.slot u := by
  cases h with
  | slot v => exact s.slot_setSlot_ne v u _ fun hv => hp (by rw [hv])
  | _ => rfl

theorem lz_eq (h : Effect s p t) (hp : p ≠ .lz) : t.lz = s.lz := by
  cases h with
  | lz => exact absurd rfl hp
  | _ => rfl

theorem flt_eq (h : Effect s p t) (hp : p ≠ .fmem) : t.flt = s.flt := by
  cases h with
  | fmem => exact absurd rfl hp
  | _ => rfl

end Effect

/-! ### One step -/

/-- All a step can do: with no command waiting nothing; else take the first word and run its command, or answer that it
is none. -/
theorem step_cases {s t : State} (h : step s = .next t) :
    (s.host = [] ∧ t = s) ∨
    ∃ w rest, s.host = w :: rest ∧
      ((∃ i, decode w = .ok i ∧ exec i { s with host := rest } = .next t) ∨
        t = State.fail { s with host := rest } .badCommand) := by
  unfold step at h
  split at h
  · next hh => cases h; exact .inl ⟨hh, rfl⟩
  · next w rest hh =>
    refine .inr ⟨w, rest, hh, ?_⟩
    split at h
    · next i hd => exact .inl ⟨i, hd, h⟩
    · cases h; exact .inr rfl

/-- Where every command takes `P` to `Q`, every step does: `P` does not see the host's list, nor `Q` the answer to a word
that is no command. -/
theorem step_of_exec {P Q : State → Prop} (hhost : ∀ s l, P s → P { s with host := l }) (hidle : ∀ s, P s → Q s)
    (hfail : ∀ s st, Q s → Q (s.fail st)) (hexec : ∀ i s t, P s → exec i s = .next t → Q t) {s t : State} (hs : P s)
    (h : step s = .next t) : Q t := by
  obtain ⟨-, rfl⟩ | ⟨w, rest, -, ⟨i, -, hi⟩ | rfl⟩ := step_cases h
  · exact hidle _ hs
  · exact hexec i _ t (hhost s rest hs) hi
  · exact hfail _ _ (hidle _ (hhost s rest hs))

end Sys2Proof.Machine
end

section
/-! The Bitstream unit's invariants (10_state.md R15, R16): every step keeps the position within the stream, and the
hidden buffers holding what their tags say. -/

namespace Sys2Proof.Machine

/-! ### The stream (R15, R72) -/

/-- R15's invariant reads the Bitstream unit and the source only. -/
theorem State.streamOk_of_eq {s t : State} (hs : s.StreamOk) (hsrc : t.src = s.src) (hbs : t.bs = s.bs) :
    t.StreamOk := by
  rw [State.StreamOk, State.bitlen, hsrc, hbs]
  exact hs

/-- A position within the stream keeps it. -/
theorem State.streamOk_setPos {s : State} (hs : s.StreamOk) (p : DWord) (hp : p.toNat ≤ s.bitlen) :
    (s.setBs { s.bs with pos := p }).StreamOk := ⟨hp, hs.2⟩

/-- The sticky error on an open stream keeps it. -/
theorem State.overRead_streamOk {s : State} (hs : s.StreamOk) (hopen : s.bs.isOpen = true) : s.overRead.StreamOk :=
  ⟨hs.1, hs.2.1, fun _ => hopen⟩

/-- A predicate that no response changes holds after the checks of a stream command, where it holds before and, with an
open stream and no error, after the action. -/
theorem State.onStream_of {Q : State → Prop} {s : State} {failValue : DWord} {act : State}
    (hrsp : ∀ st r0 r1, Q (s.respond st r0 r1)) (hact : s.bs.isOpen = true → s.bs.err = false → Q act) :
    Q (s.onStream failValue act) := by
  rcases s.onStream_cases failValue act with ⟨-, h⟩ | ⟨-, -, h⟩ | ⟨hopen, herr, h⟩ <;> rw [h]
  · exact hrsp _ _ _
  · exact hrsp _ _ _
  · exact hact hopen herr

/-- Rounding a position up to a byte boundary stays within the stream, which ends at one. -/
theorem State.align_le {s : State} (hs : s.StreamOk) :
    (BitVec.ofNat 64 ((s.bs.pos.toNat + 7) / 8 * 8)).toNat ≤ s.bitlen := by
  have hpos : s.bs.pos.toNat ≤ 8 * s.bs.size.toNat := hs.1
  rw [State.bitlen, BitVec.toNat_ofNat]
  omega

/-- Moving back stays within the stream. -/
theorem State.back_le {s : State} (hs : s.StreamOk) (n : Word) (hn : n.toNat ≤ s.bs.pos.toNat) :
    (s.bs.pos - n.setWidth 64).toNat ≤ s.bitlen := by
  have hpos := hs.1
  have hle : n.setWidth 64 ≤ s.bs.pos := by
    rw [BitVec.le_def, BitVec.toNat_setWidth]
    omega
  rw [BitVec.toNat_sub_of_le hle]
  omega

/-- The decode keeps R15's invariant: it over-reads, or moves by no more than remains. -/
theorem State.decodeSymbol_streamOk {s : State} (hs : s.StreamOk) (hopen : s.bs.isOpen = true) (h : Slot) :
    (s.decodeSymbol h).StreamOk := by
  obtain ⟨k, v, hk, hv, hout⟩ := s.decodeSymbol_cases h hs
  have hvs : v.StreamOk := hv.streamOk (s.advance_streamOk k hs hk)
  rcases hout with ⟨-, he⟩ | he | ⟨sym, n, he⟩ <;> rw [he]
  · have hvopen : v.bs.isOpen = s.bs.isOpen := by
      rw [sameButBuffers_iff] at hv
      simp [hv]
    exact State.overRead_streamOk hvs (hvopen.trans hopen)
  · exact hvs
  · exact hvs

/-- After a reset the stream is empty. -/
theorem State.hardReset_streamOk (s : State) : s.hardReset.StreamOk := by
  refine ⟨Nat.zero_le _, fun h => ?_, fun h => ?_⟩ <;> cases h

/-- A window that fits is within SRC, its position at the start. -/
theorem execBsOpen_streamOk {base size : Word} {s t : State} (hs : s.StreamOk)
    (h : execBsOpen base size s = .next t) : t.StreamOk := by
  cases h
  split
  · exact hs
  · next hfit => exact ⟨Nat.zero_le _, fun _ => Nat.le_of_not_lt hfit, fun he => by cases he⟩

/-- Every command keeps R15's invariant. -/
theorem exec_streamOk {i : Instr} {s t : State} (hs : s.StreamOk) (h : exec i s = .next t) : t.StreamOk := by
  have hrsp : ∀ st r0 r1, (s.respond st r0 r1).StreamOk := fun _ _ _ => hs
  cases i with
  | sysReset => cases h; exact s.hardReset_streamOk
  | bsOpen base size => exact execBsOpen_streamOk hs h
  | bsRead n =>
    cases h
    split
    · exact hs
    refine State.onStream_of hrsp fun hopen _ => ?_
    split
    · exact State.overRead_streamOk hs hopen
    · next hn =>
      exact ((s.extract_same _ _).advance n.toNat).streamOk (s.advance_streamOk n.toNat hs (Nat.le_of_not_lt hn))
  | bsPeek n =>
    cases h
    split
    · exact hs
    · exact State.onStream_of hrsp fun _ _ => (s.extract_same _ _).streamOk hs
  | bsSkip n =>
    cases h
    refine State.onStream_of hrsp fun hopen _ => ?_
    split
    · exact State.overRead_streamOk hs hopen
    · next hn => exact s.advance_streamOk n.toNat hs (Nat.le_of_not_lt hn)
  | bsAlign =>
    cases h
    exact State.onStream_of hrsp fun _ _ => State.streamOk_setPos hs _ (State.align_le hs)
  | bsBack n =>
    cases h
    refine State.onStream_of hrsp fun _ _ => ?_
    split
    · exact hs
    · next hn => exact State.streamOk_setPos hs _ (State.back_le hs n (Nat.le_of_not_lt hn))
  | hufDecode slot =>
    cases h
    split
    · exact hs
    split
    · exact hs
    · exact State.onStream_of hrsp fun hopen _ => State.decodeSymbol_streamOk hs hopen _
  | _ =>
    have he := exec_effect h (by nofun)
    exact State.streamOk_of_eq hs he.src_eq (he.bs_eq (by nofun))

/-- Settles O15: each stream command moves the position by no more than remains, and every other leaves the unit. -/
theorem stepKeepsStreamInvariant : Obligations.StepKeepsStreamInvariant := fun _ _ hs h =>
  step_of_exec (P := State.StreamOk) (fun _ _ h => h) (fun _ h => h) (fun _ _ h => h) (fun _ _ _ => exec_streamOk) hs h

/-! ### The hidden buffers (R16, R84 to R86) -/

/-- Within the stream, both words of a field have a number that fits a tag. -/
theorem State.pos_word_lt {s : State} (hs : s.StreamOk) : s.bs.pos.toNat / 64 + 1 < 2 ^ 32 := by
  have hpos : s.bs.pos.toNat ≤ 8 * s.bs.size.toNat := hs.1
  have := s.bs.size.isLt
  omega

/-- Buffers that hold nothing are coherent. -/
theorem State.buffersOk_of_none {s : State} (h1 : s.bs.l1Tag = none) (h2 : s.bs.l2Tag = none) : s.BuffersOk := by
  simp [State.BuffersOk, h1, h2]

/-- A new window makes both tags INVALID (R73). -/
theorem execBsOpen_buffersOk {base size : Word} {s t : State} (hb : s.BuffersOk)
    (h : execBsOpen base size s = .next t) : t.BuffersOk := by
  cases h
  split
  · exact hb
  · exact State.buffersOk_of_none rfl rfl

/-- Every command keeps coherent buffers coherent. -/
theorem exec_buffersOk {i : Instr} {s t : State} (hp : s.params.Legal) (hs : s.StreamOk) (hb : s.BuffersOk)
    (h : exec i s = .next t) : t.BuffersOk := by
  have hrsp : ∀ st r0 r1, (s.respond st r0 r1).BuffersOk := fun _ _ _ => hb
  have hread : ∀ n, (s.extract s.bs.pos.toNat n).2.BuffersOk := fun n =>
    s.extract_buffersOk _ n hp hb (State.pos_word_lt hs)
  have hmove : ∀ p e, (s.setBs { s.bs with pos := p, err := e }).BuffersOk := fun _ _ =>
    State.buffersOk_of_eq hb rfl rfl rfl
  cases i with
  | sysReset => cases h; exact State.buffersOk_of_none rfl rfl
  | bsOpen base size => exact execBsOpen_buffersOk hb h
  | bsRead n =>
    cases h
    split
    · exact hb
    refine State.onStream_of hrsp fun _ _ => ?_
    split
    · exact hmove _ _
    · exact State.advance_buffersOk _ n.toNat (hread n.toNat)
  | bsPeek n =>
    cases h
    split
    · exact hb
    · exact State.onStream_of hrsp fun _ _ => hread n.toNat
  | bsSkip n =>
    cases h
    refine State.onStream_of hrsp fun _ _ => ?_
    split
    · exact hmove _ _
    · exact hmove _ _
  | bsAlign => cases h; exact State.onStream_of hrsp fun _ _ => hmove _ _
  | bsBack n =>
    cases h
    refine State.onStream_of hrsp fun _ _ => ?_
    split
    · exact hb
    · exact hmove _ _
  | hufDecode slot =>
    cases h
    split
    · exact hb
    split
    · exact hb
    · exact State.onStream_of hrsp fun _ _ => s.decodeSymbol_buffersOk _ hp hs hb
  | _ =>
    have he := exec_effect h (by nofun)
    exact State.buffersOk_of_eq hb he.params_eq he.src_eq (by rw [he.bs_eq (by nofun)])

/-- Settles O16: a fetch of a word within the stream leaves true tags, moving the position leaves the buffers, and a new
window or a reset makes both tags INVALID. -/
theorem stepKeepsBuffersCoherent : Obligations.StepKeepsBuffersCoherent := fun _ _ henv hs hb h =>
  step_of_exec (P := fun s => s.params.Legal ∧ s.StreamOk ∧ s.BuffersOk) (Q := State.BuffersOk) (fun _ _ h => h)
    (fun _ ⟨_, _, hb⟩ => hb) (fun _ _ h => h) (fun _ _ _ ⟨hp, hs, hb⟩ => exec_buffersOk hp hs hb) ⟨henv.1, hs, hb⟩ h

/-! ### No command shows the hidden buffers (R71, R87) -/

/-- The state with the hidden buffers of another Bitstream unit. -/
def State.withBuffers (s : State) (b : Bs) : State :=
  s.setBs { s.bs with l1Tag := b.l1Tag, l1Word := b.l1Word, l2Tag := b.l2Tag, l2Data := b.l2Data }

/-- Other buffers are all the difference they make. -/
theorem State.withBuffers_same (s : State) (b : Bs) : SameButBuffers s (s.withBuffers b) := rfl

/-- Conversely the second of two such states is the first with the second's buffers. -/
theorem SameButBuffers.eq_withBuffers {s u : State} (h : SameButBuffers s u) : u = s.withBuffers u.bs := h

theorem State.ite_withBuffers {c : Prop} [Decidable c] (a a' : State) (b : Bs) :
    (if c then a else a').withBuffers b = if c then a.withBuffers b else a'.withBuffers b :=
  apply_ite (State.withBuffers · b) c a a'

theorem State.onStream_withBuffers (s act : State) (failValue : DWord) (b : Bs) :
    (s.onStream failValue act).withBuffers b = (s.withBuffers b).onStream failValue (act.withBuffers b) := by
  rw [State.onStream, State.ite_withBuffers, State.ite_withBuffers]
  rfl

theorem State.inPlace_withBuffers (s : State) (pos n : Word) (m : Mem) (b : Bs) :
    (s.inPlace pos n m).withBuffers b = (s.withBuffers b).inPlace pos n m := by
  rw [State.inPlace, State.ite_withBuffers, State.ite_withBuffers]
  rfl

theorem State.finishBuild_withBuffers (s : State) (slot maxlen : Nat) (r : Except Status (List Node)) (b : Bs) :
    (s.finishBuild slot maxlen r).withBuffers b = (s.withBuffers b).finishBuild slot maxlen r := by
  cases r <;> rfl

/-- The commands that touch the hidden buffers: three read the stream through them, two make them INVALID. -/
def touchesBuffers : Instr → Bool
  | .bsRead _ | .bsPeek _ | .hufDecode _ | .bsOpen _ _ | .sysReset => true
  | _ => false

/-- A command that does not touch the buffers does the same over any of them and keeps them. -/
theorem exec_withBuffers {i : Instr} {s t : State} (hi : touchesBuffers i = false) (h : exec i s = .next t) (b : Bs) :
    exec i (s.withBuffers b) = .next (t.withBuffers b) := by
  cases i with
  | bsRead | bsPeek | hufDecode | bsOpen | sysReset => cases hi
  | sysNop | sysStat | bsErr | bsTell | crcSeed | crcGet | lzHasov | lzOutlen | lzTell => cases h; rfl
  | bsHas | bsAtend | bsAlign => cases h; rw [State.onStream_withBuffers]; rfl
  | bsSkip | bsBack => cases h; rw [State.onStream_withBuffers, State.ite_withBuffers]; rfl
  | sysParam | crcUpd | crcUpdo | crcUpdf | hufStage | hufFree | lzInit | lzSetout | lzOutrd | lzWinrd | fltWr
  | fltRd | lzDrain =>
    cases h; rw [State.ite_withBuffers]; rfl
  | lzCopy | fltDelta | fltAudio | fltRgb => cases h; rw [State.ite_withBuffers, State.ite_withBuffers]; rfl
  | hufRdtab | hufRdnode | lzLit =>
    cases h; rw [State.ite_withBuffers, State.ite_withBuffers, State.ite_withBuffers]; rfl
  | hufBuildl => cases h; rw [State.ite_withBuffers, State.finishBuild_withBuffers]; rfl
  | hufBuildc => cases h; rw [State.ite_withBuffers, State.ite_withBuffers, State.finishBuild_withBuffers]; rfl
  | fltX86 | fltX86e9 | fltArm => cases h; rw [State.inPlace_withBuffers]; rfl

/-- Two states of one build that differ at most in the hidden buffers, both coherent, on a stream within its bounds. -/
structure Coupled (s u : State) : Prop where
  legal : s.params.Legal
  same : SameButBuffers s u
  left : s.BuffersOk
  right : u.BuffersOk
  stream : s.StreamOk

namespace Coupled

variable {s u : State}

theorem params_eq (h : Coupled s u) : u.params = s.params := ((sameButBuffers_iff s u).1 h.same).1

theorem pos_eq (h : Coupled s u) : u.bs.pos = s.bs.pos := by
  have hsame := h.same
  rw [sameButBuffers_iff] at hsame
  simp [hsame]

theorem legal_right (h : Coupled s u) : u.params.Legal := h.params_eq ▸ h.legal

/-- A fetch brings the same word to both, the stream's (R85). -/
theorem fetchWord_l1Word (h : Coupled s u) (w : Nat) : (u.fetchWord w).bs.l1Word = (s.fetchWord w).bs.l1Word := by
  apply BitVec.eq_of_toNat_eq
  rw [u.fetchWord_l1Word w h.legal_right h.right, s.fetchWord_l1Word w h.legal h.left, h.same.streamWord]

/-- So does a fetch of the next word. -/
theorem fetchWord_next_l1Word (h : Coupled s u) (w : Nat) :
    ((u.fetchWord w).fetchWord (w + 1)).bs.l1Word = ((s.fetchWord w).fetchWord (w + 1)).bs.l1Word := by
  apply BitVec.eq_of_toNat_eq
  rw [u.fetchWord_next_l1Word w h.legal_right h.right, s.fetchWord_next_l1Word w h.legal h.left, h.same.streamWord]

/-- Both read the same field (R86, R87). -/
theorem extract_fst (h : Coupled s u) (p n : Nat) : (u.extract p n).1 = (s.extract p n).1 := by
  unfold State.extract
  split
  · rfl
  · dsimp only
    rw [h.fetchWord_next_l1Word, h.fetchWord_l1Word]
    split <;> rfl

/-- A read at the position leaves both coupled. -/
theorem extract (h : Coupled s u) (n : Nat) :
    Coupled (s.extract s.bs.pos.toNat n).2 (u.extract s.bs.pos.toNat n).2 where
  legal := by simpa using h.legal
  same := (s.extract_same _ n).symm.trans (h.same.trans (u.extract_same _ n))
  left := s.extract_buffersOk _ n h.legal h.left (State.pos_word_lt h.stream)
  right := u.extract_buffersOk _ n h.legal_right h.right (State.pos_word_lt h.stream)
  stream := (s.extract_same _ n).streamOk h.stream

/-- A move by no more than remains leaves both coupled. -/
theorem advance (h : Coupled s u) (n : Nat) (hn : n ≤ s.remaining) : Coupled (s.advance n) (u.advance n) where
  legal := h.legal
  same := h.same.advance n
  left := s.advance_buffersOk n h.left
  right := u.advance_buffersOk n h.right
  stream := s.advance_streamOk n h.stream hn

/-- An over-read is the same in both. -/
theorem overRead (h : Coupled s u) : SameButBuffers s.overRead u.overRead := by
  have hsame := h.same
  rw [sameButBuffers_iff] at hsame ⊢
  simp [hsame]

/-- The checks before a stream command answer alike. -/
theorem onStream (h : Coupled s u) (failValue : DWord) {act act' : State} (hact : SameButBuffers act act') :
    SameButBuffers (s.onStream failValue act) (u.onStream failValue act') := by
  have hsame := (sameButBuffers_iff s u).1 h.same
  unfold State.onStream
  simp only [hsame]
  split
  · exact h.same.respond _ _ _
  · split
    · exact h.same.respond _ _ _
    · exact hact

/-- A bit-by-bit walk takes the same branches in both. -/
theorem decodeWalk (h : Coupled s u) (ns : List Node) (rem j used : Nat) (hr : s.remaining = rem) :
    SameButBuffers (State.decodeWalk ns rem j used s) (State.decodeWalk ns rem j used u) := by
  induction rem generalizing j used s u with
  | zero => exact h.overRead
  | succ rem ih =>
    have hnext := (h.extract 1).advance 1 (by rw [State.extract_remaining]; omega)
    rw [State.decodeWalk, State.decodeWalk, h.pos_eq, h.extract_fst]
    split
    · exact hnext.same.respond _ _ _
    · split
      · exact hnext.same.respond _ _ _
      · refine ih hnext _ _ ?_
        rw [((s.extract_same _ 1).advance 1).remaining, s.advance_remaining 1 h.stream (by omega)]
        omega

/-- The decode answers the same in both. -/
theorem decodeSymbol (h : Coupled s u) (slot : Slot) :
    SameButBuffers (s.decodeSymbol slot) (u.decodeSymbol slot) := by
  have hread := h.extract slot.depth.toNat
  have hrem := hread.same.remaining
  rw [State.decodeSymbol, State.decodeSymbol, h.pos_eq, h.extract_fst]
  rw [hrem]
  split
  · split
    · exact hread.overRead
    · exact (hread.same.advance _).respond _ _ _
  · split
    · exact hread.overRead
    · next hle =>
      split
      · exact hread.same.respond _ _ _
      · have hnext := hread.advance slot.depth.toNat (Nat.le_of_not_lt hle)
        rw [hnext.same.remaining]
        exact hnext.decodeWalk _ _ _ _ rfl

end Coupled

/-- Every command takes coupled states to states that differ at most in the hidden buffers. -/
theorem Coupled.exec {i : Instr} {s u t : State} (h : Coupled s u) (hx : exec i s = .next t) :
    ∃ v, exec i u = .next v ∧ SameButBuffers t v := by
  have hsame := (sameButBuffers_iff s u).1 h.same
  cases i with
  | sysReset =>
    cases hx
    refine ⟨_, rfl, ?_⟩
    simp [sameButBuffers_iff, hsame]
  | bsOpen base size =>
    cases hx
    refine ⟨_, rfl, ?_⟩
    simp only [hsame]
    split
    · exact h.same.respond _ _ _
    · simp [sameButBuffers_iff, hsame]
  | bsRead n =>
    cases hx
    refine ⟨_, rfl, ?_⟩
    split
    · exact h.same.respond _ _ _
    refine h.onStream _ ?_
    simp only [h.same.remaining, h.pos_eq, h.extract_fst]
    split
    · exact h.overRead
    · exact ((h.extract _).same.advance _).respond _ _ _
  | bsPeek n =>
    cases hx
    refine ⟨_, rfl, ?_⟩
    split
    · exact h.same.respond _ _ _
    refine h.onStream _ ?_
    simp only [h.pos_eq, h.extract_fst]
    exact (h.extract _).same.respond _ _ _
  | hufDecode slot =>
    cases hx
    refine ⟨_, rfl, ?_⟩
    have hslot : u.slot slot.toNat = s.slot slot.toNat := by simp [State.slot, hsame]
    rw [hslot]
    split
    · exact h.same.respond _ _ _
    split
    · exact h.same.respond _ _ _
    · exact h.onStream _ (h.decodeSymbol _)
  | _ => exact ⟨_, h.same.eq_withBuffers ▸ exec_withBuffers rfl hx u.bs, t.withBuffers_same u.bs⟩

/-- Settles O33: the fields read are the stream's, whatever the buffers held, and no other command reads them. -/
theorem hiddenBuffersUnobservable : Obligations.HiddenBuffersUnobservable :=
  fun _ _ _ _ hp hsame hs hu hstream => Coupled.exec ⟨hp, hsame, hs, hu, hstream⟩

end Sys2Proof.Machine
end

section
/-! The LZSS unit's and the Huffman unit's invariants (10_state.md R19 to R21): every step keeps the output cursor within
the capacity, and every slot free or holding a well-formed tree with its own table. -/

namespace Sys2Proof.Machine

/-! ### The copy loop (R124) -/

/-- What a copy loop leaves alone, in every state: all but the window, the output bytes and the two cursors. -/
theorem Lz.copyLoop_frame (off : Word) (len : Nat) (z : Lz) :
    (Lz.copyLoop off len z).2.init = z.init ∧ (Lz.copyLoop off len z).2.ovOff = z.ovOff ∧
    (Lz.copyLoop off len z).2.ovLen = z.ovLen ∧ (Lz.copyLoop off len z).2.outCap = z.outCap ∧
    (Lz.copyLoop off len z).2.outDiscard = z.outDiscard := by
  induction len generalizing z with
  | zero => exact ⟨rfl, rfl, rfl, rfl, rfl⟩
  | succ len ih =>
    rw [Lz.copyLoop_succ]
    split
    · exact ih _
    · exact ⟨rfl, rfl, rfl, rfl, rfl⟩

/-- A copy loop moves the cursor no further than the capacity. -/
theorem Lz.copyLoop_outLen_le (off : Word) (len : Nat) (z : Lz) (h : z.outLen.toNat ≤ z.outCap.toNat) :
    (Lz.copyLoop off len z).2.outLen.toNat ≤ z.outCap.toNat := by
  obtain ⟨hcount, hz⟩ := Lz.copyLoop_spec off len z h
  have := z.outCap.isLt
  rw [hz]
  simp only [BitVec.toNat_ofNat]
  omega

/-- A copy loop into a discarding buffer leaves it empty. -/
theorem Lz.copyLoop_discards (off : Word) (len : Nat) (z : Lz) (h : z.outDiscard = true → z.out = [])
    (hd : (Lz.copyLoop off len z).2.outDiscard = true) : (Lz.copyLoop off len z).2.out = [] := by
  obtain ⟨-, -, -, -, hdiscard⟩ := Lz.copyLoop_frame off len z
  rw [hdiscard] at hd
  rw [Lz.copyLoop_out_discard off len z hd, h hd]

/-! ### The LZSS unit (R20, R21) -/

/-- R20's and R21's invariant reads the LZSS unit only. -/
theorem State.lzOk_of_eq {s t : State} (hs : s.LzOk) (hlz : t.lz = s.lz) : t.LzOk := by
  rw [State.LzOk, hlz]
  exact hs

/-- After a reset nothing is pending and the buffer is empty. -/
theorem State.hardReset_lzOk (s : State) : s.hardReset.LzOk :=
  ⟨Nat.le_refl _, fun _ => rfl, fun _ => rfl, fun _ => ⟨rfl, rfl, rfl, rfl⟩⟩

/-- A byte is emitted only where there is room. -/
theorem execLzLit_lzOk {byte : Byte} {s t : State} (hs : s.LzOk) (h : execLzLit byte s = .next t) : t.LzOk := by
  obtain ⟨hcap, hdiscard, hov, hinit⟩ := hs
  cases h
  split
  · exact ⟨hcap, hdiscard, hov, hinit⟩
  split
  · exact ⟨hcap, hdiscard, hov, hinit⟩
  split
  · exact ⟨hcap, hdiscard, hov, hinit⟩
  · next hready _ hroom =>
    refine ⟨?_, fun hd => ?_, hov, fun hi => ?_⟩
    · have hne : s.lz.outLen.toNat ≠ s.lz.outCap.toNat := by
        simpa [Lz.outFull, BitVec.toNat_inj] using hroom
      have := s.lz.outCap.isLt
      simp only [State.respond_lz, State.setLz_lz, Lz.emit_outLen, Lz.emit_outCap, BitVec.toNat_add,
        BitVec.ofNat_eq_ofNat, BitVec.toNat_ofNat]
      omega
    · have hd : s.lz.outDiscard = true := hd
      simp [Lz.emit_out, hd, hdiscard hd]
    · have hi : s.lz.init = false := hi
      simp [hi] at hready

/-- What a copy cut at the capacity still owes is not nothing. -/
theorem overhang_ne_zero {length : Word} {done : Nat} (h : done < length.toNat) :
    BitVec.ofNat 32 (length.toNat - done) ≠ 0 := by
  have := length.isLt
  rw [Ne, ← BitVec.toNat_inj, BitVec.toNat_ofNat]
  simp only [BitVec.ofNat_eq_ofNat, BitVec.toNat_ofNat]
  omega

/-- A copy stops at the capacity; what is left of it is the overhang. -/
theorem execLzCopy_lzOk {offset length : Word} {s t : State} (hs : s.LzOk)
    (h : execLzCopy offset length s = .next t) : t.LzOk := by
  obtain ⟨hcap, hdiscard, hov, hinit⟩ := hs
  cases h
  split
  · exact ⟨hcap, hdiscard, hov, hinit⟩
  split
  · exact ⟨hcap, hdiscard, hov, hinit⟩
  next hready _ =>
  obtain ⟨finit, fovOff, fovLen, fcap, -⟩ := Lz.copyLoop_frame offset length.toNat s.lz
  have hle := Lz.copyLoop_outLen_le offset length.toNat s.lz hcap
  have hempty := Lz.copyLoop_discards offset length.toNat s.lz hdiscard
  rw [← fcap] at hle
  have hnot : (Lz.copyLoop offset length.toNat s.lz).2.init ≠ false := by
    rw [finit]
    simpa using hready
  dsimp only
  split
  · next hcut => exact ⟨hle, hempty, fun h0 => absurd h0 (overhang_ne_zero hcut), fun hi => absurd hi hnot⟩
  · exact ⟨hle, hempty, fun h0 => fovOff.trans (hov (fovLen.symm.trans h0)), fun hi => absurd hi hnot⟩

/-- A drain stops at the capacity and forgets the offset once nothing is left. -/
theorem execLzDrain_lzOk {s t : State} (hs : s.LzOk) (h : execLzDrain s = .next t) : t.LzOk := by
  obtain ⟨hcap, hdiscard, hov, hinit⟩ := hs
  cases h
  split
  · exact ⟨hcap, hdiscard, hov, hinit⟩
  next hready =>
  obtain ⟨finit, -, -, fcap, -⟩ := Lz.copyLoop_frame s.lz.ovOff s.lz.ovLen.toNat s.lz
  have hle := Lz.copyLoop_outLen_le s.lz.ovOff s.lz.ovLen.toNat s.lz hcap
  rw [← fcap] at hle
  refine ⟨hle, Lz.copyLoop_discards s.lz.ovOff s.lz.ovLen.toNat s.lz hdiscard, fun h0 => if_pos h0, fun hi => ?_⟩
  have hi := finit.symm.trans hi
  simp [hi] at hready

/-- Every command keeps R20's and R21's invariant. -/
theorem exec_lzOk {i : Instr} {s t : State} (hs : s.LzOk) (h : exec i s = .next t) : t.LzOk := by
  cases i with
  | sysReset => cases h; exact s.hardReset_lzOk
  | lzInit k =>
    have ⟨hcap, hdiscard, _, _⟩ := hs
    cases h
    split
    · exact hs
    · exact ⟨hcap, hdiscard, fun _ => rfl, fun hi => by cases hi⟩
  | lzSetout flags cap =>
    have ⟨_, _, hov, hinit⟩ := hs
    cases h
    split
    · exact hs
    · exact ⟨Nat.zero_le _, fun _ => rfl, hov, hinit⟩
  | lzLit byte => exact execLzLit_lzOk hs h
  | lzCopy offset length => exact execLzCopy_lzOk hs h
  | lzDrain => exact execLzDrain_lzOk hs h
  | _ => exact State.lzOk_of_eq hs ((exec_effect h (by nofun)).lz_eq (by nofun))

/-- Settles O18: every byte is emitted below the capacity, and the overhang is what a copy cut there still owes. -/
theorem stepKeepsOutputWithinCapacity : Obligations.StepKeepsOutputWithinCapacity := fun _ _ hs h =>
  step_of_exec (P := State.LzOk) (fun _ _ h => h) (fun _ h => h) (fun _ _ h => h) (fun _ _ _ => exec_lzOk) hs h

/-! ### The table slots (R19, R101 to R103) -/

/-- A free slot is well formed. -/
theorem slotOk_free (p : Params) : SlotOk p Slot.free := ⟨fun _ => rfl, fun h => by cases h⟩

/-- Writing one slot keeps the slots. -/
theorem State.setSlot_slotsOk {s : State} (hs : s.SlotsOk) (t : Nat) {v : Slot} (hv : SlotOk s.params v) :
    (s.setSlot t v).SlotsOk := by
  intro u hu
  rw [State.slot_setSlot]
  split
  · exact hv
  · exact hs u hu

/-- A build leaves its slot free or built from a well-formed tree (R108). -/
theorem State.finishBuild_slotsOk {s : State} (hp : s.params.Legal) (hs : s.SlotsOk) (slot : Nat) {maxlen : Nat}
    (h1 : 1 ≤ maxlen) (h31 : maxlen ≤ 31) {r : Except Status (List Node)}
    (hr : ∀ ns, r = .ok ns → NodesOk s.params.hufNodeCap ns) : (s.finishBuild slot maxlen r).SlotsOk := by
  cases r with
  | error st => exact State.setSlot_slotsOk hs slot (slotOk_free _)
  | ok ns => exact State.setSlot_slotsOk hs slot (builtSlot_ok _ hp maxlen h1 h31 ns (hr ns rfl))

/-- The ranges of a build's operands (R54). -/
theorem buildOperandsOk_iff (p : Params) (slot : Byte) (count : Half) (maxlen : Word) :
    buildOperandsOk p slot count maxlen = true ↔
      slot.toNat < hufTables ∧ count.toNat ≤ p.hufStageSize ∧ 1 ≤ maxlen.toNat ∧ maxlen.toNat ≤ 31 := by
  simp [buildOperandsOk, slotOk, stageCountOk, maxlenOk, and_assoc]

/-- The node capacity of a legal build. -/
theorem Params.Legal.hufNodeCap_bounds {p : Params} (hp : p.Legal) : 1 ≤ p.hufNodeCap ∧ p.hufNodeCap < 4294967295 := by
  obtain ⟨-, -, -, ⟨h1, h2⟩, -⟩ := hp
  omega

/-- A canonical build that succeeds leaves a well-formed tree: its symbols are indices of 16 bits. -/
theorem canonicalBuild_nodesOk {p : Params} (hp : p.Legal) (stage : List (Nat × StageEntry)) (count : Half)
    (maxlen : Nat) (ns : List Node)
    (h : canonicalBuild p.hufNodeCap (stagedEntries stage count.toNat) maxlen = .ok ns) :
    NodesOk p.hufNodeCap ns := by
  obtain ⟨h1, hcap⟩ := Params.Legal.hufNodeCap_bounds hp
  have hindex : ∀ e ∈ stagedEntries stage count.toNat, e.1 < 2 ^ 27 := by
    rintro ⟨i, e⟩ he
    have hi := ((mem_stagedEntries _ _ _ _).1 he).1
    have := count.isLt
    dsimp only
    omega
  have hspec := canonicalBuild_spec p.hufNodeCap h1 hcap _ hindex maxlen
  rw [h] at hspec
  exact hspec

/-- An explicit build that succeeds leaves a well-formed tree, where every staged length was checked (R107). -/
theorem explicitBuild_nodesOk {p : Params} (hp : p.Legal) (stage : List (Nat × StageEntry)) (count : Half)
    (maxlen : Nat) (hlen : stagedLengthsOk maxlen (stagedEntries stage count.toNat) = true) (ns : List Node)
    (h : explicitBuild p.hufNodeCap (stagedEntries stage count.toNat) = .ok ns) : NodesOk p.hufNodeCap ns := by
  obtain ⟨h1, hcap⟩ := Params.Legal.hufNodeCap_bounds hp
  have hpos : ∀ e ∈ stagedEntries stage count.toNat, 1 ≤ e.2.length.toNat := by
    rintro ⟨i, e⟩ he
    obtain ⟨hi, rfl⟩ := (mem_stagedEntries _ _ _ _).1 he
    exact ((stagedLengthsOk_iff _ _ _).1 hlen i hi).1
  have hspec := explicitBuild_spec p.hufNodeCap h1 hcap _ hpos
  rw [h] at hspec
  exact hspec

/-- Every command keeps the slots well formed. -/
theorem exec_slotsOk {i : Instr} {s t : State} (hp : s.params.Legal) (hs : s.SlotsOk) (h : exec i s = .next t) :
    t.SlotsOk := by
  cases i with
  | sysReset => cases h; exact fun u _ => s.hardReset_slot u ▸ slotOk_free _
  | hufBuildl slot count maxlen =>
    cases h
    split
    · exact hs
    · next hops =>
      simp only [Bool.not_eq_true', Bool.not_eq_false, buildOperandsOk_iff] at hops
      obtain ⟨-, -, h1, h31⟩ := hops
      exact State.finishBuild_slotsOk hp hs _ h1 h31 (canonicalBuild_nodesOk hp _ _ _)
  | hufBuildc slot count maxlen =>
    cases h
    split
    · exact hs
    split
    · exact hs
    · next hops hlen =>
      simp only [Bool.not_eq_true', Bool.not_eq_false, buildOperandsOk_iff] at hops hlen
      obtain ⟨-, -, h1, h31⟩ := hops
      exact State.finishBuild_slotsOk hp hs _ h1 h31 (explicitBuild_nodesOk hp _ _ _ hlen)
  | hufFree slot =>
    cases h
    split
    · exact hs
    · exact State.setSlot_slotsOk hs _ (slotOk_free _)
  | _ =>
    have he := exec_effect h (by nofun)
    intro u hu
    rw [he.slot_eq u (by nofun), he.params_eq]
    exact hs u hu

/-- Settles O19: a build that succeeds has inserted into a well-formed tree all along and made the table of it; a build
that fails, a free and a reset leave free slots. -/
theorem stepKeepsSlotsWellFormed : Obligations.StepKeepsSlotsWellFormed := fun _ _ henv hs h =>
  step_of_exec (P := fun s => s.params.Legal ∧ s.SlotsOk) (Q := State.SlotsOk) (fun _ _ h => h) (fun _ h => h.2)
    (fun _ _ h => h) (fun _ _ _ ⟨hp, hs⟩ => exec_slotsOk hp hs) ⟨henv.1, hs⟩ h

end Sys2Proof.Machine
end

section
/-! The rules about every command and about reset (10_state.md R10, R13, R14, R24, R25): what no command changes, which
commands write what, the state after reset, and the status word. -/

namespace Sys2Proof.Machine

/-! ### What no command changes (R25) -/

/-- Settles O12: no unit of the block is the parameters, the source or the host's list, and a reset keeps them. -/
theorem environmentNeverChanges : Obligations.EnvironmentNeverChanges := by
  intro i s t h
  by_cases hi : i = .sysReset
  · subst hi
    cases h
    exact ⟨rfl, rfl, rfl⟩
  · have he := exec_effect h hi
    exact ⟨he.params_eq, he.src_eq, he.host_eq⟩

/-! ### What the stream commands leave alone of their unit (R72, R73) -/

/-- Only a new window opens a stream (and a reset closes it). -/
theorem exec_bs_isOpen {i : Instr} {s t : State} (h : exec i s = .next t) (hr : i ≠ .sysReset)
    (ho : ∀ base size, i ≠ .bsOpen base size) : t.bs.isOpen = s.bs.isOpen := by
  have hcheck : ∀ {failValue act}, act.bs.isOpen = s.bs.isOpen →
      (s.onStream failValue act).bs.isOpen = s.bs.isOpen := fun hact =>
    State.onStream_of (Q := fun v => v.bs.isOpen = s.bs.isOpen) (fun _ _ _ => rfl) fun _ _ => hact
  cases i with
  | sysReset => exact absurd rfl hr
  | bsOpen base size => exact absurd rfl (ho base size)
  | bsRead n =>
    cases h
    split
    · rfl
    refine hcheck ?_
    split
    · rfl
    · simp
  | bsPeek n =>
    cases h
    split
    · rfl
    · exact hcheck (s.extract_bs_isOpen _ _)
  | bsSkip n => cases h; refine hcheck ?_; split <;> rfl
  | bsAlign => cases h; exact hcheck rfl
  | bsBack n => cases h; refine hcheck ?_; split <;> rfl
  | hufDecode slot =>
    cases h
    split
    · rfl
    split
    · rfl
    · obtain ⟨-, -, -, -, -, -, -, hopen, -⟩ := s.decodeSymbol_frame (s.slot slot.toNat)
      exact hcheck hopen
  | _ => rw [(exec_effect h hr).bs_eq (by nofun)]

/-- `BS.PEEK`, `BS.ALIGN` and `BS.BACK` never over-read. -/
theorem exec_bs_err {i : Instr} {s t : State} (h : exec i s = .next t) (hr : i ≠ .sysReset)
    (ho : ∀ base size, i ≠ .bsOpen base size) (hread : ∀ n, i ≠ .bsRead n) (hskip : ∀ n, i ≠ .bsSkip n)
    (hdecode : ∀ u, i ≠ .hufDecode u) : t.bs.err = s.bs.err := by
  have hcheck : ∀ {failValue act}, act.bs.err = s.bs.err → (s.onStream failValue act).bs.err = s.bs.err := fun hact =>
    State.onStream_of (Q := fun v => v.bs.err = s.bs.err) (fun _ _ _ => rfl) fun _ _ => hact
  cases i with
  | sysReset => exact absurd rfl hr
  | bsOpen base size => exact absurd rfl (ho base size)
  | bsRead n => exact absurd rfl (hread n)
  | bsSkip n => exact absurd rfl (hskip n)
  | hufDecode u => exact absurd rfl (hdecode u)
  | bsPeek n =>
    cases h
    split
    · rfl
    · exact hcheck (s.extract_bs_err _ _)
  | bsAlign => cases h; exact hcheck rfl
  | bsBack n => cases h; refine hcheck ?_; split <;> rfl
  | _ => rw [(exec_effect h hr).bs_eq (by nofun)]

/-! ### What the LZSS commands leave alone of their unit (R122, R123, R126 to R128) -/

/-- `LZ.INIT` leaves the output buffer. -/
theorem execLzInit_frame {k : Byte} {s t : State} (h : execLzInit k s = .next t) :
    t.lz.outDiscard = s.lz.outDiscard ∧ t.lz.out = s.lz.out := by
  cases h
  split <;> exact ⟨rfl, rfl⟩

/-- `LZ.SETOUT` leaves the window and the overhang. -/
theorem execLzSetout_frame {flags : Byte} {cap : Word} {s t : State} (h : execLzSetout flags cap s = .next t) :
    t.lz.init = s.lz.init ∧ t.lz.win = s.lz.win ∧ t.lz.hasOverhang = s.lz.hasOverhang := by
  cases h
  split <;> exact ⟨rfl, rfl, rfl⟩

/-- `LZ.LIT` writes both memories and no flag. -/
theorem execLzLit_frame {byte : Byte} {s t : State} (h : execLzLit byte s = .next t) :
    t.lz.init = s.lz.init ∧ t.lz.outDiscard = s.lz.outDiscard ∧ t.lz.hasOverhang = s.lz.hasOverhang := by
  cases h
  split
  · exact ⟨rfl, rfl, rfl⟩
  split
  · exact ⟨rfl, rfl, rfl⟩
  split <;> exact ⟨rfl, rfl, rfl⟩

/-- `LZ.COPY` writes both memories and the overhang. -/
theorem execLzCopy_frame {offset length : Word} {s t : State} (h : execLzCopy offset length s = .next t) :
    t.lz.init = s.lz.init ∧ t.lz.outDiscard = s.lz.outDiscard := by
  obtain ⟨hinit, -, -, -, hdiscard⟩ := Lz.copyLoop_frame offset length.toNat s.lz
  cases h
  split
  · exact ⟨rfl, rfl⟩
  split
  · exact ⟨rfl, rfl⟩
  · dsimp only
    split <;> exact ⟨hinit, hdiscard⟩

/-- `LZ.DRAIN` too. -/
theorem execLzDrain_frame {s t : State} (h : execLzDrain s = .next t) :
    t.lz.init = s.lz.init ∧ t.lz.outDiscard = s.lz.outDiscard := by
  obtain ⟨hinit, -, -, -, hdiscard⟩ := Lz.copyLoop_frame s.lz.ovOff s.lz.ovLen.toNat s.lz
  cases h
  split
  · exact ⟨rfl, rfl⟩
  · exact ⟨hinit, hdiscard⟩

/-! ### The writers of each flag and memory (R13, R32, R92 to R96) -/

section Writers

variable {i : Instr} {s t : State} (h : exec i s = .next t) (hr : i ≠ .sysReset)

include h hr

theorem writers_isOpen (hne : t.bs.isOpen ≠ s.bs.isOpen) : ∃ base size, i = .bsOpen base size := by
  by_contra hno
  push Not at hno
  exact hne (exec_bs_isOpen h hr hno)

theorem writers_err (hne : t.bs.err ≠ s.bs.err) :
    (∃ base size, i = .bsOpen base size) ∨ (∃ n, i = .bsRead n) ∨ (∃ n, i = .bsSkip n) ∨ ∃ u, i = .hufDecode u := by
  by_contra hno
  push Not at hno
  obtain ⟨ho, hread, hskip, hdecode⟩ := hno
  exact hne (exec_bs_err h hr ho hread hskip hdecode)

theorem writers_lzInit (hne : t.lz.init ≠ s.lz.init) : ∃ k, i = .lzInit k := by
  cases i with
  | lzInit k => exact ⟨k, rfl⟩
  | lzSetout => exact absurd (execLzSetout_frame h).1 hne
  | lzLit => exact absurd (execLzLit_frame h).1 hne
  | lzCopy => exact absurd (execLzCopy_frame h).1 hne
  | lzDrain => exact absurd (execLzDrain_frame h).1 hne
  | _ => exact absurd (congrArg Lz.init ((exec_effect h hr).lz_eq (by nofun))) hne

theorem writers_outDiscard (hne : t.lz.outDiscard ≠ s.lz.outDiscard) : ∃ flags cap, i = .lzSetout flags cap := by
  cases i with
  | lzSetout flags cap => exact ⟨flags, cap, rfl⟩
  | lzInit => exact absurd (execLzInit_frame h).1 hne
  | lzLit => exact absurd (execLzLit_frame h).2.1 hne
  | lzCopy => exact absurd (execLzCopy_frame h).2 hne
  | lzDrain => exact absurd (execLzDrain_frame h).2 hne
  | _ => exact absurd (congrArg Lz.outDiscard ((exec_effect h hr).lz_eq (by nofun))) hne

theorem writers_hasOverhang (hne : t.lz.hasOverhang ≠ s.lz.hasOverhang) :
    (∃ offset length, i = .lzCopy offset length) ∨ i = .lzDrain ∨ ∃ k, i = .lzInit k := by
  cases i with
  | lzCopy offset length => exact .inl ⟨offset, length, rfl⟩
  | lzDrain => exact .inr (.inl rfl)
  | lzInit k => exact .inr (.inr ⟨k, rfl⟩)
  | lzSetout => exact absurd (execLzSetout_frame h).2.2 hne
  | lzLit => exact absurd (execLzLit_frame h).2.2 hne
  | _ => exact absurd (congrArg Lz.hasOverhang ((exec_effect h hr).lz_eq (by nofun))) hne

theorem writers_slot (u : Nat) (hne : t.slot u ≠ s.slot u) :
    (∃ v count maxlen, (i = .hufBuildl v count maxlen ∨ i = .hufBuildc v count maxlen) ∧ v.toNat = u) ∨
      ∃ v, i = .hufFree v ∧ v.toNat = u := by
  have hslot : unitOf i = .slot u := by
    by_contra hp
    exact hne ((exec_effect h hr).slot_eq u hp)
  cases i with
  | hufBuildl v count maxlen => exact .inl ⟨v, count, maxlen, .inl rfl, StateUnit.slot.inj hslot⟩
  | hufBuildc v count maxlen => exact .inl ⟨v, count, maxlen, .inr rfl, StateUnit.slot.inj hslot⟩
  | hufFree v => exact .inr ⟨v, rfl, StateUnit.slot.inj hslot⟩
  | _ => cases hslot

theorem writers_stage (hne : t.huf.stage ≠ s.huf.stage) :
    ∃ index length code symbol, i = .hufStage index length code symbol := by
  cases i with
  | hufStage index length code symbol => exact ⟨index, length, code, symbol, rfl⟩
  | _ => exact absurd ((exec_effect h hr).stage_eq (by nofun)) hne

theorem writers_win (hne : t.lz.win ≠ s.lz.win) :
    (∃ k, i = .lzInit k) ∨ (∃ b, i = .lzLit b) ∨ (∃ offset length, i = .lzCopy offset length) ∨ i = .lzDrain := by
  cases i with
  | lzInit k => exact .inl ⟨k, rfl⟩
  | lzLit b => exact .inr (.inl ⟨b, rfl⟩)
  | lzCopy offset length => exact .inr (.inr (.inl ⟨offset, length, rfl⟩))
  | lzDrain => exact .inr (.inr (.inr rfl))
  | lzSetout => exact absurd (execLzSetout_frame h).2.1 hne
  | _ => exact absurd (congrArg Lz.win ((exec_effect h hr).lz_eq (by nofun))) hne

theorem writers_out (hne : t.lz.out ≠ s.lz.out) :
    (∃ b, i = .lzLit b) ∨ (∃ offset length, i = .lzCopy offset length) ∨ i = .lzDrain ∨
      ∃ flags cap, i = .lzSetout flags cap := by
  cases i with
  | lzLit b => exact .inl ⟨b, rfl⟩
  | lzCopy offset length => exact .inr (.inl ⟨offset, length, rfl⟩)
  | lzDrain => exact .inr (.inr (.inl rfl))
  | lzSetout flags cap => exact .inr (.inr (.inr ⟨flags, cap, rfl⟩))
  | lzInit => exact absurd (execLzInit_frame h).2 hne
  | _ => exact absurd (congrArg Lz.out ((exec_effect h hr).lz_eq (by nofun))) hne

theorem writers_fmem (hne : t.flt.mem ≠ s.flt.mem) :
    (∃ addr b, i = .fltWr addr b) ∨ (∃ pos len channels, i = .fltDelta pos len channels) ∨
      (∃ pos len channels, i = .fltAudio pos len channels) ∨
      (∃ pos len stride posr, i = .fltRgb pos len stride posr) ∨ (∃ pos len, i = .fltX86 pos len) ∨
      (∃ pos len, i = .fltX86e9 pos len) ∨ ∃ pos len, i = .fltArm pos len := by
  cases i with
  | fltWr | fltDelta | fltAudio | fltRgb | fltX86 | fltX86e9 | fltArm => simp
  | _ => exact absurd (congrArg Flt.mem ((exec_effect h hr).flt_eq (by nofun))) hne

theorem writers_crc (hne : t.crc ≠ s.crc) :
    (∃ v, i = .crcSeed v) ∨ (∃ count data, i = .crcUpd count data) ∨ (∃ off len, i = .crcUpdo off len) ∨
      ∃ off len, i = .crcUpdf off len := by
  cases i with
  | crcSeed | crcUpd | crcUpdo | crcUpdf => simp
  | _ => exact absurd ((exec_effect h hr).crc_eq (by nofun)) hne

end Writers

/-- Settles O13, table row by table row. -/
theorem onlyListedCommandsWrite : Obligations.OnlyListedCommandsWrite := fun _ _ _ h hr =>
  ⟨writers_isOpen h hr, writers_err h hr, writers_lzInit h hr, writers_outDiscard h hr, writers_hasOverhang h hr,
    writers_slot h hr, writers_stage h hr, writers_win h hr, writers_out h hr, writers_fmem h hr, writers_crc h hr⟩

/-! ### Reset and steps (R10, R24, R161) -/

/-- The hardware reset gives every piece of state R24's value; reset's own state is one such. -/
theorem State.hardReset_resetValues (s : State) : ResetValues s.hardReset := by
  refine ⟨rfl, ⟨rfl, rfl, rfl, rfl, rfl⟩, ⟨rfl, rfl⟩, rfl, fun _ => rfl, fun u _ => ?_, ⟨rfl, rfl, rfl, rfl, rfl⟩,
    ⟨rfl, rfl, rfl, rfl⟩, fun _ => rfl⟩
  rw [s.hardReset_slot]
  exact ⟨rfl, rfl, rfl, rfl⟩

/-- `State.reset` is its own hardware reset. -/
theorem State.reset_hardReset : State.reset.hardReset = State.reset := rfl

/-- Settles O1: the response of `SYS.RESET` is the one reset leaves. -/
theorem resetGivesSpecValues : Obligations.ResetGivesSpecValues :=
  ⟨⟨rfl, rfl, rfl⟩, State.reset_hardReset ▸ State.reset.hardReset_resetValues, fun s =>
    ⟨_, exec_sysReset s, s.hardReset_resetValues, rfl, rfl, rfl⟩⟩

/-- Settles O2. -/
theorem stepRunsTheDecodedCommand : Obligations.StepRunsTheDecodedCommand := by
  refine ⟨fun s w rest i hhost hdecode => ?_, fun s hhost => ?_⟩
  · rw [step, hhost]
    dsimp only
    rw [hdecode]
  · rw [step, hhost]

/-- Reset is a legal build with an empty source. -/
theorem State.reset_envOk : State.reset.EnvOk := by
  obtain ⟨-, -, -, -, -, -, hwf, -⟩ := State.reset_memories
  exact ⟨by decide, hwf, fun _ hc => by cases hc⟩

/-- Every memory is empty after reset. -/
theorem State.reset_memoriesOk : State.reset.MemoriesOk := by
  obtain ⟨-, -, -, -, -, -, hwf, hstage⟩ := State.reset_memories
  exact ⟨⟨hwf, fun _ hc => by cases hc⟩, ⟨hwf, fun _ hc => by cases hc⟩, ⟨hwf, fun _ hc => by cases hc⟩,
    ⟨hwf, fun _ hc => by cases hc⟩, hstage, fun _ hc => by cases hc⟩

/-- Settles O14: what a reset leaves from any state it leaves in `State.reset`. -/
theorem invariantsHoldAtReset : Obligations.InvariantsHoldAtReset := by
  refine ⟨State.reset_envOk, State.reset.hardReset_streamOk, State.buffersOk_of_none rfl rfl, State.reset_memoriesOk,
    State.reset.hardReset_lzOk, fun u _ => ?_⟩
  rw [← State.reset_hardReset, State.hardReset_slot]
  exact slotOk_free _

/-! ### The status word (R14, R162) -/

/-- The overhang flag is `ov_len ≠ 0` (R13). -/
theorem Lz.hasOverhang_eq_decide (z : Lz) : z.hasOverhang = decide (z.ovLen ≠ 0) := by
  rw [Lz.hasOverhang, bne, beq_eq_decide, decide_not]

/-- `OUT_FULL` is `out_len = out_cap` (R14). -/
theorem Lz.outFull_eq_decide (z : Lz) : z.outFull = decide (z.outLen = z.outCap) := beq_eq_decide _ _

/-- R14's list of flags, bit 0 first. -/
def State.statusFlags (s : State) : List Bool :=
  [s.bs.isOpen, s.bs.err, s.lz.init, s.lz.hasOverhang, s.lz.outDiscard, s.lz.outFull, false, false,
    (s.slot 0).valid, (s.slot 1).valid, (s.slot 2).valid, (s.slot 3).valid,
    (s.slot 4).valid, (s.slot 5).valid, (s.slot 6).valid, (s.slot 7).valid]

/-- Bit `b` of the status word is entry `b` of the list, and 0 beyond it. -/
theorem State.statusWord_getLsbD (s : State) (b : Nat) : s.statusWord.getLsbD b = s.statusFlags.getD b false := by
  have hlist : s.statusWord.getLsbD b = (decide (b < 64) && s.statusFlags.getD b false) :=
    (BitVec.getLsbD_setWidth _ _ _).trans (congrArg (decide (b < 64) && ·) BitVec.getLsbD_ofBoolListLE)
  by_cases hb : b < 64
  · rw [hlist, decide_eq_true hb, Bool.true_and]
  · rw [hlist, decide_eq_false hb, Bool.false_and, List.getD_eq_default]
    simp only [State.statusFlags, List.length_cons, List.length_nil]
    omega

/-- Settles O21: each bit is its entry of R14's list. -/
theorem sysStatReadsEveryFlag : Obligations.SysStatReadsEveryFlag := by
  refine ⟨⟨rfl, rfl, rfl⟩, fun s => ⟨s.statusWord, rfl, ?_⟩⟩
  simp only [State.statusWord_getLsbD]
  refine ⟨rfl, rfl, rfl, ?_, rfl, ?_, rfl, rfl, fun t ht => ?_, fun b hb => ?_⟩
  · exact s.lz.hasOverhang_eq_decide
  · exact s.lz.outFull_eq_decide
  · interval_cases t <;> rfl
  · exact List.getD_eq_default _ _ hb

end Sys2Proof.Machine
end

section
/-! The memories' form (20_memory.md R32, R37; log entry 8): every step leaves each memory canonical, in its cells.
One unit after the other: the L2 line, the window and the output buffer, FMEM, the staging memory. -/

namespace Sys2Proof.Machine

/-- A byte space in canonical form that lists only addresses below `n`. -/
abbrev Mem.Within (m : Mem) (n : Nat) : Prop := m.Wf ∧ m.Below n

/-- A space that lists nothing is within any bound. -/
theorem Mem.within_nil (n : Nat) : Mem.Within [] n := ⟨⟨.nil, nofun⟩, nofun⟩

/-- A transform that writes below the bound stays within it. -/
theorem WritesIn.within {lo hi n : Nat} {m m' : Mem} (h : WritesIn lo hi m m') (hn : hi ≤ n) (hm : m.Within n) :
    m'.Within n :=
  have ⟨_, hwf, hbelow⟩ := h
  ⟨hwf hm.1, hbelow n hn hm.2⟩

/-! ### The L2 line (R16, R85) -/

/-- The source is canonical, and the L2 line is canonical and within its `L2_BYTES` cells. -/
def State.LineOk (s : State) : Prop := s.src.bytes.Wf ∧ s.bs.l2Data.Within s.params.l2Bytes

/-- It reads the build, the source and the line only. -/
theorem State.lineOk_of_eq {s t : State} (hs : s.LineOk) (hparams : t.params = s.params) (hsrc : t.src = s.src)
    (hline : t.bs.l2Data = s.bs.l2Data) : t.LineOk := by
  rw [State.LineOk, hparams, hsrc, hline]
  exact hs

/-- A refill brings a slice of the source, no longer than the line. -/
theorem State.loadLine_lineOk {s : State} (hs : s.LineOk) (line : Nat) : (s.loadLine line).LineOk :=
  ⟨hs.1, Mem.slice_wf _ _ _ hs.1, Mem.below_mono _ _ _ (Mem.slice_below _ _ _) (Nat.min_le_left _ _)⟩

/-- A word fetch refills the line or leaves it. -/
theorem State.fetchWord_lineOk {s : State} (hs : s.LineOk) (w : Nat) : (s.fetchWord w).LineOk := by
  unfold State.fetchWord
  split
  · exact hs
  · have hline : (s.ensureLine (8 * w / s.params.l2Bytes)).LineOk := by
      unfold State.ensureLine
      split
      · exact hs
      · exact State.loadLine_lineOk hs _
    exact hline

/-- An extraction fetches at most two words. -/
theorem State.extract_lineOk {s : State} (hs : s.LineOk) (p n : Nat) : (s.extract p n).2.LineOk := by
  unfold State.extract
  split
  · exact hs
  · dsimp only
    split
    · exact State.fetchWord_lineOk hs _
    · exact State.fetchWord_lineOk (State.fetchWord_lineOk hs _) _

/-- A bit-by-bit walk extracts one bit in each round. -/
theorem State.decodeWalk_lineOk (ns : List Node) (rem j used : Nat) {s : State} (hs : s.LineOk) :
    (State.decodeWalk ns rem j used s).LineOk := by
  induction rem generalizing j used s with
  | zero => exact hs
  | succ rem ih =>
    have hread := State.extract_lineOk hs s.bs.pos.toNat 1
    rw [State.decodeWalk]
    split
    · exact hread
    split
    · exact hread
    · exact ih _ _ hread

/-- The decode extracts the table's index, then walks. -/
theorem State.decodeSymbol_lineOk {s : State} (hs : s.LineOk) (h : Slot) : (s.decodeSymbol h).LineOk := by
  have hread := State.extract_lineOk hs s.bs.pos.toNat h.depth.toNat
  rw [State.decodeSymbol]
  split
  · split <;> exact hread
  split
  · exact hread
  split
  · exact hread
  · exact State.decodeWalk_lineOk _ _ _ _ hread

/-- Every command keeps the line: three read through it, a reset empties it, the others leave it. -/
theorem exec_lineOk {i : Instr} {s t : State} (hs : s.LineOk) (h : exec i s = .next t) : t.LineOk := by
  have hrsp : ∀ st r0 r1, (s.respond st r0 r1).LineOk := fun _ _ _ => hs
  cases i with
  | sysReset => cases h; exact ⟨hs.1, Mem.within_nil _⟩
  | bsOpen base size =>
    cases h
    split <;> exact hs
  | bsRead n =>
    cases h
    split
    · exact hs
    refine State.onStream_of hrsp fun _ _ => ?_
    split
    · exact hs
    · exact State.extract_lineOk hs _ _
  | bsPeek n =>
    cases h
    split
    · exact hs
    · exact State.onStream_of hrsp fun _ _ => State.extract_lineOk hs _ _
  | bsSkip n | bsBack n =>
    cases h
    refine State.onStream_of hrsp fun _ _ => ?_
    split <;> exact hs
  | bsAlign => cases h; exact State.onStream_of hrsp fun _ _ => hs
  | hufDecode slot =>
    cases h
    split
    · exact hs
    split
    · exact hs
    · exact State.onStream_of hrsp fun _ _ => State.decodeSymbol_lineOk hs _
  | _ =>
    have he := exec_effect h (by nofun)
    exact State.lineOk_of_eq hs he.params_eq he.src_eq (by rw [he.bs_eq (by nofun)])

/-! ### The window and the output buffer (R20, R21) -/

/-- Below the capacity, a buffer that is not full has room. -/
theorem Lz.room_of_not_full {z : Lz} (hcap : z.outLen.toNat ≤ z.outCap.toNat) (hfull : ¬ z.outFull = true) :
    z.outLen < z.outCap := by
  have hne : z.outLen.toNat ≠ z.outCap.toNat := by simpa [Lz.outFull, BitVec.toNat_inj] using hfull
  rw [BitVec.lt_def]
  omega

/-- Every command keeps both: a byte goes to a masked index and to the cursor, and a new window or buffer is empty. -/
theorem exec_lzMemOk {i : Instr} {s t : State} (hlz : s.LzOk) (hs : LzMemOk s.lz) (h : exec i s = .next t) :
    LzMemOk t.lz := by
  cases i with
  | sysReset => cases h; exact ⟨Mem.within_nil _, Mem.within_nil _⟩
  | lzInit k =>
    cases h
    split
    · exact hs
    · exact ⟨Mem.within_nil _, hs.2⟩
  | lzSetout flags cap =>
    cases h
    split
    · exact hs
    · exact ⟨hs.1, Mem.within_nil _⟩
  | lzLit byte =>
    cases h
    split
    · exact hs
    split
    · exact hs
    split
    · exact hs
    · next hroom => exact s.lz.emit_memOk byte hs (Lz.room_of_not_full hlz.1 hroom)
  | lzCopy offset length =>
    have hcopy := Lz.copyLoop_memOk offset length.toNat s.lz hs
    cases h
    split
    · exact hs
    split
    · exact hs
    dsimp only
    split <;> exact hcopy
  | lzDrain =>
    cases h
    split
    · exact hs
    · exact Lz.copyLoop_memOk s.lz.ovOff s.lz.ovLen.toNat s.lz hs
  | _ => rw [(exec_effect h (by nofun)).lz_eq (by nofun)]; exact hs

/-! ### FMEM (R22, R142) -/

/-- FMEM is canonical and within its `FLT_MEM_SIZE` cells. -/
def State.FmemOk (s : State) : Prop := s.flt.mem.Within s.params.fltMemSize

/-- An out-of-place transform whose two slices fit stays within FMEM. -/
theorem State.predictive_fmemOk {s : State} (hs : s.FmemOk) {n : Word} {m : Mem}
    (hfit : twoSlicesFit s.params n.toNat = true) (hm : WritesIn n.toNat (2 * n.toNat) s.flt.mem m) :
    (s.predictive n m).FmemOk := by
  have hhalf : n.toNat ≤ s.params.fltMemSize / 2 := of_decide_eq_true hfit
  have hslices : 2 * n.toNat ≤ s.params.fltMemSize := by omega
  exact hm.within hslices hs

/-- An in-place transform runs only where its slice fits. -/
theorem State.inPlace_fmemOk {s : State} (hs : s.FmemOk) {pos n : Word} {m : Mem}
    (hm : WritesIn 0 n.toNat s.flt.mem m) : (s.inPlace pos n m).FmemOk := by
  obtain heq | heq | ⟨hfit, heq⟩ := s.inPlace_cases pos n m <;> rw [heq]
  · exact hs
  · exact hs
  · exact hm.within hfit hs

/-- Every command keeps FMEM: one writes a byte at a checked address, six transform checked slices. -/
theorem exec_fmemOk {i : Instr} {s t : State} (hs : s.FmemOk) (h : exec i s = .next t) : t.FmemOk := by
  cases i with
  | sysReset => cases h; exact Mem.within_nil _
  | fltWr addr byte =>
    cases h
    split
    · exact hs
    · next haddr =>
      have hlt : addr.toNat < s.params.fltMemSize := by simpa [fmemAddrOk] using haddr
      exact ⟨Mem.write_wf _ _ _ hs.1, Mem.write_below _ _ _ _ hs.2 hlt⟩
  | fltDelta pos len channels =>
    cases h
    split
    · exact hs
    split
    · exact hs
    · next hfit => exact State.predictive_fmemOk hs (by simpa using hfit) (deltaTransform_writes _ _ _)
  | fltAudio pos len channels =>
    cases h
    split
    · exact hs
    split
    · exact hs
    · next hfit => exact State.predictive_fmemOk hs (by simpa using hfit) (audioTransform_writes _ _ _)
  | fltRgb pos len stride posr =>
    cases h
    split
    · exact hs
    split
    · exact hs
    · next hfit =>
      simp only [Bool.not_eq_true', Bool.not_eq_false, Bool.and_eq_true] at hfit
      exact State.predictive_fmemOk hs hfit.1 (rgbTransform_writes _ _ _ _)
  | fltX86 pos len | fltX86e9 pos len => cases h; exact State.inPlace_fmemOk hs (x86Transform_writes _ _ _ _)
  | fltArm pos len => cases h; exact State.inPlace_fmemOk hs (armTransform_writes _ _ _)
  | _ =>
    have he := exec_effect h (by nofun)
    rw [State.FmemOk, he.params_eq, he.flt_eq (by nofun)]
    exact hs

/-! ### The staging memory (R18, R104) -/

/-- The staging memory is canonical, within its `HUF_STAGE_SIZE` entries, and every listed length fits a code. -/
def State.StageOk (s : State) : Prop :=
  Cells.Wf StageEntry.zero s.huf.stage ∧
    ∀ c ∈ s.huf.stage, c.1 < s.params.hufStageSize ∧ c.2.length.toNat ≤ 31

/-- Every command keeps it: one writes an entry of checked index and length. -/
theorem exec_stageOk {i : Instr} {s t : State} (hs : s.StageOk) (h : exec i s = .next t) : t.StageOk := by
  cases i with
  | sysReset => cases h; exact ⟨⟨.nil, nofun⟩, nofun⟩
  | hufStage index length code symbol =>
    cases h
    split
    · exact hs
    · next hops =>
      have hrange : index.toNat < s.params.hufStageSize ∧ length.toNat ≤ 31 := by
        simpa [stageIndexOk, codeLengthOk] using hops
      refine ⟨Cells.write_wf _ _ _ _ hs.1, fun c hc => ?_⟩
      obtain hold | ⟨rfl, -⟩ := Cells.mem_write _ _ _ _ _ hc
      · exact hs.2 c hold
      · exact hrange
  | _ =>
    have he := exec_effect h (by nofun)
    rw [State.StageOk, he.params_eq, he.stage_eq (by nofun)]
    exact hs

/-! ### All of them -/

/-- The memories, unit by unit. -/
theorem State.memoriesOk_iff (s : State) :
    s.MemoriesOk ↔ s.bs.l2Data.Within s.params.l2Bytes ∧ LzMemOk s.lz ∧ s.FmemOk ∧ s.StageOk :=
  ⟨fun ⟨hline, hwin, hout, hfmem, hstage⟩ => ⟨hline, ⟨hwin, hout⟩, hfmem, hstage⟩,
    fun ⟨hline, ⟨hwin, hout⟩, hfmem, hstage⟩ => ⟨hline, hwin, hout, hfmem, hstage⟩⟩

/-- Every command keeps every memory. -/
theorem exec_memoriesOk {i : Instr} {s t : State} (hsrc : s.src.bytes.Wf) (hlz : s.LzOk) (hs : s.MemoriesOk)
    (h : exec i s = .next t) : t.MemoriesOk := by
  obtain ⟨hline, hlzMem, hfmem, hstage⟩ := s.memoriesOk_iff.1 hs
  obtain ⟨-, hline'⟩ := exec_lineOk ⟨hsrc, hline⟩ h
  exact t.memoriesOk_iff.2 ⟨hline', exec_lzMemOk hlz hlzMem h, exec_fmemOk hfmem h, exec_stageOk hstage h⟩

/-- Settles O17: a refill brings a slice of the canonical source, every write is of one checked cell or inside a checked
slice, and what is not written stays or is emptied. -/
theorem stepKeepsMemoriesCanonical : Obligations.StepKeepsMemoriesCanonical := fun _ _ henv hlz hs h =>
  have ⟨_, hsrc, _⟩ := henv
  step_of_exec (P := fun s => s.src.bytes.Wf ∧ s.LzOk ∧ s.MemoriesOk) (Q := State.MemoriesOk) (fun _ _ h => h)
    (fun _ ⟨_, _, hs⟩ => hs) (fun _ _ h => h) (fun _ _ _ ⟨hsrc, hlz, hs⟩ => exec_memoriesOk hsrc hlz hs)
    ⟨hsrc, hlz, hs⟩ h

end Sys2Proof.Machine
end

section
/-! The encoding (30_encoding.md R50 to R55, R60): what decoding a word comes to, field by field; that encoder and
decoder are inverse to each other; that a word decodes exactly when it selects a row of the opcode table; and what an
illegal command is answered. -/

namespace Sys2Proof

open Machine

/-! ### Decoding by fields (R51, R53) -/

/-- A word decodes to a command exactly when its opcode's row makes that command of its fields, and the row's mask
leaves the opcode alone. -/
theorem decode_eq_ok_iff (w : Command) (i : Instr) :
    decode w = .ok i ↔
      ∃ f, opcodeMap (opcField w) (tField w) (idxField w) (aField w) (bField w) (cField w) = some (f, i) ∧
        w &&& f.mask = (opcField w).setWidth 128 := by
  unfold decode
  split
  · next hmap => simp [hmap]
  · next f j hmap =>
    rw [hmap]
    by_cases hmask : w &&& f.mask = (opcField w).setWidth 128 <;> simp [hmask]

/-- The opcode map at the fields of a packed word. -/
theorem opcodeMap_pack (opc t : Byte) (idx : Half) (a b c : Word) :
    opcodeMap (opcField (pack opc t idx a b c)) (tField (pack opc t idx a b c)) (idxField (pack opc t idx a b c))
      (aField (pack opc t idx a b c)) (bField (pack opc t idx a b c)) (cField (pack opc t idx a b c)) =
        opcodeMap opc t idx a b c := by
  rw [opcField_pack, tField_pack, idxField_pack, aField_pack, bField_pack, cField_pack]

/-! ### Each command's word (R51 to R54) -/

/-- Every command's word selects the command's row. -/
theorem Laws.RowSelected.all (i : Instr) : Statement i := by
  cases i
  exacts [sysNop, sysReset, sysStat, sysParam _,
    bsOpen _ _, bsRead _, bsPeek _, bsSkip _, bsAlign, bsHas _, bsAtend, bsErr, bsBack _, bsTell,
    crcSeed _, crcUpd _ _, crcGet, crcUpdo _ _, crcUpdf _ _,
    hufStage _ _ _ _, hufBuildl _ _ _, hufBuildc _ _ _, hufDecode _, hufFree _, hufRdtab _ _, hufRdnode _ _,
    lzInit _, lzSetout _ _, lzLit _, lzCopy _ _, lzDrain, lzHasov, lzOutlen, lzOutrd _, lzTell, lzWinrd _,
    fltWr _ _, fltRd _, fltDelta _ _ _, fltAudio _ _ _, fltRgb _ _ _ _, fltX86 _ _, fltX86e9 _ _, fltArm _ _]

open Laws.RowSelected (row)

/-- The opcode of a command's word is its row's. -/
theorem opcField_encode (i : Instr) : opcField (encode i) = (row i).1 := by
  cases i <;> exact opcField_pack ..

/-- The opcode map finds a command, in its row's format, at the fields of the command's word. -/
theorem opcodeMap_encode (i : Instr) :
    opcodeMap (opcField (encode i)) (tField (encode i)) (idxField (encode i)) (aField (encode i)) (bField (encode i))
      (cField (encode i)) = some ((row i).2, i) := by
  cases i <;> exact opcodeMap_pack ..

/-- Decoding inverts encoding. -/
theorem decode_encode (i : Instr) : decode (encode i) = .ok i :=
  (decode_eq_ok_iff _ i).2 ⟨(row i).2, opcodeMap_encode i, by rw [opcField_encode]; exact Laws.RowSelected.all i⟩

/-- Every command is encoded by its row. -/
theorem encodedAs_row (i : Instr) : EncodedAs i (row i).1 (row i).2 :=
  ⟨opcField_encode i, Laws.RowSelected.all i, decode_encode i⟩

/-- A command's word as a number is the sum of its fields, each at its first bit. -/
theorem encode_toNat (i : Instr) : (encode i).toNat = (fieldsOf i).word := by
  cases i <;> exact pack_toNat ..

/-- Settles O5: each command's word is packed fields, and the opcode map finds the command again at those fields. -/
theorem decodeInvertsEncode : Obligations.DecodeInvertsEncode := fun i => ⟨encode_toNat i, decode_encode i⟩

/-! ### One word per command (R52, R55) -/

/-- The word of a format: the fields it uses, every other one 0 (R52). -/
def Format.word (f : Format) (opc t : Byte) (idx : Half) (a b c : Word) : Command :=
  match f with
  | .n => pack opc 0 0 0 0 0
  | .t => pack opc t 0 0 0 0
  | .a => pack opc 0 0 a 0 0
  | .ab => pack opc 0 0 a b 0
  | .abc => pack opc 0 0 a b c
  | .ta => pack opc t 0 a 0 0
  | .tabc => pack opc t 0 a b c
  | .tia => pack opc t idx a 0 0
  | .tiab => pack opc t idx a b 0

/-- The command that the opcode map makes of some fields is encoded by those of them its format uses: one case
per row of R53, whose number is the opcode. -/
theorem encode_of_opcodeMap {opc t : Byte} {idx : Half} {a b c : Word} {f : Format} {i : Instr}
    (h : opcodeMap opc t idx a b c = some (f, i)) : encode i = f.word opc t idx a b c := by
  have hopc : BitVec.ofNat 8 opc.toNat = opc := (BitVec.ofNat_toNat 8 opc).trans (BitVec.setWidth_eq opc)
  unfold opcodeMap at h
  split at h
  all_goals
    next hcode => cases h <;> (rw [← hopc, hcode]; rfl)

/-- What a mask leaves of a word being its opcode alone, every field is 0 where the mask covers it. -/
theorem fields_of_mask {opc t mt : Byte} {idx mi : Half} {a ma b mb c mc : Word}
    (h : pack opc t idx a b c &&& pack 0xFF mt mi ma mb mc = opc.setWidth 128) :
    t &&& mt = 0 ∧ idx &&& mi = 0 ∧ a &&& ma = 0 ∧ b &&& mb = 0 ∧ c &&& mc = 0 := by
  rw [pack_and, ← pack_opc] at h
  exact ⟨by simpa using congrArg tField h, by simpa using congrArg idxField h, by simpa using congrArg aField h,
    by simpa using congrArg bField h, by simpa using congrArg cField h⟩

/-- A field the mask covers whole is 0. -/
theorem eq_zero_of_and_allOnes {n : Nat} {x : BitVec n} (h : x &&& BitVec.allOnes n = 0) : x = 0 :=
  BitVec.and_allOnes.symm.trans h

/-- A word whose mask leaves the opcode alone is the word of its format. -/
theorem Format.word_of_mask (f : Format) {opc t : Byte} {idx : Half} {a b c : Word}
    (h : pack opc t idx a b c &&& f.mask = opc.setWidth 128) : f.word opc t idx a b c = pack opc t idx a b c := by
  obtain ⟨hn, hft, hfa, hab, habc, hta, htabc, htia, htiab⟩ := Format.mask_fields
  cases f with
  | n =>
    obtain ⟨ht, hi, ha, hb, hc⟩ := fields_of_mask (hn ▸ h)
    rw [eq_zero_of_and_allOnes ht, eq_zero_of_and_allOnes hi, eq_zero_of_and_allOnes ha, eq_zero_of_and_allOnes hb,
      eq_zero_of_and_allOnes hc]
    rfl
  | t =>
    obtain ⟨-, hi, ha, hb, hc⟩ := fields_of_mask (hft ▸ h)
    rw [eq_zero_of_and_allOnes hi, eq_zero_of_and_allOnes ha, eq_zero_of_and_allOnes hb, eq_zero_of_and_allOnes hc]
    rfl
  | a =>
    obtain ⟨ht, hi, -, hb, hc⟩ := fields_of_mask (hfa ▸ h)
    rw [eq_zero_of_and_allOnes ht, eq_zero_of_and_allOnes hi, eq_zero_of_and_allOnes hb, eq_zero_of_and_allOnes hc]
    rfl
  | ab =>
    obtain ⟨ht, hi, -, -, hc⟩ := fields_of_mask (hab ▸ h)
    rw [eq_zero_of_and_allOnes ht, eq_zero_of_and_allOnes hi, eq_zero_of_and_allOnes hc]
    rfl
  | abc =>
    obtain ⟨ht, hi, -, -, -⟩ := fields_of_mask (habc ▸ h)
    rw [eq_zero_of_and_allOnes ht, eq_zero_of_and_allOnes hi]
    rfl
  | ta =>
    obtain ⟨-, hi, -, hb, hc⟩ := fields_of_mask (hta ▸ h)
    rw [eq_zero_of_and_allOnes hi, eq_zero_of_and_allOnes hb, eq_zero_of_and_allOnes hc]
    rfl
  | tabc =>
    obtain ⟨-, hi, -, -, -⟩ := fields_of_mask (htabc ▸ h)
    rw [eq_zero_of_and_allOnes hi]
    rfl
  | tia =>
    obtain ⟨-, -, -, hb, hc⟩ := fields_of_mask (htia ▸ h)
    rw [eq_zero_of_and_allOnes hb, eq_zero_of_and_allOnes hc]
    rfl
  | tiab =>
    obtain ⟨-, -, -, -, hc⟩ := fields_of_mask (htiab ▸ h)
    rw [eq_zero_of_and_allOnes hc]
    rfl

/-- Encoding inverts decoding. -/
theorem encode_of_decode {w : Command} {i : Instr} (h : decode w = .ok i) : encode i = w := by
  obtain ⟨f, hmap, hmask⟩ := (decode_eq_ok_iff w i).1 h
  have hw := pack_fields w
  calc
    encode i = f.word (opcField w) (tField w) (idxField w) (aField w) (bField w) (cField w) := encode_of_opcodeMap hmap
    _ = pack (opcField w) (tField w) (idxField w) (aField w) (bField w) (cField w) :=
      f.word_of_mask (by rw [hw]; exact hmask)
    _ = w := hw

/-- Settles O6: a decoded word has nothing in the fields its format does not use, so the command's own fields are all of
it. -/
theorem encodeInvertsDecode : Obligations.EncodeInvertsDecode := fun _ _ => encode_of_decode

/-! ### The rows of the opcode table (R60) -/

/-- A row's mask keeps the whole opcode. -/
theorem opcField_mask (f : Format) : opcField f.mask = 0xFF := by cases f <;> rfl

/-- A word whose mask leaves an opcode alone has that opcode. -/
theorem opcField_of_mask {w : Command} {f : Format} {opc : Byte} (h : w &&& f.mask = opc.setWidth 128) :
    opcField w = opc := by
  have hand : opcField (w &&& f.mask) = opcField w &&& opcField f.mask := BitVec.extractLsb'_and
  rw [h, ← pack_opc, opcField_pack, opcField_mask] at hand
  exact (hand.trans BitVec.and_allOnes).symm

/-- A pair of the table is the row of an opcode: it matches that opcode under the mask of the format with which the
opcode map finds it, whatever the operands. -/
def IsRow (r : Command × Command) (opc : Byte) (f : Format) : Prop :=
  (∀ t idx a b c, ∃ i, opcodeMap opc t idx a b c = some (f, i)) ∧ r = (opc.setWidth 128, f.mask)

/-- Every pair of the table is the row of some opcode. -/
theorem isRow_of_mem {r : Command × Command} (h : r ∈ tableRows) : ∃ f, IsRow r (opcField r.1) f := by
  fin_cases h <;> exact ⟨_, fun _ _ _ _ _ => ⟨_, rfl⟩, rfl⟩

/-- Every command's row is in the table. -/
theorem row_mem (i : Instr) : ((row i).1.setWidth 128, (row i).2.mask) ∈ tableRows := by
  cases i <;> dsimp only [row] <;> decide

/-- An opcode has one row. -/
theorem IsRow.unique {r q : Command × Command} {opc : Byte} {f g : Format} (hr : IsRow r opc f) (hq : IsRow q opc g) :
    r = q := by
  obtain ⟨hmap, rfl⟩ := hr
  obtain ⟨hmap', rfl⟩ := hq
  obtain ⟨i, hi⟩ := hmap 0 0 0 0 0
  obtain ⟨j, hj⟩ := hmap' 0 0 0 0 0
  cases hi.symm.trans hj
  rfl

/-- A row of the table that a word selects is the row of the word's opcode. -/
theorem isRow_of_selects {w : Command} {r : Command × Command} (hr : r ∈ tableRows) (hsel : Selects w r) :
    ∃ f, IsRow r (opcField w) f := by
  obtain ⟨f, hrow⟩ := isRow_of_mem hr
  have ⟨_, heq⟩ := hrow
  rw [heq] at hsel
  exact ⟨f, opcField_of_mask hsel ▸ hrow⟩

/-- A word decodes exactly when it selects a row: the row of the command whose word it is, and, the other way, the row
of its own opcode. -/
theorem decodes_iff_selects (w : Command) : (∃ i, decode w = .ok i) ↔ ∃ r ∈ tableRows, Selects w r := by
  constructor
  · rintro ⟨i, hi⟩
    obtain ⟨-, hmask, -⟩ := encodedAs_row i
    rw [encode_of_decode hi] at hmask
    exact ⟨_, row_mem i, hmask⟩
  · rintro ⟨r, hr, hsel⟩
    obtain ⟨f, hmap, rfl⟩ := isRow_of_selects hr hsel
    obtain ⟨i, hi⟩ := hmap (tField w) (idxField w) (aField w) (bField w) (cField w)
    exact ⟨i, (decode_eq_ok_iff w i).2 ⟨f, hi, hsel⟩⟩

/-- Settles O4: both rows a word selects are the one row of its opcode. -/
theorem decodingSelectsTableRows : Obligations.DecodingSelectsTableRows := by
  refine ⟨decodes_iff_selects, fun w r hr q hq hwr hwq => ?_⟩
  obtain ⟨f, hf⟩ := isRow_of_selects hr hwr
  obtain ⟨g, hg⟩ := isRow_of_selects hq hwq
  exact hf.unique hg

/-! ### Illegal commands (R54, R55) -/

/-- Where a meaning's first check fails, the answer is `BadCommand`. -/
theorem badCommand_of_check {check : Bool} (h : check = false) (s t : State) :
    (.next (if !check then s.fail .badCommand else t) : Host.Outcome State Fault Refusal) =
      .next (s.fail .badCommand) := by
  rw [h]
  rfl

/-- A command with an operand outside its static range is answered `BadCommand` and changes nothing else: the range is
the first thing its meaning checks. -/
theorem exec_of_not_wellFormed {i : Instr} {s : State} (h : i.wellFormed s.params = false) :
    exec i s = .next (s.fail .badCommand) := by
  cases i with
  | sysParam | bsRead | bsPeek | crcUpd | hufStage | hufBuildl | hufBuildc | hufDecode | hufFree | hufRdtab | hufRdnode
  | lzInit | lzSetout | fltWr | fltRd | fltDelta | fltAudio | fltRgb => exact badCommand_of_check h s _
  | sysNop | sysReset | sysStat | bsOpen | bsSkip | bsAlign | bsHas | bsAtend | bsErr | bsBack | bsTell | crcSeed
  | crcGet | crcUpdo | crcUpdf | lzLit | lzCopy | lzDrain | lzHasov | lzOutlen | lzOutrd | lzTell | lzWinrd | fltX86
  | fltX86e9 | fltArm => cases h

/-- A word that is no command is answered `BadCommand`. -/
theorem step_of_decode_error {s : State} {w : Command} {rest : List Command} {e : DecodeError}
    (hhost : s.host = w :: rest) (hdecode : decode w = .error e) :
    step s = .next (State.fail { s with host := rest } .badCommand) := by
  rw [step, hhost]
  dsimp only
  rw [hdecode]

/-- Settles O3: a word that selects no row does not decode, and a command out of range is refused by its own meaning. -/
theorem illegalCommandsAnswerBadCommand : Obligations.IllegalCommandsAnswerBadCommand := by
  intro s w rest hhost h
  obtain ⟨hstep, -⟩ := stepRunsTheDecodedCommand
  cases hdecode : decode w with
  | error e => exact step_of_decode_error hhost hdecode
  | ok j =>
    obtain hnone | ⟨i, hi, hill⟩ := h
    · obtain ⟨r, hr, hsel⟩ := (decodes_iff_selects w).1 ⟨j, hdecode⟩
      exact absurd hsel (hnone r hr)
    · rw [hstep s w rest i hhost hi]
      exact exec_of_not_wellFormed hill

/-! ### The spec's examples -/

/-- Settles O7: each word is evaluated. -/
theorem exampleWordsDecode : Obligations.ExampleWordsDecode := ⟨rfl, rfl, rfl, rfl, rfl, rfl, rfl, rfl, rfl⟩

end Sys2Proof
end

section
/-! Fields of the stream through the hidden buffers (40_bitstream.md R84 to R87): the part of one word, or the parts of
two, that R86 takes is `Bits`. -/

namespace Sys2Proof.Machine

/-! ### The two operations of R86 on numbers -/

/-- Masking keeps the low `n` bits. -/
theorem and_lowMask_toNat (x : DWord) {n : Nat} (hn : n ≤ 64) : (x &&& lowMask n).toNat = x.toNat % 2 ^ n := by
  rw [BitVec.toNat_and, lowMask_toNat n hn, Nat.and_two_pow_sub_one_eq_mod]

/-- Two parts that fit side by side join into one field, the first most significant. -/
theorem shiftLeft_or_toNat {x y : DWord} {j k : Nat} (hx : x.toNat < 2 ^ j) (hy : y.toNat < 2 ^ k) (hjk : j + k ≤ 64) :
    (x <<< k ||| y).toNat = x.toNat * 2 ^ k + y.toNat := by
  have hfit : x.toNat * 2 ^ k < 2 ^ 64 :=
    calc x.toNat * 2 ^ k < 2 ^ j * 2 ^ k := Nat.mul_lt_mul_of_pos_right hx (Nat.two_pow_pos k)
      _ = 2 ^ (j + k) := (Nat.pow_add 2 j k).symm
      _ ≤ 2 ^ 64 := Nat.pow_le_pow_right (by decide) hjk
  rw [BitVec.toNat_or, BitVec.toNat_shiftLeft, Nat.shiftLeft_eq, Nat.mod_eq_of_lt hfit, Nat.mul_comm,
    Nat.two_pow_add_eq_or_of_lt hy]

/-! ### Parts of a field (R31) -/

/-- The first bits of a field are its quotient by the weight of the rest. -/
theorem State.bits_div (s : State) (p n k : Nat) : s.bits p (n + k) / 2 ^ k = s.bits p n := by
  rw [s.bits_append, Nat.mul_comm, Nat.mul_add_div (Nat.two_pow_pos k), Nat.div_eq_of_lt (s.bits_lt _ k), Nat.add_zero]

/-- The last bits are the remainder. -/
theorem State.bits_mod (s : State) (p n k : Nat) : s.bits p (n + k) % 2 ^ k = s.bits (p + n) k := by
  rw [s.bits_append, Nat.mul_comm, Nat.mul_add_mod, Nat.mod_eq_of_lt (s.bits_lt _ k)]

/-- The first bits of a stream word. -/
theorem State.streamWord_div (s : State) (w : Nat) {n : Nat} (hn : n ≤ 64) :
    s.streamWord w / 2 ^ (64 - n) = s.bits (64 * w) n := by
  rw [s.streamWord_eq_bits, ← s.bits_div (64 * w) n (64 - n), Nat.add_sub_of_le hn]

/-- Its bits from offset `o` on. -/
theorem State.streamWord_mod (s : State) (w : Nat) {o : Nat} (ho : o ≤ 64) :
    s.streamWord w % 2 ^ (64 - o) = s.bits (64 * w + o) (64 - o) := by
  rw [s.streamWord_eq_bits, ← s.bits_mod (64 * w) o (64 - o), Nat.add_sub_of_le ho]

/-- Its `n` bits from offset `o` on. -/
theorem State.streamWord_div_mod (s : State) (w : Nat) {o n : Nat} (h : o + n ≤ 64) :
    s.streamWord w / 2 ^ (64 - o - n) % 2 ^ n = s.bits (64 * w + o) n := by
  rw [Nat.sub_sub, s.streamWord_div w h, s.bits_mod]

/-! ### Extraction (R86, R87) -/

/-- Through coherent buffers `Extract` is `Bits`: a field within a word is a part of it, and one that straddles two is
the first's last bits and the second's first. -/
theorem State.extract_toNat (s : State) (p : Nat) {n : Nat} (hp : s.params.Legal) (hb : s.BuffersOk) (hn : n ≤ 32) :
    (s.extract p n).1.toNat = s.bits p n := by
  have hw := s.fetchWord_l1Word (p / 64) hp hb
  have hw' := s.fetchWord_next_l1Word (p / 64) hp hb
  have hpos : 64 * (p / 64) + p % 64 = p := Nat.div_add_mod p 64
  have ho : p % 64 < 64 := Nat.mod_lt p (by decide)
  unfold State.extract
  split
  · next h0 => rw [h0]; rfl
  dsimp only
  split
  · next hone =>
    rw [and_lowMask_toNat _ (by omega), BitVec.toNat_ushiftRight, Nat.shiftRight_eq_div_pow, hw,
      s.streamWord_div_mod _ hone, hpos]
  · next htwo =>
    have hfirst : ((s.fetchWord (p / 64)).bs.l1Word &&& lowMask (64 - p % 64)).toNat = s.bits p (64 - p % 64) := by
      rw [and_lowMask_toNat _ (by omega), hw, s.streamWord_mod _ ho.le, hpos]
    generalize hn1 : 64 - p % 64 = n1 at hfirst ⊢
    obtain ⟨n2, rfl⟩ : ∃ n2, n = n1 + n2 := Nat.exists_eq_add_of_le (by omega)
    have hsecond : (((s.fetchWord (p / 64)).fetchWord (p / 64 + 1)).bs.l1Word >>> (64 - n2)).toNat =
        s.bits (p + n1) n2 := by
      rw [BitVec.toNat_ushiftRight, Nat.shiftRight_eq_div_pow, hw', s.streamWord_div _ (by omega)]
      congr 1
      omega
    rw [Nat.add_sub_cancel_left, s.bits_append, ← hfirst, ← hsecond]
    exact shiftLeft_or_toNat (hfirst ▸ s.bits_lt _ _) (hsecond ▸ s.bits_lt _ _) (by omega)

/-- Settles O23: the words fetched are the stream's, whatever the buffers held. -/
theorem extractEqualsBits : Obligations.ExtractEqualsBits := fun s p n hp hb hn =>
  ⟨s.extract_toNat p hp hb hn, s.extract_same p n⟩

end Sys2Proof.Machine
end

section
/-! The Bitstream unit's commands, case by case (40_bitstream.md R70 to R83), and the sticky error (R72). -/

namespace Sys2Proof.Machine

/-! ### Positions and truth values -/

/-- `advance` with its new position as a number. -/
theorem State.advance_eq (s : State) (n : Nat) :
    s.advance n = s.setBs { s.bs with pos := BitVec.ofNat 64 (s.bs.pos.toNat + n) } := by
  rw [State.advance, BitVec.ofNat_add, BitVec.ofNat_toNat, BitVec.setWidth_eq]

/-- Moving by nothing. -/
@[simp] theorem State.advance_zero (s : State) : s.advance 0 = s := by
  rw [State.advance_eq, Nat.add_zero, BitVec.ofNat_toNat, BitVec.setWidth_eq]
  rfl

/-- Moving back with the new position as a number. -/
theorem pos_sub_setWidth {pos : DWord} {n : Word} (h : n.toNat ≤ pos.toNat) :
    pos - n.setWidth 64 = BitVec.ofNat 64 (pos.toNat - n.toNat) := by
  apply BitVec.eq_of_toNat_eq
  have hn : (n.setWidth 64).toNat = n.toNat := BitVec.toNat_setWidth_of_le (by decide)
  have hle : n.setWidth 64 ≤ pos := by rwa [BitVec.le_def, hn]
  have := pos.isLt
  rw [BitVec.toNat_sub_of_le hle, hn, BitVec.toNat_ofNat, Nat.mod_eq_of_lt (by omega)]

/-- Within the stream, the position `BS.ALIGN` rounds up to is a number of 64 bits. -/
theorem State.align_toNat {s : State} (hs : s.StreamOk) :
    (BitVec.ofNat 64 ((s.bs.pos.toNat + 7) / 8 * 8)).toNat = (s.bs.pos.toNat + 7) / 8 * 8 := by
  have hpos : s.bs.pos.toNat ≤ 8 * s.bs.size.toNat := hs.1
  rw [BitVec.toNat_ofNat]
  omega

/-- The result register of a decision. -/
theorem boolResult_decide (p : Prop) [Decidable p] : boolResult (decide p) = if p then 1 else 0 := by
  simp [boolResult]

/-- Every stream bit from the end on is 0 (R45). -/
theorem State.streamBit_of_le {s : State} {p : Nat} (h : s.bitlen ≤ p) : s.streamBit p = false := by
  have hbyte : s.bs.size.toNat ≤ p / 8 := by
    rw [State.bitlen] at h
    omega
  rw [State.streamBit, s.srcByte_of_le _ hbyte]
  exact BitVec.getLsbD_zero

/-! ### Reads (R74, R75, R76) -/

/-- The value read through coherent buffers. -/
theorem State.extract_fst (s : State) (p : Nat) {n : Nat} (hp : s.params.Legal) (hb : s.BuffersOk) (hn : n ≤ 32) :
    (s.extract p n).1 = BitVec.ofNat 64 (s.bits p n) := by
  rw [← s.extract_toNat p hp hb hn, BitVec.ofNat_toNat, BitVec.setWidth_eq]

/-- Past its operand check `BS.READ` is a stream command. -/
theorem exec_bsRead {n : Byte} (hn : n.toNat ≤ 32) (s : State) :
    exec (.bsRead n) s =
      .next
        (s.onStream 0
          (if s.remaining < n.toNat then s.overRead
          else ((s.extract s.bs.pos.toNat n.toNat).2.advance n.toNat).respond .ok
            (s.extract s.bs.pos.toNat n.toNat).1 0)) := by
  have hcheck : bitCountOk n = true := decide_eq_true hn
  show execBsRead n s = _
  rw [execBsRead, hcheck]
  rfl

/-- Past its operand check `BS.PEEK` is a stream command. -/
theorem exec_bsPeek {n : Byte} (hn : n.toNat ≤ 32) (s : State) :
    exec (.bsPeek n) s =
      .next
        (s.onStream 0
          ((s.extract s.bs.pos.toNat n.toNat).2.respond .ok (s.extract s.bs.pos.toNat n.toNat).1 0)) := by
  have hcheck : bitCountOk n = true := decide_eq_true hn
  show execBsPeek n s = _
  rw [execBsPeek, hcheck]
  rfl

/-- Settles O24: the field read is `Bits` (R87), and the position moves past it. -/
theorem bsReadReturnsBits : Obligations.BsReadReturnsBits := by
  intro n s
  refine ⟨encodedAs_row _, fun hn => exec_of_not_wellFormed (decide_eq_false (by omega)), fun hn hc => ?_,
    fun hn ho he => ?_, fun hn ho he hrem => ?_, fun hp hb hn ho he hrem => ?_⟩
  · rw [exec_bsRead hn, s.onStream_closed _ _ hc]
    rfl
  · rw [exec_bsRead hn, s.onStream_err _ _ ho he]
  · rw [exec_bsRead hn, s.onStream_ready _ _ ho he, if_pos hrem]
    rfl
  · refine ⟨_, s.extract_same s.bs.pos.toNat n.toNat, ?_⟩
    rw [exec_bsRead hn, s.onStream_ready _ _ ho he, if_neg (Nat.not_lt.2 hrem), s.extract_fst _ hp hb hn,
      State.advance_eq, State.extract_bs_pos]

/-- Settles O25: the field read is `Bits` (R87), and nothing but the buffers moves. -/
theorem bsPeekReturnsPaddedBits : Obligations.BsPeekReturnsPaddedBits := by
  intro n s
  refine ⟨encodedAs_row _, fun hn => exec_of_not_wellFormed (decide_eq_false (by omega)), fun hn hc => ?_,
    fun hn ho he => ?_, fun hp hb hn ho he => ?_, fun p => State.streamBit_of_le⟩
  · rw [exec_bsPeek hn, s.onStream_closed _ _ hc]
    rfl
  · rw [exec_bsPeek hn, s.onStream_err _ _ ho he]
  · refine ⟨_, s.extract_same s.bs.pos.toNat n.toNat, ?_⟩
    rw [exec_bsPeek hn, s.onStream_ready _ _ ho he, s.extract_fst _ hp hb hn]

/-- Settles O26: a field of no bits is 0 and fetches nothing. -/
theorem zeroBitReadsChangeNothing : Obligations.ZeroBitReadsChangeNothing := by
  have hn : (0 : Byte).toNat ≤ 32 := by decide
  refine fun s ho => ⟨fun he => ⟨?_, ?_⟩, fun he => ?_⟩
  · rw [exec_bsRead hn, s.onStream_ready _ _ ho he]
    simp
  · rw [exec_bsPeek hn, s.onStream_ready _ _ ho he]
    simp
  · exact ⟨(exec_bsRead hn s).trans (congrArg _ (s.onStream_err _ _ ho he)),
      (exec_bsPeek hn s).trans (congrArg _ (s.onStream_err _ _ ho he))⟩

/-! ### The window and the position (R73, R77, R78, R82) -/

/-- Settles O22. -/
theorem bsOpenAttachesWindow : Obligations.BsOpenAttachesWindow := fun _ _ _ =>
  ⟨encodedAs_row _, fun h => congrArg _ (if_pos h), fun h => congrArg _ (if_neg (Nat.not_lt.2 h))⟩

/-- Settles O27: `advance` moves the position by exactly `n`. -/
theorem bsSkipMovesForward : Obligations.BsSkipMovesForward := by
  refine fun n s => ⟨encodedAs_row _, fun hc => congrArg _ (s.onStream_closed _ _ hc),
    fun ho he => congrArg _ (s.onStream_err _ _ ho he),
    fun ho he hrem => congrArg _ ((s.onStream_ready _ _ ho he).trans (if_pos hrem)), fun ho he hrem => ?_⟩
  rw [← s.advance_eq]
  exact congrArg _ ((s.onStream_ready _ _ ho he).trans (if_neg (Nat.not_lt.2 hrem)))

/-- Settles O28: the next multiple of 8 is within the stream, whose length is one. -/
theorem bsAlignReachesByteBoundary : Obligations.BsAlignReachesByteBoundary := by
  refine ⟨encodedAs_row _, fun s => ⟨fun hc => congrArg _ (s.onStream_closed _ _ hc),
    fun ho he => congrArg _ (s.onStream_err _ _ ho he),
    fun hs ho he => ⟨_, congrArg _ (s.onStream_ready _ _ ho he), ?_, ?_, ?_, State.align_le hs⟩⟩⟩
  all_goals rw [State.align_toNat hs]; omega

/-- Settles O31: the position is at least `n`, so its 64 bits fall by exactly `n`. -/
theorem bsBackSeeksBackward : Obligations.BsBackSeeksBackward := by
  refine fun n s => ⟨encodedAs_row _, fun hc => congrArg _ (s.onStream_closed _ _ hc),
    fun ho he => congrArg _ (s.onStream_err _ _ ho he),
    fun ho he hlt => congrArg _ ((s.onStream_ready _ _ ho he).trans (if_pos hlt)), fun ho he hle => ?_⟩
  rw [← pos_sub_setWidth hle]
  exact congrArg _ ((s.onStream_ready _ _ ho he).trans (if_neg (Nat.not_lt.2 hle)))

/-! ### Reports (R79, R80, R81, R83) -/

/-- Settles O29. -/
theorem bsHasAndAtendReportRemaining : Obligations.BsHasAndAtendReportRemaining := by
  refine ⟨encodedAs_row _, fun n s => ⟨encodedAs_row _,
    fun hc => ⟨congrArg _ (s.onStream_closed _ _ hc), congrArg _ (s.onStream_closed _ _ hc)⟩,
    fun ho he => ⟨congrArg _ (s.onStream_err _ _ ho he), congrArg _ (s.onStream_err _ _ ho he)⟩,
    fun ho he => ⟨?_, ?_⟩⟩⟩
  · rw [← boolResult_decide]
    exact congrArg _ (s.onStream_ready _ _ ho he)
  · rw [← boolResult_decide, ← beq_eq_decide]
    exact congrArg _ (s.onStream_ready _ _ ho he)

/-- Settles O30: neither asks for an open stream. -/
theorem bsErrAndTellAlwaysAnswer : Obligations.BsErrAndTellAlwaysAnswer :=
  ⟨encodedAs_row _, encodedAs_row _, fun _ => ⟨rfl, rfl⟩⟩

/-! ### The sticky error (R72) -/

/-- A state in which the sticky error comes only with the answer `ReadFail` and where `cause` holds. -/
def ErrOnlyBy (cause : Prop) (t : State) : Prop := t.bs.err = true → t.rsp.status = .readFail ∧ cause

/-- A state that keeps the flag clear is one. -/
theorem ErrOnlyBy.of_clear {cause : Prop} {s t : State} (he : s.bs.err = false) (ht : t.bs.err = s.bs.err) :
    ErrOnlyBy cause t := fun hset => by
  rw [ht, he] at hset
  cases hset

/-- The checks of a stream command set no error. -/
theorem ErrOnlyBy.onStream {cause : Prop} {s act : State} {failValue : DWord} (he : s.bs.err = false)
    (hact : ErrOnlyBy cause act) : ErrOnlyBy cause (s.onStream failValue act) :=
  State.onStream_of (fun _ _ _ => .of_clear he rfl) fun _ _ => hact

section SetAndCleared

variable {i : Instr} {s t : State}

/-- `BS.READ` sets the sticky error where it needs more bits than remain. -/
theorem bsRead_sets_err {n : Byte} (h : exec (.bsRead n) s = .next t) (he : s.bs.err = false) :
    ErrOnlyBy (s.remaining < n.toNat) t := by
  cases h
  split
  · exact .of_clear he rfl
  refine .onStream he ?_
  split
  · next hrem => exact fun _ => ⟨rfl, hrem⟩
  · exact .of_clear he (s.extract_bs_err _ _)

/-- `BS.SKIP` does exactly as a read. -/
theorem bsSkip_sets_err {n : Word} (h : exec (.bsSkip n) s = .next t) (he : s.bs.err = false) :
    ErrOnlyBy (s.remaining < n.toNat) t := by
  cases h
  refine .onStream he ?_
  split
  · next hrem => exact fun _ => ⟨rfl, hrem⟩
  · exact .of_clear he rfl

/-- `HUF.DECODE` sets it only together with `ReadFail`. -/
theorem hufDecode_sets_err {u : Byte} (h : exec (.hufDecode u) s = .next t) (he : s.bs.err = false) :
    ErrOnlyBy True t := by
  cases h
  split
  · exact .of_clear he rfl
  split
  · exact .of_clear he rfl
  refine .onStream he ?_
  obtain ⟨-, -, -, -, -, -, -, -, ⟨hrsp, -⟩ | ⟨-, herr⟩ | ⟨-, herr⟩⟩ := s.decodeSymbol_frame (s.slot u.toNat)
  · exact fun _ => ⟨by rw [hrsp], trivial⟩
  · exact .of_clear he herr
  · exact .of_clear he herr

/-- A command that sets the sticky error is a read or a skip of more than remains, or a decode, and answers
`ReadFail`. -/
theorem exec_sets_err (h : exec i s = .next t) (he : s.bs.err = false) (hset : t.bs.err = true) :
    t.rsp.status = .readFail ∧
      ((∃ n, i = .bsRead n ∧ s.remaining < n.toNat) ∨ (∃ n, i = .bsSkip n ∧ s.remaining < n.toNat) ∨
        ∃ u, i = .hufDecode u) := by
  have hr : i ≠ .sysReset := by
    rintro rfl
    cases h
    cases hset
  obtain ⟨base, size, rfl⟩ | ⟨n, rfl⟩ | ⟨n, rfl⟩ | ⟨u, rfl⟩ := writers_err h hr (by rw [he, hset]; decide)
  · cases h
    split at hset
    · rw [State.fail_bs, he] at hset
      cases hset
    · cases hset
  · obtain ⟨hrsp, hrem⟩ := bsRead_sets_err h he hset
    exact ⟨hrsp, .inl ⟨n, rfl, hrem⟩⟩
  · obtain ⟨hrsp, hrem⟩ := bsSkip_sets_err h he hset
    exact ⟨hrsp, .inr (.inl ⟨n, rfl, hrem⟩)⟩
  · obtain ⟨hrsp, -⟩ := hufDecode_sets_err h he hset
    exact ⟨hrsp, .inr (.inr ⟨u, rfl⟩)⟩

/-- Under the sticky error the checks of a stream command leave the Bitstream unit. -/
theorem State.onStream_bs_of_err {act : State} {failValue : DWord} (he : s.bs.err = true) :
    (s.onStream failValue act).bs = s.bs :=
  State.onStream_of (Q := fun v => v.bs = s.bs) (fun _ _ _ => rfl) fun _ hno => by
    rw [he] at hno
    cases hno

/-- A command that clears the sticky error is a `BS.OPEN` that answers `OK`, or `SYS.RESET`: the consuming commands do
nothing under it. -/
theorem exec_clears_err (h : exec i s = .next t) (he : s.bs.err = true) (hclear : t.bs.err = false) :
    ((∃ base size, i = .bsOpen base size) ∧ t.rsp.status = .ok) ∨ i = .sysReset := by
  by_cases hr : i = .sysReset
  · exact .inr hr
  have hkept : t.bs ≠ s.bs := fun heq => by
    rw [heq, he] at hclear
    cases hclear
  obtain ⟨base, size, rfl⟩ | ⟨n, rfl⟩ | ⟨n, rfl⟩ | ⟨u, rfl⟩ := writers_err h hr (by rw [he, hclear]; decide)
  · refine .inl ⟨⟨base, size, rfl⟩, ?_⟩
    cases h
    split at hkept
    · exact absurd rfl hkept
    · next hfit => rw [if_neg hfit]; rfl
  · cases h
    split at hkept
    · exact absurd rfl hkept
    · exact absurd (State.onStream_bs_of_err he) hkept
  · cases h
    exact absurd (State.onStream_bs_of_err he) hkept
  · cases h
    split at hkept
    · exact absurd rfl hkept
    split at hkept
    · exact absurd rfl hkept
    · exact absurd (State.onStream_bs_of_err he) hkept

end SetAndCleared

/-- Past its own checks (R100) `HUF.DECODE` is a stream command. -/
theorem exec_hufDecode {u : Byte} {s : State} (hu : u.toNat < 8) (hvalid : (s.slot u.toNat).valid = true) :
    exec (.hufDecode u) s = .next (s.onStream 0 (s.decodeSymbol (s.slot u.toNat))) := by
  have hslot : slotOk u = true := decide_eq_true hu
  show execHufDecode u s = _
  rw [execHufDecode, hslot, hvalid]
  rfl

/-- Settles O32: the consuming commands alone over-read, and every command of R72's table but `BS.ERR` and `BS.TELL` is,
past its own checks, a stream command. -/
theorem stickyErrorShortCircuits : Obligations.StickyErrorShortCircuits := by
  refine ⟨fun _ _ _ => exec_sets_err, fun _ _ _ => exec_clears_err, fun s ho he => ?_⟩
  have hstop : ∀ failValue act,
      (.next (s.onStream failValue act) : Host.Outcome State Fault Refusal) = .next (s.respond .readFail failValue 0) :=
    fun _ _ => congrArg _ (s.onStream_err _ _ ho he)
  have herr : exec .bsErr s = .next (s.respond .ok 1 0) := by
    obtain ⟨-, -, hanswer⟩ := bsErrAndTellAlwaysAnswer
    rw [(hanswer s).1, he]
    rfl
  exact ⟨fun n hn => ⟨(exec_bsRead hn s).trans (hstop _ _), (exec_bsPeek hn s).trans (hstop _ _)⟩,
    fun _ => ⟨hstop _ _, hstop _ _, hstop _ _⟩, hstop _ _, hstop _ _,
    fun u hu hvalid => (exec_hufDecode hu hvalid).trans (hstop _ _), herr, rfl⟩

end Sys2Proof.Machine
end

section
/-! The CRC32 unit's commands, case by case (41_crc32.md R92 to R96), and the table of R90 against the bit-serial
division: a round is linear over XOR, and on a register whose low bits are clear it only shifts. -/

namespace Sys2Proof.Machine

/-! ### The table and the division (R90, R91) -/

theorem crcRounds_succ (n : Nat) (c : Word) : crcRounds (n + 1) c = crcRounds n (crcRound c) := rfl

/-- A round is linear: the polynomial enters once for each operand with its low bit set, and twice cancels. -/
theorem crcRound_xor (x y : Word) : crcRound (x ^^^ y) = crcRound x ^^^ crcRound y := by
  simp only [crcRound, BitVec.getLsbD_xor, BitVec.ushiftRight_xor_distrib]
  cases x.getLsbD 0 <;> cases y.getLsbD 0
  case false.false => rfl
  case false.true => exact BitVec.xor_assoc _ _ _
  case true.false =>
    show x >>> 1 ^^^ y >>> 1 ^^^ crcPoly = x >>> 1 ^^^ crcPoly ^^^ y >>> 1
    ac_rfl
  case true.true =>
    calc x >>> 1 ^^^ y >>> 1
        = x >>> 1 ^^^ y >>> 1 ^^^ (crcPoly ^^^ crcPoly) := by rw [BitVec.xor_self, BitVec.xor_zero]
      _ = x >>> 1 ^^^ crcPoly ^^^ (y >>> 1 ^^^ crcPoly) := by ac_rfl

/-- So is any number of rounds. -/
theorem crcRounds_xor (n : Nat) (x y : Word) : crcRounds n (x ^^^ y) = crcRounds n x ^^^ crcRounds n y := by
  induction n generalizing x y with
  | zero => rfl
  | succ n ih => rw [crcRounds_succ, crcRound_xor, ih, ← crcRounds_succ, ← crcRounds_succ]

/-- Rounds over clear low bits never meet the polynomial: they shift. -/
theorem crcRounds_of_low_clear (n : Nat) (x : Word) (h : ∀ k < n, x.getLsbD k = false) : crcRounds n x = x >>> n := by
  induction n generalizing x with
  | zero => rfl
  | succ n ih =>
    have hround : crcRound x = x >>> 1 := if_neg (by rw [h 0 n.succ_pos]; decide)
    have hclear : ∀ k < n, (x >>> 1).getLsbD k = false := fun k hk => by
      rw [BitVec.getLsbD_ushiftRight]
      exact h (1 + k) (by omega)
    rw [crcRounds_succ, hround, ih _ hclear, ← BitVec.shiftRight_add, Nat.add_comm]

/-- Eight rounds on any register: the low byte goes through the table, the rest is shifted down. -/
theorem crcRounds_eight (c : Word) : crcRounds 8 c = crcTab (c.setWidth 8) ^^^ (c >>> 8) := by
  have hsplit : c = (c.setWidth 8).setWidth 32 ^^^ (c >>> 8) <<< 8 := by
    ext k hk
    by_cases hlow : k < 8
    · simp [hlow, hk]
    · simp [hlow, Nat.add_sub_cancel' (Nat.le_of_not_lt hlow), BitVec.getLsbD_eq_getElem hk]
  have hclear : ∀ k < 8, ((c >>> 8) <<< 8).getLsbD k = false := fun k hk => by simp [hk]
  have hshift : ((c >>> 8) <<< 8) >>> 8 = c >>> 8 := by
    ext k hk
    simpa using BitVec.lt_of_getLsbD
  conv_lhs => rw [hsplit]
  rw [crcRounds_xor, crcRounds_of_low_clear 8 _ hclear, hshift, crcTab]

/-- Settles O37: a byte has no bits above the low eight, so mixing it in first shifts out the same register. -/
theorem crcTableStepIsEightRounds : Obligations.CrcTableStepIsEightRounds := by
  intro reg b
  have hbyte : b.setWidth 32 >>> 8 = 0#32 := by
    ext k hk
    simp
  rw [crcRounds_eight, BitVec.ushiftRight_xor_distrib, hbyte, BitVec.xor_zero, crcStep]

/-! ### Feeding (R93, R95, R96) -/

@[simp] theorem crcFeed_nil (reg : Word) : crcFeed reg [] = reg := rfl

@[simp] theorem crcFeed_cons (reg : Word) (b : Byte) (data : List Byte) :
    crcFeed reg (b :: data) = crcFeed (crcStep reg b) data := rfl

/-- A range of a memory is fed in increasing order. -/
theorem crcFeed_bytes (reg : Word) (m : Mem) (a n : Nat) :
    crcFeed reg (m.bytes a n) = (List.range n).foldl (fun r j => crcStep r (m.read (a + j))) reg := List.foldl_map

@[simp] theorem updBytes_zero (data : Word) : updBytes 0 data = [] := rfl

/-- The low byte of `data` comes first, then the bytes of `data` shifted down. -/
theorem updBytes_succ (n : Nat) (data : Word) :
    updBytes (n + 1) data = data.setWidth 8 :: updBytes n (data >>> 8) := by
  have hrest (j : Nat) : data.extractLsb' (8 * (j + 1)) 8 = (data >>> 8).extractLsb' (8 * j) 8 := by
    ext k hk
    simp [Nat.mul_succ, Nat.add_comm, Nat.add_left_comm]
  have hfirst : data.extractLsb' (8 * 0) 8 = data.setWidth 8 := (BitVec.setWidth_eq_extractLsb' (by decide)).symm
  simp only [updBytes, List.range_succ_eq_map, List.map_cons, List.map_map, Function.comp_def, hfirst, hrest]

/-! ### The answer of every CRC command -/

/-- `Fin` undoes itself. -/
@[simp] theorem crcFin_crcFin (reg : Word) : crcFin (crcFin reg) = reg := by
  rw [crcFin, crcFin, BitVec.xor_assoc, BitVec.xor_self, BitVec.xor_zero]

@[simp] theorem State.crcAnswer_reg (s : State) (reg : Word) : (s.crcAnswer reg).crc.reg = reg := rfl

/-- A second answer leaves nothing of the first. -/
@[simp] theorem State.crcAnswer_crcAnswer (s : State) (reg reg' : Word) :
    (s.crcAnswer reg).crcAnswer reg' = s.crcAnswer reg' := rfl

/-! ### The commands (R92 to R96) -/

/-- Within its range `CRC.UPD` feeds its bytes. -/
theorem exec_crcUpd {count : Byte} (hlo : 1 ≤ count.toNat) (hhi : count.toNat ≤ 4) (data : Word) (s : State) :
    exec (.crcUpd count data) s = .next (s.crcAnswer (crcFeed s.crc.reg (updBytes count.toNat data))) := by
  have hcheck : byteCountOk count = true := by simp [byteCountOk, hlo, hhi]
  show execCrcUpd count data s = _
  rw [execCrcUpd, hcheck]
  rfl

/-- `CRC.UPD 1` is one step. -/
theorem exec_crcUpd_one (data : Word) (s : State) :
    exec (.crcUpd 1 data) s = .next (s.crcAnswer (crcStep s.crc.reg (data.setWidth 8))) := by
  rw [exec_crcUpd (by decide) (by decide), show (1 : Byte).toNat = 0 + 1 from rfl, updBytes_succ, updBytes_zero,
    crcFeed_cons, crcFeed_nil]

/-- Within a buffer that is kept `CRC.UPDO` feeds its range of OUT. -/
theorem exec_crcUpdo {off len : Word} {s : State} (hkept : s.lz.outDiscard = false)
    (hfit : off.toNat + len.toNat ≤ s.lz.outLen.toNat) :
    exec (.crcUpdo off len) s = .next (s.crcAnswer (crcFeed s.crc.reg (s.lz.out.bytes off.toNat len.toNat))) := by
  have hok : ¬ (s.lz.outDiscard || decide (s.lz.outLen.toNat < off.toNat + len.toNat)) = true := by
    rw [hkept, Bool.false_or, decide_eq_true_iff]
    exact Nat.not_lt.2 hfit
  exact congrArg _ (if_neg hok)

/-- Within FMEM `CRC.UPDF` feeds its range. -/
theorem exec_crcUpdf {off len : Word} {s : State} (hfit : off.toNat + len.toNat ≤ s.params.fltMemSize) :
    exec (.crcUpdf off len) s = .next (s.crcAnswer (crcFeed s.crc.reg (s.flt.mem.bytes off.toNat len.toNat))) :=
  congrArg _ (if_neg (Nat.not_lt.2 hfit))

/-- Settles O34: `Fin` undoes itself, so the response to a seed is the seed, and seeding with what was read gives back
what it was read from. -/
theorem crcSeedAndGet : Obligations.CrcSeedAndGet := by
  refine ⟨encodedAs_row _, fun value s => ⟨encodedAs_row _, ?_, rfl, fun u t h => ?_⟩⟩
  · show Host.Outcome.next ((s.setCrc (crcFin value)).respond .ok ((crcFin (crcFin value)).setWidth 64) 0) = _
    rw [crcFin_crcFin]
    rfl
  · cases h
    exact crcFin_crcFin s.crc.reg

/-- Settles O35: the first of `count` bytes is a `CRC.UPD 1` of its own, and the second answer hides the first. -/
theorem crcUpdFeedsLowBytes : Obligations.CrcUpdFeedsLowBytes := by
  intro count data s
  refine ⟨encodedAs_row _, fun hout => ?_, ?_, fun hlo hhi => ?_⟩
  · have hill : byteCountOk count = false := by
      rw [byteCountOk, Bool.and_eq_false_iff, decide_eq_false_iff_not, decide_eq_false_iff_not]
      omega
    exact exec_of_not_wellFormed hill
  · rintro rfl
    exact ⟨_, rfl, exec_crcUpd_one data s⟩
  · have hone : (1 : Byte) ≤ count := BitVec.le_def.2 (Nat.le_of_succ_le hlo)
    have hpred : (count - 1).toNat = count.toNat - 1 := BitVec.toNat_sub_of_le hone
    have hcount : count.toNat = (count - 1).toNat + 1 := by omega
    refine ⟨_, _, exec_crcUpd_one data s, exec_crcUpd (by omega) (by omega) _ _, ?_⟩
    rw [exec_crcUpd (by omega) hhi, hcount, updBytes_succ, crcFeed_cons, State.crcAnswer_reg,
      State.crcAnswer_crcAnswer]

/-- Settles O36: neither command moves a cursor, and `Mem.bytes` lists a range in increasing order. -/
theorem crcUpdoAndUpdfFeedRanges : Obligations.CrcUpdoAndUpdfFeedRanges := by
  refine fun off len s => ⟨encodedAs_row _, encodedAs_row _, fun hbad => congrArg _ (if_pos ?_),
    fun hkept hfit => ⟨_, crcFeed_bytes .., exec_crcUpdo hkept hfit⟩, fun hbad => congrArg _ (if_pos hbad),
    fun hfit => ⟨_, crcFeed_bytes .., exec_crcUpdf hfit⟩⟩
  rwa [Bool.or_eq_true, decide_eq_true_iff]

end Sys2Proof.Machine
end

section
/-! `HUF.DECODE` against a bit-by-bit walk of the tree (42_huffman.md R101, R103, R109): the walk in two parts, the
table as its first `depth` bits, and the decode as the whole of it. -/

namespace Sys2Proof.Machine

/-- A bit of a field: bit 0 is the last one read (R31). -/
theorem State.testBit_bits (s : State) (p : Nat) {n i : Nat} (hi : i < n) :
    (s.bits p n).testBit i = s.streamBit (p + (n - 1 - i)) := by
  induction n generalizing i with
  | zero => omega
  | succ n ih =>
    rw [State.bits]
    cases i with
    | zero => cases hb : s.streamBit (p + n) <;> simp [hb, Nat.testBit_zero]
    | succ i =>
      have hhalf : (2 * s.bits p n + (s.streamBit (p + n)).toNat) / 2 = s.bits p n := by
        have := Bool.toNat_le (s.streamBit (p + n))
        omega
      rw [Nat.testBit_succ, hhalf, ih (by omega)]
      congr 2
      omega

/-! ### The end of a walk -/

namespace WalkEnd

/-- An end of a walk or, where its bits ran out, the end of what continues it. -/
def orElse : WalkEnd → WalkEnd → WalkEnd
  | .outOfBits, w => w
  | .leaf sym used, _ => .leaf sym used
  | .unset used, _ => .unset used

/-- What becomes of a walk's end where there are only `n` bits. -/
def cut (n : Nat) : WalkEnd → WalkEnd
  | .leaf sym used => if used ≤ n then .leaf sym used else .outOfBits
  | .unset used => if used ≤ n then .unset used else .outOfBits
  | .outOfBits => .outOfBits

/-- The bits an end names are more than `lo` and at most `hi`. -/
def UsedIn (lo hi : Nat) : WalkEnd → Prop
  | .leaf _ used | .unset used => lo < used ∧ used ≤ hi
  | .outOfBits => True

/-- A walk to a leaf found a symbol of 27 bits, and one that goes on stands on one of `count` nodes. -/
def InUse (count node : Nat) : WalkEnd → Prop
  | .leaf sym _ => sym.toNat < 2 ^ 27
  | .unset _ => True
  | .outOfBits => node < count

/-- The table word of R103 for `d` bits along which the walk ends so; `node` is where it goes on. -/
def tableEntry (d node : Nat) : WalkEnd → Word
  | .leaf sym used => tableWord used sym
  | .unset _ => emptyWord
  | .outOfBits => tableWord (d + 1) (BitVec.ofNat 32 node)

theorem UsedIn.mono {w : WalkEnd} {lo lo' hi hi' : Nat} (h : w.UsedIn lo hi) (hlo : lo' ≤ lo) (hhi : hi ≤ hi') :
    w.UsedIn lo' hi' := by
  cases w with
  | leaf | unset => exact ⟨Nat.lt_of_le_of_lt hlo h.1, Nat.le_trans h.2 hhi⟩
  | outOfBits => trivial

/-- With bits enough nothing is cut. -/
theorem cut_of_usedIn {w : WalkEnd} {lo hi n : Nat} (h : w.UsedIn lo hi) (hn : hi ≤ n) : w.cut n = w := by
  cases w with
  | leaf | unset => exact if_pos (Nat.le_trans h.2 hn)
  | outOfBits => rfl

/-- With none the bits run out. -/
theorem cut_eq_outOfBits {w : WalkEnd} {lo hi : Nat} (h : w.UsedIn lo hi) : w.cut lo = .outOfBits := by
  cases w with
  | leaf | unset => exact if_neg (Nat.not_le.2 h.1)
  | outOfBits => rfl

/-- Cut where the continuation begins, the first part is left. -/
theorem cut_orElse {w w' : WalkEnd} {lo mid hi : Nat} (h : w.UsedIn lo mid) (h' : w'.UsedIn mid hi) :
    (w.orElse w').cut mid = w := by
  cases w with
  | leaf | unset => exact cut_of_usedIn h (Nat.le_refl mid)
  | outOfBits => exact cut_eq_outOfBits h'

end WalkEnd

/-! ### Walks in two parts -/

/-- The node a walk of `n` bits from node `j` comes to. -/
def nodeAfter (ns : List Node) (bit : Nat → Bool) : (n j used : Nat) → Nat
  | 0, j, _ => j
  | n + 1, j, used => nodeAfter ns bit n ((nodeAt ns j).branch (bit used)).toNat (used + 1)

section Walks

variable (ns : List Node) (bit : Nat → Bool)

/-- A walk of `n + m` bits is one of `n` and, where that runs out of bits, one of `m` from the node it came to. -/
theorem treeWalk_add (n m j used : Nat) :
    treeWalk ns bit (n + m) j used =
      (treeWalk ns bit n j used).orElse (treeWalk ns bit m (nodeAfter ns bit n j used) (used + n)) := by
  induction n generalizing j used with
  | zero => rw [Nat.zero_add]; rfl
  | succ n ih =>
    rw [Nat.succ_add, treeWalk, treeWalk, nodeAfter]
    split
    · rfl
    split
    · rfl
    · rw [ih, Nat.add_right_comm used 1 n]
      rfl

/-- A walk uses at least one bit, and no more than it has. -/
theorem treeWalk_usedIn (n j used : Nat) : (treeWalk ns bit n j used).UsedIn used (used + n) := by
  induction n generalizing j used with
  | zero => trivial
  | succ n ih =>
    rw [treeWalk]
    split
    · exact ⟨by omega, by omega⟩
    split
    · exact ⟨by omega, by omega⟩
    · exact (ih _ (used + 1)).mono (by omega) (by omega)

/-- The end a walk of `n` bits comes to decides that of every other, shorter or longer. -/
theorem treeWalk_eq_cut {n j used : Nat} (h : treeWalk ns bit n j used ≠ .outOfBits) (rem : Nat) :
    treeWalk ns bit rem j used = (treeWalk ns bit n j used).cut (used + rem) := by
  rcases Nat.le_total n rem with hle | hle
  · obtain ⟨m, rfl⟩ := Nat.exists_eq_add_of_le hle
    rw [WalkEnd.cut_of_usedIn (treeWalk_usedIn ns bit n j used) (by omega), treeWalk_add]
    cases hw : treeWalk ns bit n j used with
    | leaf | unset => rfl
    | outOfBits => exact absurd hw h
  · obtain ⟨m, rfl⟩ := Nat.exists_eq_add_of_le hle
    rw [treeWalk_add, WalkEnd.cut_orElse (treeWalk_usedIn ..) (treeWalk_usedIn ..)]

/-- A walk that has run out of `n` bits has with fewer. -/
theorem treeWalk_outOfBits_of_le {n j used : Nat} (h : treeWalk ns bit n j used = .outOfBits) {rem : Nat}
    (hle : rem ≤ n) : treeWalk ns bit rem j used = .outOfBits := by
  obtain ⟨m, rfl⟩ := Nat.exists_eq_add_of_le hle
  rw [← WalkEnd.cut_orElse (treeWalk_usedIn ns bit rem j used) (treeWalk_usedIn ..), ← treeWalk_add, h]
  rfl

/-- In a tree every walk keeps to the nodes in use, and finds symbols of 27 bits (R101). -/
theorem treeWalk_inUse (hns : ∀ j, j < ns.length → NodeOk ns.length j (nodeAt ns j)) (n : Nat) {j : Nat} (used : Nat)
    (hj : j < ns.length) (hleaf : (nodeAt ns j).isLeaf = false) :
    (treeWalk ns bit n j used).InUse ns.length (nodeAfter ns bit n j used) := by
  induction n generalizing j used with
  | zero => exact hj
  | succ n ih =>
    rw [treeWalk, nodeAfter]
    rcases (hns j hj).branch hleaf (bit used) with hempty | ⟨-, hlt⟩
    · rw [if_pos hempty]
      trivial
    split
    · trivial
    split
    · next hchild => exact ((hns _ hlt).leaf hchild).2
    · next hchild => exact ih (used + 1) hlt (Bool.eq_false_of_not_eq_true hchild)

/-! ### The table (R103) -/

/-- At a leaf the table's walk ends with the bits behind it. -/
theorem tableWalk_of_leaf {d p left j : Nat} (h : (nodeAt ns j).isLeaf = true) :
    tableWalk ns d p left j = tableWord (d - left) (nodeAt ns j).b0 := by
  cases left <;> exact if_pos h

/-- The table word of the bits `p` says how the walk along them ends: the symbol and its length, no code, or the node it
comes to, where it goes on. -/
theorem tableWalk_eq {d p left j used : Nat} (hd : used + left = d)
    (hbit : ∀ i < left, p.testBit i = bit (d - 1 - i)) (hleaf : (nodeAt ns j).isLeaf = false) :
    tableWalk ns d p left j = (treeWalk ns bit left j used).tableEntry d (nodeAfter ns bit left j used) := by
  induction left generalizing j used with
  | zero => exact if_neg (Bool.eq_false_iff.1 hleaf)
  | succ left ih =>
    rw [tableWalk, if_neg (Bool.eq_false_iff.1 hleaf), treeWalk, nodeAfter, hbit left (by omega),
      show d - 1 - left = used by omega]
    dsimp only
    split
    · rfl
    split
    · next hchild => rw [tableWalk_of_leaf ns hchild, show d - left = used + 1 by omega]; rfl
    · next hchild => exact ih (by omega) (fun i hi => hbit i (by omega)) (Bool.eq_false_of_not_eq_true hchild)

end Walks

/-! ### The decode (R109) -/

/-- A state that differs from one moved by `n` at most in the buffers is such a state moved by `n`. -/
theorem SameButBuffers.eq_advance {s t : State} {n : Nat} (h : SameButBuffers (s.advance n) t) :
    ∃ v, SameButBuffers s v ∧ t = v.advance n :=
  ⟨s.withBuffers t.bs, s.withBuffers_same t.bs, h⟩

/-- Two moves are one. -/
theorem State.advance_advance (s : State) (m n : Nat) : (s.advance m).advance n = s.advance (m + n) := by
  rw [State.advance_eq s, State.advance, State.setBs_bs, ← BitVec.ofNat_add, Nat.add_assoc, State.advance_eq]
  rfl

/-- The bits ahead of the stream's position. -/
abbrev State.bitsAhead (s : State) (k : Nat) : Bool := s.streamBit (s.bs.pos.toNat + k)

/-- What `HUF.DECODE` answers where the walk along the stream ends so (R109), `d` the table's depth: before the walk has
passed the table nothing is consumed but by a symbol, and fewer than `d` bits with no symbol in them over-read. -/
def State.decodeAnswer (v : State) (d : Nat) : WalkEnd → State
  | .leaf sym used => (v.advance used).respond .ok (sym.setWidth 64) (BitVec.ofNat 32 used)
  | .unset used =>
    if v.remaining < d then v.overRead else (v.advance (if used ≤ d then 0 else used)).fail .huffInvalidCode
  | .outOfBits => (v.advance (if v.remaining < d then 0 else v.remaining)).overRead

/-- The walk of the decode, begun beyond the table, is the tree's walk along the bits ahead. -/
theorem State.decodeWalk_eq {s : State} (hp : s.params.Legal) (hs : s.StreamOk) (ns : List Node) {d : Nat}
    (hd : d ≤ s.remaining) (rem j used : Nat) (t : State) (hrem : used + rem = s.remaining) (hused : d ≤ used)
    (hsame : SameButBuffers (s.advance used) t) (ht : t.BuffersOk) :
    ∃ v, SameButBuffers s v ∧
      State.decodeWalk ns rem j used t = v.decodeAnswer d (treeWalk ns s.bitsAhead rem j used) := by
  induction rem generalizing j used t with
  | zero =>
    obtain ⟨v, hv, rfl⟩ := hsame.eq_advance
    refine ⟨v, hv, ?_⟩
    rw [State.decodeWalk, treeWalk, State.decodeAnswer, hv.remaining, if_neg (Nat.not_lt.2 hd), ← hrem]
    rfl
  | succ rem ih =>
    have hparams : t.params = s.params := ((sameButBuffers_iff _ _).1 hsame).1
    have hpt : t.params.Legal := hparams ▸ hp
    have hpos : t.bs.pos.toNat = s.bs.pos.toNat + used := by
      rw [← s.advance_pos used hs (by omega)]
      simp [(sameButBuffers_iff _ _).1 hsame]
    have hts : t.StreamOk := hsame.streamOk (s.advance_streamOk used hs (by omega))
    have hbit : ((t.extract t.bs.pos.toNat 1).1 == 1) = s.bitsAhead used := by
      rw [t.extract_fst _ hpt ht (by decide), t.bits_one, hsame.streamBit, hpos]
      show (BitVec.ofNat 64 (s.streamBit (s.bs.pos.toNat + used)).toNat == 1) = s.streamBit (s.bs.pos.toNat + used)
      cases s.streamBit (s.bs.pos.toNat + used) <;> rfl
    have hnext : SameButBuffers (s.advance (used + 1)) ((t.extract t.bs.pos.toNat 1).2.advance 1) :=
      s.advance_advance used 1 ▸ (hsame.trans (t.extract_same _ 1)).advance 1
    rw [State.decodeWalk, treeWalk, hbit]
    obtain ⟨v, hv, hvt⟩ := hnext.eq_advance
    split
    · refine ⟨v, hv, ?_⟩
      rw [hvt, State.decodeAnswer, hv.remaining, if_neg (Nat.not_lt.2 hd), if_neg (by omega)]
    split
    · exact ⟨v, hv, by rw [hvt, State.decodeAnswer]⟩
    · exact ih _ (used + 1) _ (by omega) (by omega) hnext
        (State.advance_buffersOk _ _ (t.extract_buffersOk _ 1 hpt ht (State.pos_word_lt hts)))

/-- The state with the buffers that a peek of the next `depth` bits leaves. -/
def State.peeked (s : State) (h : Slot) : State := (s.extract s.bs.pos.toNat h.depth.toNat).2

/-- The table entry those bits look up. -/
def State.entryAhead (s : State) (h : Slot) : Word :=
  h.table.getD (s.extract s.bs.pos.toNat h.depth.toNat).1.toNat emptyWord

theorem State.peeked_same (s : State) (h : Slot) : SameButBuffers s (s.peeked h) := s.extract_same _ _

@[simp] theorem State.peeked_remaining (s : State) (h : Slot) : (s.peeked h).remaining = s.remaining :=
  (s.peeked_same h).remaining

/-- The decode by the entry looked up. -/
theorem State.decodeSymbol_eq_entry (s : State) (h : Slot) :
    s.decodeSymbol h =
      if ((s.entryAhead h).extractLsb' 27 5).toNat ≤ h.depth.toNat then
        if (s.peeked h).remaining < ((s.entryAhead h).extractLsb' 27 5).toNat then (s.peeked h).overRead
        else
          ((s.peeked h).advance ((s.entryAhead h).extractLsb' 27 5).toNat).respond .ok
            (((s.entryAhead h).extractLsb' 0 27).setWidth 64)
            (BitVec.ofNat 32 ((s.entryAhead h).extractLsb' 27 5).toNat)
      else if (s.peeked h).remaining < h.depth.toNat then (s.peeked h).overRead
      else if s.entryAhead h = emptyWord then (s.peeked h).fail .huffInvalidCode
      else
        State.decodeWalk h.node ((s.peeked h).advance h.depth.toNat).remaining
          ((s.entryAhead h).extractLsb' 0 27).toNat h.depth.toNat ((s.peeked h).advance h.depth.toNat) := rfl

section Lookup

variable {s : State} {h : Slot} {k j : Nat} {sym : Word}

/-- A direct entry answers as a walk that finds its symbol. -/
theorem State.decodeSymbol_of_direct (he : s.entryAhead h = tableWord k sym) (hk : k ≤ h.depth.toNat)
    (hd : h.depth.toNat < 31) (hsym : sym.toNat < 2 ^ 27) :
    s.decodeSymbol h = (s.peeked h).decodeAnswer h.depth.toNat ((WalkEnd.leaf sym k).cut s.remaining) := by
  have hval : ((tableWord k sym).extractLsb' 0 27).setWidth 64 = sym.setWidth 64 := by
    apply BitVec.eq_of_toNat_eq
    rw [BitVec.toNat_setWidth, BitVec.toNat_setWidth, tableWord_val k sym (by omega) hsym]
  rw [State.decodeSymbol_eq_entry, he, tableWord_len k sym (by omega) hsym, if_pos hk, hval, State.peeked_remaining,
    WalkEnd.cut]
  rcases Nat.lt_or_ge s.remaining k with hrem | hrem
  · rw [if_pos hrem, if_neg (by omega), State.decodeAnswer, State.peeked_remaining, if_pos (by omega),
      State.advance_zero]
  · rw [if_neg (by omega), if_pos hrem]
    rfl

/-- The entry `EMPTY` answers as a walk that meets an unset branch within the table. -/
theorem State.decodeSymbol_of_empty (he : s.entryAhead h = emptyWord) (hk : k ≤ h.depth.toNat)
    (hd : h.depth.toNat < 31) :
    s.decodeSymbol h = (s.peeked h).decodeAnswer h.depth.toNat ((WalkEnd.unset k).cut s.remaining) := by
  rw [State.decodeSymbol_eq_entry, he, emptyWord_len, if_neg (by omega), if_pos rfl, State.peeked_remaining,
    WalkEnd.cut]
  rcases Nat.lt_or_ge s.remaining h.depth.toNat with hrem | hrem
  · rw [if_pos hrem]
    split <;> simp [State.decodeAnswer, hrem]
  · rw [if_neg (by omega), if_pos (by omega), State.decodeAnswer, State.peeked_remaining, if_neg (by omega), if_pos hk,
      State.advance_zero]

/-- An overflow entry is an over-read where fewer than `depth` bits remain. -/
theorem State.decodeSymbol_of_short (he : s.entryAhead h = tableWord (h.depth.toNat + 1) (BitVec.ofNat 32 j))
    (hd : h.depth.toNat < 30) (hj : j < 2 ^ 27) (hrem : s.remaining < h.depth.toNat) :
    s.decodeSymbol h = (s.peeked h).decodeAnswer h.depth.toNat .outOfBits := by
  have hlen := tableWord_len (h.depth.toNat + 1) (BitVec.ofNat 32 j) (by omega) (by rw [BitVec.toNat_ofNat]; omega)
  rw [State.decodeSymbol_eq_entry, he, hlen, if_neg (by omega), State.decodeAnswer, State.peeked_remaining, if_pos hrem,
    if_pos hrem, State.advance_zero]

/-- Otherwise its `depth` bits are consumed and the walk goes on from its node. -/
theorem State.decodeSymbol_of_overflow (he : s.entryAhead h = tableWord (h.depth.toNat + 1) (BitVec.ofNat 32 j))
    (hd : h.depth.toNat < 30) (hj : j < 2 ^ 27) (hrem : h.depth.toNat ≤ s.remaining) :
    s.decodeSymbol h =
      State.decodeWalk h.node ((s.peeked h).advance h.depth.toNat).remaining j h.depth.toNat
        ((s.peeked h).advance h.depth.toNat) := by
  have hjw : (BitVec.ofNat 32 j).toNat = j := by
    rw [BitVec.toNat_ofNat]
    omega
  have hlen := tableWord_len (h.depth.toNat + 1) (BitVec.ofNat 32 j) (by omega) (by omega)
  have hval := tableWord_val (h.depth.toNat + 1) (BitVec.ofNat 32 j) (by omega) (by omega)
  have hne : tableWord (h.depth.toNat + 1) (BitVec.ofNat 32 j) ≠ emptyWord := fun heq => by
    rw [heq, emptyWord_len] at hlen
    omega
  rw [State.decodeSymbol_eq_entry, he, hlen, if_neg (by omega), State.peeked_remaining, if_neg (by omega), if_neg hne,
    hval, hjw]

end Lookup

/-- The entry looked up is that of the bits ahead. -/
theorem State.entryAhead_eq {s : State} {h : Slot} (hp : s.params.Legal) (hb : s.BuffersOk)
    (hd : h.depth.toNat ≤ 32) (hroot : (nodeAt h.node 0).isLeaf = false)
    (htable : h.table = buildTable h.node h.depth.toNat) :
    s.entryAhead h =
      (treeWalk h.node s.bitsAhead h.depth.toNat 0 0).tableEntry h.depth.toNat
        (nodeAfter h.node s.bitsAhead h.depth.toNat 0 0) := by
  rw [State.entryAhead, s.extract_toNat _ hp hb hd, List.getD_eq_getElem?_getD, htable,
    buildTable_getElem? _ _ _ (s.bits_lt _ _)]
  exact tableWalk_eq _ _ (Nat.zero_add _) (fun i hi => s.testBit_bits _ hi) hroot

/-- The decode answers what the walk of the slot's tree along the bits ahead comes to. -/
theorem State.decodeSymbol_eq {s : State} {p : Params} {h : Slot} (hp : s.params.Legal) (hs : s.StreamOk)
    (hb : s.BuffersOk) (hlegal : p.Legal) (hslot : SlotOk p h) (hvalid : h.valid = true) :
    ∃ v, SameButBuffers s v ∧
      s.decodeSymbol h = v.decodeAnswer h.depth.toNat (treeWalk h.node s.bitsAhead s.remaining 0 0) := by
  obtain ⟨-, hbuilt⟩ := hslot
  obtain ⟨-, hdepth, hnode, hcap, -, ⟨hnodes, hroot⟩, htable⟩ := hbuilt hvalid
  obtain ⟨-, ⟨-, htd⟩, -, ⟨-, hcap27⟩, -⟩ := hlegal
  have hd : h.depth.toNat ≤ 16 := by omega
  have hentry := State.entryAhead_eq hp hb (by omega) hroot htable
  have hend := treeWalk_inUse h.node s.bitsAhead hnodes h.depth.toNat 0 hnode hroot
  have hused := treeWalk_usedIn h.node s.bitsAhead h.depth.toNat 0 0
  have hcut := treeWalk_eq_cut h.node s.bitsAhead (n := h.depth.toNat) (j := 0) (used := 0)
  have hsame : SameButBuffers s (s.peeked h) := s.peeked_same h
  rw [Nat.zero_add] at hused
  cases hw : treeWalk h.node s.bitsAhead h.depth.toNat 0 0 with
  | leaf sym k =>
    rw [hw] at hentry hend hused hcut
    rw [State.decodeSymbol_of_direct hentry hused.2 (by omega) hend, hcut nofun, Nat.zero_add]
    exact ⟨_, hsame, rfl⟩
  | unset k =>
    rw [hw] at hentry hused hcut
    rw [State.decodeSymbol_of_empty hentry hused.2 (by omega), hcut nofun, Nat.zero_add]
    exact ⟨_, hsame, rfl⟩
  | outOfBits =>
    rw [hw] at hentry hend
    have hj := Nat.lt_of_lt_of_le hend (show h.node.length ≤ 2 ^ 27 by omega)
    rcases Nat.lt_or_ge s.remaining h.depth.toNat with hrem | hrem
    · rw [State.decodeSymbol_of_short hentry (by omega) hj hrem,
        treeWalk_outOfBits_of_le h.node s.bitsAhead hw (Nat.le_of_lt hrem)]
      exact ⟨_, hsame, rfl⟩
    · have hrest := treeWalk_add h.node s.bitsAhead h.depth.toNat (s.remaining - h.depth.toNat) 0 0
      rw [Nat.add_sub_of_le hrem, hw, Nat.zero_add] at hrest
      have hnext := hsame.advance h.depth.toNat
      rw [State.decodeSymbol_of_overflow hentry (by omega) hj hrem, hrest, hnext.remaining,
        s.advance_remaining _ hs hrem]
      exact State.decodeWalk_eq hp hs h.node hrem _ _ _ _ (by omega) (Nat.le_refl _) hnext
        (State.advance_buffersOk _ _ (s.extract_buffersOk _ _ hp hb (State.pos_word_lt hs)))

/-- `HUF.DECODE` on a built slot and an open stream free of error: the walk of the slot's tree decides. -/
theorem exec_hufDecode_walk {u : Byte} {s : State} {p : Params} (hp : s.params.Legal) (hs : s.StreamOk)
    (hb : s.BuffersOk) (hu : u.toNat < 8) (hlegal : p.Legal) (hslot : SlotOk p (s.slot u.toNat))
    (hvalid : (s.slot u.toNat).valid = true) (ho : s.bs.isOpen = true) (he : s.bs.err = false) :
    ∃ v, SameButBuffers s v ∧
      exec (.hufDecode u) s = .next (v.decodeAnswer (s.slot u.toNat).depth.toNat (s.walk u.toNat)) := by
  obtain ⟨v, hv, heq⟩ := State.decodeSymbol_eq hp hs hb hlegal hslot hvalid
  refine ⟨v, hv, ?_⟩
  rw [exec_hufDecode hu hvalid, s.onStream_ready _ _ ho he, heq]
  rfl

/-- An invalid slot, or no open stream (R100). -/
theorem exec_hufDecode_notReady {u : Byte} {s : State} (hu : u.toNat < 8)
    (h : (s.slot u.toNat).valid = false ∨ s.bs.isOpen = false) :
    exec (.hufDecode u) s = .next (s.respond .notReady 0 0) := by
  cases hvalid : (s.slot u.toNat).valid with
  | false =>
    have hslot : slotOk u = true := decide_eq_true hu
    show execHufDecode u s = _
    rw [execHufDecode, hslot, hvalid]
    rfl
  | true =>
    have hclosed : s.bs.isOpen = false := h.resolve_left fun hno => by
      rw [hvalid] at hno
      cases hno
    rw [exec_hufDecode hu hvalid, s.onStream_closed _ _ hclosed]
    rfl

/-- Settles O41: the table is the first `depth` bits of the walk, and what the decode answers is by cases of its end. -/
theorem decodeEqualsTreeWalk : Obligations.DecodeEqualsTreeWalk := by
  intro u s
  refine ⟨encodedAs_row _, fun hu => exec_of_not_wellFormed (decide_eq_false (Nat.not_lt.2 hu)),
    exec_hufDecode_notReady, fun hu hvalid ho he => ?_, ?_⟩
  · rw [exec_hufDecode hu hvalid, s.onStream_err _ _ ho he]
  rintro ⟨⟨hp, -⟩, hs, hb, -, -, hslots⟩ hu hvalid ho he d rfl
  obtain ⟨v, hv, hexec⟩ := exec_hufDecode_walk hp hs hb hu hp (hslots _ hu) hvalid ho he
  have hpos : v.bs.pos = s.bs.pos := by simp [(sameButBuffers_iff _ _).1 hv]
  refine ⟨fun sym used hw => ⟨v, hv, ?_⟩, fun used hw hrem => ⟨v, hv, ?_⟩, ?_, fun hw => ⟨v, hv, ?_⟩⟩
  · rw [hexec, hw, State.decodeAnswer, State.advance_eq, hpos]
  · rw [hexec, hw, State.decodeAnswer, hv.remaining, if_neg (Nat.not_lt.2 hrem), State.advance_eq, hpos]
    rfl
  · rintro ⟨used, hw⟩ hrem
    refine ⟨v, hv, ?_⟩
    rw [hexec, hw, State.decodeAnswer, hv.remaining, if_pos hrem]
    rfl
  · have hend : s.bs.pos.toNat + (if s.remaining < (s.slot u.toNat).depth.toNat then 0 else s.remaining) =
        if s.remaining < (s.slot u.toNat).depth.toNat then s.bs.pos.toNat else s.bitlen := by
      split
      · rfl
      · exact Nat.add_sub_of_le hs.1
    rw [hexec, hw, State.decodeAnswer, hv.remaining, State.advance_eq, hpos, hend]
    rfl

end Sys2Proof.Machine
end

section
/-! The staging memory, the slots and their readers, case by case (42_huffman.md R104, R105, R107, R108, R110 to R112),
and the nodes a build can need (R102). -/

namespace Sys2Proof.Machine

/-! ### Slots (R19) -/

/-- Writing a slot with what it holds changes nothing. -/
@[simp] theorem State.setSlot_slot (s : State) (t : Nat) : s.setSlot t (s.slot t) = s := by
  have hslots : s.huf.slots.setIfInBounds t (s.slot t) = s.huf.slots := by
    ext u hu : 1
    rw [Vector.getElem_setIfInBounds]
    split
    · next h => subst h; simp [State.slot, hu]
    · rfl
  rw [State.setSlot, hslots]

/-! ### Freeing and reading a slot (R110 to R112) -/

section Slots

variable {slot : Byte} (index : Word) (s : State)

theorem exec_hufFree (hslot : slot.toNat < 8) :
    exec (.hufFree slot) s = .next ((s.setSlot slot.toNat Slot.free).respond .ok 0 0) := by
  have hcheck : slotOk slot = true := decide_eq_true hslot
  show execHufFree slot s = _
  rw [execHufFree, hcheck]
  rfl

theorem exec_hufRdtab (hslot : slot.toNat < 8) :
    exec (.hufRdtab slot index) s =
      .next
        (if !(s.slot slot.toNat).valid then s.fail .notReady
        else if 2 ^ (s.slot slot.toNat).depth.toNat ≤ index.toNat then s.fail .badCommand
        else s.respond .ok (((s.slot slot.toNat).table.getD index.toNat emptyWord).setWidth 64) 0) := by
  have hcheck : slotOk slot = true := decide_eq_true hslot
  show execHufRdtab slot index s = _
  rw [execHufRdtab, hcheck]
  rfl

theorem exec_hufRdnode (hslot : slot.toNat < 8) :
    exec (.hufRdnode slot index) s =
      .next
        (if !(s.slot slot.toNat).valid then s.fail .notReady
        else if (s.slot slot.toNat).nNodes.toNat ≤ index.toNat then s.fail .badCommand
        else
          s.respond .ok ((nodeAt (s.slot slot.toNat).node index.toNat).b0.setWidth 64)
            (nodeAt (s.slot slot.toNat).node index.toNat).b1) := by
  have hcheck : slotOk slot = true := decide_eq_true hslot
  show execHufRdnode slot index s = _
  rw [execHufRdnode, hcheck]
  rfl

end Slots

/-- Settles O44: a free slot of a legal state is already what `HUF.FREE` leaves. -/
theorem hufFreeAndReaders : Obligations.HufFreeAndReaders := by
  intro slot index s
  refine ⟨encodedAs_row _, encodedAs_row _, encodedAs_row _, fun h8 => ?_, fun hslot => ⟨?_, fun hs hv => ?_,
    fun hv => ⟨?_, ?_⟩, fun hv => ⟨fun hi => ?_, fun hi => ?_, fun hi e he => ?_, fun hi nd hnd => ?_⟩⟩⟩
  · have hno : slotOk slot = false := decide_eq_false (Nat.not_lt.2 h8)
    exact ⟨exec_of_not_wellFormed hno, exec_of_not_wellFormed hno, exec_of_not_wellFormed hno⟩
  · exact ⟨Slot.free, exec_hufFree s hslot, rfl, rfl, rfl, rfl⟩
  · rw [exec_hufFree s hslot, ← (hs _ hslot).1 hv, State.setSlot_slot]
  · rw [exec_hufRdtab index s hslot, hv]
    rfl
  · rw [exec_hufRdnode index s hslot, hv]
    rfl
  · rw [exec_hufRdtab index s hslot, hv, if_pos hi]
    rfl
  · rw [exec_hufRdnode index s hslot, hv, if_pos hi]
    rfl
  · rw [exec_hufRdtab index s hslot, hv, if_neg (Nat.not_le.2 hi), List.getD_eq_getElem?_getD, he]
    rfl
  · rw [exec_hufRdnode index s hslot, hv, if_neg (Nat.not_le.2 hi), nodeAt, List.getD_eq_getElem?_getD, hnd]
    rfl

/-! ### Staging (R104) -/

/-- Settles O38: the cell written reads back, and no other changes. -/
theorem hufStageWritesOneEntry : Obligations.HufStageWritesOneEntry := by
  intro index length code symbol s
  refine ⟨encodedAs_row _, fun hill => exec_of_not_wellFormed ?_, fun hwf hindex hlen => ?_⟩
  · show (decide (index.toNat < s.params.hufStageSize) && decide (length.toNat ≤ 31)) = false
    rw [Bool.and_eq_false_iff, decide_eq_false_iff_not, decide_eq_false_iff_not]
    omega
  · refine ⟨_, ?_, fun j => Cells.read_write _ _ index.toNat j ⟨length, code, symbol⟩ hwf⟩
    have hcheck : (stageIndexOk s.params index && codeLengthOk length) = true := by
      simp [stageIndexOk, codeLengthOk, hindex, hlen]
    show execHufStage index length code symbol s = _
    rw [execHufStage, hcheck]
    rfl

/-! ### Builds (R105, R107, R108) -/

section Builds

variable {slot : Byte} {count : Half} {maxlen : Word} {s : State}

/-- With an operand out of range both builds are refused. -/
theorem exec_build_of_operands (h : buildOperandsOk s.params slot count maxlen = false) :
    exec (.hufBuildl slot count maxlen) s = .next (s.fail .badCommand) ∧
      exec (.hufBuildc slot count maxlen) s = .next (s.fail .badCommand) :=
  ⟨exec_of_not_wellFormed h, exec_of_not_wellFormed h⟩

/-- Past its operand check `HUF.BUILDL` inserts the canonical codes. -/
theorem exec_hufBuildl (h : buildOperandsOk s.params slot count maxlen = true) :
    exec (.hufBuildl slot count maxlen) s =
      .next
        (s.finishBuild slot.toNat maxlen.toNat
          (canonicalBuild s.params.hufNodeCap (stagedEntries s.huf.stage count.toNat) maxlen.toNat)) := by
  show execHufBuildl slot count maxlen s = _
  rw [execHufBuildl, h]
  rfl

/-- `HUF.BUILDC` checks the staged lengths before it inserts. -/
theorem exec_hufBuildc_of_lengths (h : stagedLengthsOk maxlen.toNat (stagedEntries s.huf.stage count.toNat) = false) :
    exec (.hufBuildc slot count maxlen) s = .next (s.fail .badCommand) := by
  show execHufBuildc slot count maxlen s = _
  rw [execHufBuildc, h]
  exact congrArg _ (ite_self _)

/-- Past both checks it inserts the explicit codes. -/
theorem exec_hufBuildc (h : buildOperandsOk s.params slot count maxlen = true)
    (hlen : stagedLengthsOk maxlen.toNat (stagedEntries s.huf.stage count.toNat) = true) :
    exec (.hufBuildc slot count maxlen) s =
      .next
        (s.finishBuild slot.toNat maxlen.toNat
          (explicitBuild s.params.hufNodeCap (stagedEntries s.huf.stage count.toNat))) := by
  show execHufBuildc slot count maxlen s = _
  rw [execHufBuildc, h, hlen]
  rfl

/-- All `HUF.BUILDL` can do. -/
theorem exec_hufBuildl_cases {t : State} (h : exec (.hufBuildl slot count maxlen) s = .next t) :
    t = s.fail .badCommand ∨
      buildOperandsOk s.params slot count maxlen = true ∧
        t = s.finishBuild slot.toNat maxlen.toNat
          (canonicalBuild s.params.hufNodeCap (stagedEntries s.huf.stage count.toNat) maxlen.toNat) := by
  cases hops : buildOperandsOk s.params slot count maxlen with
  | false =>
    cases (exec_build_of_operands hops).1.symm.trans h
    exact .inl rfl
  | true =>
    cases (exec_hufBuildl hops).symm.trans h
    exact .inr ⟨rfl, rfl⟩

/-- All `HUF.BUILDC` can do. -/
theorem exec_hufBuildc_cases {t : State} (h : exec (.hufBuildc slot count maxlen) s = .next t) :
    t = s.fail .badCommand ∨
      buildOperandsOk s.params slot count maxlen = true ∧
        stagedLengthsOk maxlen.toNat (stagedEntries s.huf.stage count.toNat) = true ∧
        t = s.finishBuild slot.toNat maxlen.toNat
          (explicitBuild s.params.hufNodeCap (stagedEntries s.huf.stage count.toNat)) := by
  cases hlen : stagedLengthsOk maxlen.toNat (stagedEntries s.huf.stage count.toNat) with
  | false =>
    cases (exec_hufBuildc_of_lengths hlen).symm.trans h
    exact .inl rfl
  | true =>
    cases hops : buildOperandsOk s.params slot count maxlen with
    | false =>
      cases (exec_build_of_operands hops).2.symm.trans h
      exact .inl rfl
    | true =>
      cases (exec_hufBuildc hops hlen).symm.trans h
      exact .inr ⟨rfl, rfl, rfl⟩

end Builds

/-- The numbers a built slot holds fit its registers. -/
theorem builtSlot_toNat {p : Params} {maxlen : Nat} {ns : List Node} (hlegal : p.Legal) (h31 : maxlen ≤ 31)
    (hns : NodesOk p.hufNodeCap ns) :
    (builtSlot p maxlen ns).maxLen.toNat = maxlen ∧
      (builtSlot p maxlen ns).depth.toNat = min maxlen p.tableDepth ∧
      (builtSlot p maxlen ns).nNodes.toNat = ns.length := by
  obtain ⟨-, -, -, ⟨-, hcap⟩, -⟩ := hlegal
  obtain ⟨-, hle, -⟩ := hns
  refine ⟨?_, ?_, ?_⟩
  all_goals
    simp only [builtSlot, BitVec.toNat_ofNat]
    omega

/-- Settles O39: the checks come first, and the end of a build writes the slot and the response (R108). -/
theorem buildsReplaceTheSlot : Obligations.BuildsReplaceTheSlot := by
  intro slot count maxlen s
  refine ⟨⟨encodedAs_row _, encodedAs_row _⟩, fun hill => ?_, fun j hj hlen => ?_, ?_⟩
  · refine exec_build_of_operands (Bool.eq_false_iff.2 fun hok => ?_)
    rw [buildOperandsOk_iff, hufTables] at hok
    omega
  · refine exec_hufBuildc_of_lengths (Bool.eq_false_iff.2 fun hok => ?_)
    have := (stagedLengthsOk_iff _ _ _).1 hok j hj
    omega
  · intro hlegal hslot hcount h1 h31 i r hi
    have hops : buildOperandsOk s.params slot count maxlen = true := (buildOperandsOk_iff ..).2 ⟨hslot, hcount, h1, h31⟩
    obtain ⟨hexec, hns⟩ : exec i s = .next (s.finishBuild slot.toNat maxlen.toNat r) ∧
        ∀ ns, r = .ok ns → NodesOk s.params.hufNodeCap ns := by
      obtain ⟨rfl, rfl⟩ | ⟨rfl, hlen, rfl⟩ := hi
      · exact ⟨exec_hufBuildl hops, canonicalBuild_nodesOk hlegal _ _ _⟩
      · have hlen := (stagedLengthsOk_iff _ _ _).2 hlen
        exact ⟨exec_hufBuildc hops hlen, explicitBuild_nodesOk hlegal _ _ _ hlen⟩
    refine ⟨?_, ?_⟩
    · rintro st rfl
      exact ⟨Slot.free, hexec, rfl, rfl, rfl, rfl⟩
    · rintro ns rfl
      obtain ⟨hmax, hdepth, hnodes⟩ := builtSlot_toNat hlegal h31 (hns ns rfl)
      refine ⟨builtSlot s.params maxlen.toNat ns, ?_, rfl, hmax, hdepth, hnodes, rfl, ?_⟩
      · rw [hexec, State.finishBuild_ok]
        congr 2
        · rw [← hnodes, BitVec.ofNat_toNat]
        · rw [← hdepth, BitVec.ofNat_toNat]
      · rw [hdepth]
        exact length_buildTable _ _

/-! ### The nodes a build needs (R102) -/

/-- What an insertion that can bring the nodes to `bound` at most may come to, in a slot for `cap` nodes: so many, or a
failure, `AllocFail` only where they do not fit. -/
def WithinNodes {α : Type} (cap bound : Nat) (nodes : α → List Node) : Except Status α → Prop
  | .error st => st = .allocFail → cap < bound
  | .ok a => (nodes a).length ≤ bound

theorem WithinNodes.mono {α : Type} {cap bound bound' : Nat} {nodes : α → List Node} {r : Except Status α}
    (h : WithinNodes cap bound nodes r) (hle : bound ≤ bound') : WithinNodes cap bound' nodes r := by
  cases r with
  | error st => exact fun hst => Nat.lt_of_lt_of_le (h hst) hle
  | ok a => exact Nat.le_trans h hle

/-- A walk allocates at most a node for each bit. -/
theorem insertWalk_withinNodes (cap : Nat) (code : Word) (i j : Nat) (ns : List Node) :
    WithinNodes cap (ns.length + i) Prod.snd (insertWalk cap code i j ns) := by
  induction i generalizing j ns with
  | zero => exact Nat.le_refl _
  | succ i ih =>
    rw [insertWalk]
    split
    · exact nofun
    dsimp only
    split
    · split
      · exact fun _ => by omega
      · refine (ih _ _).mono ?_
        simp only [List.length_append, List.length_set, List.length_singleton]
        omega
    · exact (ih _ _).mono (by omega)

theorem insertCode_withinNodes (cap : Nat) (code : Word) (length : Nat) (symbol : Word) (ns : List Node) :
    WithinNodes cap (ns.length + length) id (insertCode cap code length symbol ns) := by
  have hwalk := insertWalk_withinNodes cap code length 0 ns
  rw [insertCode]
  split
  · exact nofun
  split
  · next hw => rw [hw] at hwalk; exact hwalk
  · next j ns' hw =>
    rw [hw] at hwalk
    split
    · exact (List.length_set ..).trans_le hwalk
    · exact nofun

theorem explicitInserts_withinNodes (cap : Nat) (entries : List (Nat × StageEntry)) (ns : List Node) :
    WithinNodes cap (ns.length + (entries.map fun e => e.2.length.toNat).sum) id (explicitInserts cap entries ns) := by
  induction entries generalizing ns with
  | nil => exact Nat.le_refl _
  | cons e entries ih =>
    obtain ⟨i, e⟩ := e
    have hins := insertCode_withinNodes cap e.code e.length.toNat e.symbol ns
    rw [explicitInserts]
    simp only [List.map_cons, List.sum_cons]
    split
    · next h => rw [h] at hins; exact hins.mono (by omega)
    · next ns' h =>
      rw [h] at hins
      exact (ih ns').mono (by have : ns'.length ≤ _ := hins; omega)

/-- The bits one more entry adds at a length. -/
theorem levelBits_cons (len : Nat) (e : Nat × StageEntry) (entries : List (Nat × StageEntry)) :
    levelBits len (e :: entries) = levelBits len entries + if e.2.length.toNat = len then len else 0 := by
  by_cases h : e.2.length.toNat = len <;> simp [levelBits, h, Nat.mul_add]

theorem canonicalLevel_withinNodes (cap len : Nat) (entries : List (Nat × StageEntry)) (code : Word) (ns : List Node) :
    WithinNodes cap (ns.length + levelBits len entries) Prod.snd (canonicalLevel cap len entries (code, ns)) := by
  induction entries generalizing code ns with
  | nil => exact Nat.le_refl _
  | cons e entries ih =>
    obtain ⟨i, e⟩ := e
    rw [canonicalLevel, levelBits_cons]
    split
    · have hins := insertCode_withinNodes cap code len (BitVec.ofNat 32 i) ns
      split
      · next h => rw [h] at hins; exact hins.mono (by omega)
      · next ns' h =>
        rw [h] at hins
        exact (ih (code + 1) ns').mono (by have : ns'.length ≤ _ := hins; omega)
    · exact ih code ns

theorem canonicalLevels_withinNodes (cap : Nat) (entries : List (Nat × StageEntry)) (lens : List Nat) (code : Word)
    (ns : List Node) :
    WithinNodes cap (ns.length + (lens.map fun l => levelBits l entries).sum) id
      (canonicalLevels cap entries lens (code, ns)) := by
  induction lens generalizing code ns with
  | nil => exact Nat.le_refl _
  | cons len lens ih =>
    have hlev := canonicalLevel_withinNodes cap len entries code ns
    rw [canonicalLevels, List.map_cons, List.sum_cons]
    split
    · next h => rw [h] at hlev; exact hlev.mono (by omega)
    · next code' ns' h =>
      rw [h] at hlev
      exact (ih (code' <<< 1) ns').mono (by have : ns'.length ≤ _ := hlev; omega)

/-- Over the lengths up to `maxlen` an entry adds its own length at most. -/
theorem sum_levelBits_cons (maxlen : Nat) (e : Nat × StageEntry) (entries : List (Nat × StageEntry)) :
    ((List.range maxlen).map fun l => levelBits (l + 1) (e :: entries)).sum =
      ((List.range maxlen).map fun l => levelBits (l + 1) entries).sum +
        if e.2.length.toNat ≤ maxlen then e.2.length.toNat else 0 := by
  induction maxlen with
  | zero => simp only [List.range_zero, List.map_nil, List.sum_nil]; split <;> omega
  | succ m ih =>
    rw [List.range_succ, List.map_append, List.map_append, List.sum_append, List.sum_append, ih]
    simp only [List.map_cons, List.map_nil, List.sum_cons, List.sum_nil, levelBits_cons]
    split <;> split <;> split <;> omega

theorem sum_levelBits_le (maxlen : Nat) (entries : List (Nat × StageEntry)) :
    ((List.range maxlen).map fun l => levelBits (l + 1) entries).sum ≤ maxlen * entries.length := by
  induction entries with
  | nil => simp [levelBits]
  | cons e entries ih =>
    rw [sum_levelBits_cons, List.length_cons, Nat.mul_succ]
    split <;> omega

/-! ### Who answers `AllocFail` (R170) -/

/-- A state whose response is not `AllocFail`. -/
def NoAllocFail (t : State) : Prop := t.rsp.status ≠ .allocFail

namespace NoAllocFail

variable {s : State}

theorem respond {st : Status} {r0 : DWord} {r1 : Word} (h : st ≠ .allocFail := by decide) :
    NoAllocFail (s.respond st r0 r1) := h

theorem ite {c : Prop} [Decidable c] {a b : State} (ha : NoAllocFail a) (hb : NoAllocFail b) :
    NoAllocFail (if c then a else b) := by
  split
  · exact ha
  · exact hb

theorem onStream {failValue : DWord} {act : State} (h : NoAllocFail act) : NoAllocFail (s.onStream failValue act) :=
  ite respond (ite respond h)

theorem decodeSymbol (h : Slot) : NoAllocFail (s.decodeSymbol h) := by
  obtain ⟨-, -, -, -, -, -, -, -, ⟨hrsp, -⟩ | ⟨hrsp, -⟩ | ⟨hst, -⟩⟩ := s.decodeSymbol_frame h
  · rw [NoAllocFail, hrsp]; decide
  · rw [NoAllocFail, hrsp]; decide
  · rw [NoAllocFail, hst]; decide

theorem finishBuild {slot maxlen bound : Nat} {r : Except Status (List Node)}
    (h : WithinNodes s.params.hufNodeCap bound id r) (hbound : bound ≤ s.params.hufNodeCap) :
    NoAllocFail (s.finishBuild slot maxlen r) := by
  cases r with
  | error st => exact fun hst => Nat.not_lt.2 hbound (h hst)
  | ok ns => exact respond

end NoAllocFail

/-- No command but a build answers `AllocFail`. -/
theorem exec_noAllocFail {i : Instr} {s t : State} (h : exec i s = .next t)
    (hl : ∀ slot count maxlen, i ≠ .hufBuildl slot count maxlen)
    (hc : ∀ slot count maxlen, i ≠ .hufBuildc slot count maxlen) : NoAllocFail t := by
  cases i with
  | hufBuildl => exact absurd rfl (hl _ _ _)
  | hufBuildc => exact absurd rfl (hc _ _ _)
  | sysNop | sysStat | bsErr | bsTell | crcSeed | crcGet | lzHasov | lzOutlen | lzTell => cases h; exact .respond
  | sysReset => cases h; exact .respond (s := s.hardReset)
  | sysParam | bsOpen | crcUpd | crcUpdo | crcUpdf | hufStage | hufFree | lzInit | lzSetout | lzDrain | lzOutrd
  | lzWinrd | fltWr | fltRd => cases h; exact .ite .respond .respond
  | bsHas | bsAtend | bsAlign => cases h; exact .onStream .respond
  | bsSkip | bsBack => cases h; exact .onStream (.ite .respond .respond)
  | bsRead => cases h; exact .ite .respond (.onStream (.ite .respond .respond))
  | bsPeek => cases h; exact .ite .respond (.onStream .respond)
  | hufDecode => cases h; exact .ite .respond (.ite .respond (.onStream (.decodeSymbol _)))
  | hufRdtab | hufRdnode => cases h; exact .ite .respond (.ite .respond (.ite .respond .respond))
  | lzLit => cases h; exact .ite .respond (.ite .respond (.ite .respond .respond))
  | lzCopy | fltDelta | fltAudio | fltRgb | fltX86 | fltX86e9 | fltArm =>
    cases h; exact .ite .respond (.ite .respond .respond)

/-- With legal operands the canonical codes need at most 31 nodes an entry. -/
theorem canonicalBuild_withinNodes (cap : Nat) {maxlen : Nat} (h31 : maxlen ≤ 31) (stage : List (Nat × StageEntry))
    (count : Nat) : WithinNodes cap (1 + 31 * count) id (canonicalBuild cap (stagedEntries stage count) maxlen) := by
  have hlevels := canonicalLevels_withinNodes cap (stagedEntries stage count) ((List.range maxlen).map (· + 1)) 0
    [Node.fresh]
  rw [List.map_map] at hlevels
  refine hlevels.mono (Nat.add_le_add_left ?_ 1)
  calc _ ≤ maxlen * (stagedEntries stage count).length := sum_levelBits_le maxlen _
    _ ≤ 31 * count := by rw [length_stagedEntries]; exact Nat.mul_le_mul_right _ h31

/-- So do explicit ones, whose lengths were checked. -/
theorem explicitBuild_withinNodes (cap : Nat) {maxlen : Nat} (h31 : maxlen ≤ 31) {stage : List (Nat × StageEntry)}
    {count : Nat} (hlen : stagedLengthsOk maxlen (stagedEntries stage count) = true) :
    WithinNodes cap (1 + 31 * count) id (explicitBuild cap (stagedEntries stage count)) := by
  refine (explicitInserts_withinNodes cap (stagedEntries stage count) [Node.fresh]).mono (Nat.add_le_add_left ?_ 1)
  have hle : ∀ n ∈ (stagedEntries stage count).map fun e => e.2.length.toNat, n ≤ 31 := by
    intro n hn
    obtain ⟨⟨i, e⟩, he, rfl⟩ := List.mem_map.1 hn
    obtain ⟨hi, rfl⟩ := (mem_stagedEntries ..).1 he
    exact Nat.le_trans ((stagedLengthsOk_iff ..).1 hlen i hi).2 h31
  have hsum := List.sum_le_card_nsmul _ 31 hle
  rwa [List.length_map, length_stagedEntries, smul_eq_mul, Nat.mul_comm] at hsum

/-- Settles O40: the entries have at most 31 bits each, and each bit needs at most one node. -/
theorem buildsNeverRunOutOfNodes : Obligations.BuildsNeverRunOutOfNodes := by
  intro i s t hroom h
  have hfits : ∀ {slot : Byte} {count : Half} {maxlen : Word}, buildOperandsOk s.params slot count maxlen = true →
      maxlen.toNat ≤ 31 ∧ 1 + 31 * count.toNat ≤ s.params.hufNodeCap := fun hops => by
    obtain ⟨-, hcount, -, h31⟩ := (buildOperandsOk_iff ..).1 hops
    exact ⟨h31, by omega⟩
  cases i with
  | hufBuildl slot count maxlen =>
    obtain rfl | ⟨hops, rfl⟩ := exec_hufBuildl_cases h
    · exact NoAllocFail.respond
    · obtain ⟨h31, hbound⟩ := hfits hops
      exact NoAllocFail.finishBuild (canonicalBuild_withinNodes _ h31 _ _) hbound
  | hufBuildc slot count maxlen =>
    obtain rfl | ⟨hops, hlen, rfl⟩ := exec_hufBuildc_cases h
    · exact NoAllocFail.respond
    · obtain ⟨h31, hbound⟩ := hfits hops
      exact NoAllocFail.finishBuild (explicitBuild_withinNodes _ h31 hlen) hbound
  | _ => exact exec_noAllocFail h nofun nofun

end Sys2Proof.Machine
end

section
/-! The codes a tree holds (42_huffman.md R101, R102): an insertion adds one and keeps those before it, and no code
begins another. So every code of a build is decoded again (R105 to R107, R109). -/

namespace Sys2Proof.Machine

/-! ### Later nodes keep what is there -/

/-- Whether a node is fresh, by its branches. -/
theorem Node.ne_fresh_iff (nd : Node) : nd ≠ Node.fresh ↔ ∃ bit, nd.branch bit ≠ emptyWord := by
  rw [Ne, Node.ext_iff']
  simp only [Bool.exists_bool, Node.branch]
  tauto

/-- `ns'` is `ns` with branches set that were `EMPTY`: every branch set stays, and a node with one is a leaf or not as
it was. -/
structure Extends (ns ns' : List Node) : Prop where
  branch : ∀ j bit, (nodeAt ns j).branch bit ≠ emptyWord → (nodeAt ns' j).branch bit = (nodeAt ns j).branch bit
  isLeaf : ∀ j, nodeAt ns j ≠ Node.fresh → (nodeAt ns' j).isLeaf = (nodeAt ns j).isLeaf

namespace Extends

variable {ns ns' ns'' : List Node}

theorem refl (ns : List Node) : Extends ns ns := ⟨fun _ _ _ => rfl, fun _ _ => rfl⟩

/-- A node with a branch set keeps one. -/
theorem ne_fresh (h : Extends ns ns') {j : Nat} (hj : nodeAt ns j ≠ Node.fresh) : nodeAt ns' j ≠ Node.fresh := by
  rw [Node.ne_fresh_iff] at hj ⊢
  obtain ⟨bit, hbit⟩ := hj
  exact ⟨bit, h.branch j bit hbit ▸ hbit⟩

theorem trans (h : Extends ns ns') (h' : Extends ns' ns'') : Extends ns ns'' where
  branch j bit hb := by
    have hb' := h.branch j bit hb
    rw [h'.branch j bit (hb' ▸ hb), hb']
  isLeaf j hj := by rw [h'.isLeaf j (h.ne_fresh hj), h.isLeaf j hj]

end Extends

/-- A fresh node may become a leaf. -/
theorem extends_set_of_fresh {ns : List Node} {j : Nat} (h : nodeAt ns j = Node.fresh) (nd : Node) :
    Extends ns (ns.set j nd) := by
  rcases Nat.lt_or_ge j ns.length with hj | hj
  · refine ⟨fun k bit hb => ?_, fun k hk => ?_⟩
    · have hkj : k ≠ j := by
        rintro rfl
        rw [h] at hb
        cases bit <;> exact absurd rfl hb
      rw [nodeAt_set _ _ _ _ hj, if_neg hkj]
    · have hkj : k ≠ j := by
        rintro rfl
        exact hk h
      rw [nodeAt_set _ _ _ _ hj, if_neg hkj]
  · rw [List.set_eq_of_length_le hj]
    exact .refl ns

/-- The nodes after one more is allocated and linked to branch `bit` of node `j` (R102). -/
def linkNode (ns : List Node) (j : Nat) (bit : Bool) : List Node :=
  ns.set j ((nodeAt ns j).setBranch bit (BitVec.ofNat 32 ns.length)) ++ [Node.fresh]

section Link

variable {cap : Nat} {ns : List Node} {j : Nat} {bit : Bool}

theorem nodeAt_linkNode (hj : j < ns.length) (k : Nat) :
    nodeAt (linkNode ns j bit) k =
      if k = j then (nodeAt ns j).setBranch bit (BitVec.ofNat 32 ns.length) else nodeAt ns k := by
  rw [linkNode, nodeAt_append_fresh, nodeAt_set _ _ _ _ hj]

/-- A branch after one is set. -/
theorem Node.branch_setBranch (nd : Node) (bit bit' : Bool) (w : Word) :
    (nd.setBranch bit w).branch bit' = if bit' = bit then w else nd.branch bit' := by
  cases bit <;> cases bit' <;> rfl

/-- Linking keeps a tree under construction one: it is what a walk of one bit does. -/
theorem nodesOk_linkNode (hcap : cap < 4294967295) (h : NodesOk cap ns) (hj : j < ns.length)
    (hleaf : (nodeAt ns j).isLeaf = false) (hb : (nodeAt ns j).branch bit = emptyWord) (hroom : ns.length ≠ cap) :
    NodesOk cap (linkNode ns j bit) := by
  have hwalk := insertWalk_spec cap hcap ((BitVec.ofBool bit).setWidth 32) 1 j ns h hj
  have hbit : ((BitVec.ofBool bit).setWidth 32).getLsbD 0 = bit := by cases bit <;> rfl
  rw [insertWalk, if_neg (Bool.eq_false_iff.1 hleaf), hbit] at hwalk
  dsimp only at hwalk
  rw [if_pos hb, if_neg hroom] at hwalk
  exact hwalk.1

/-- The branch linked names the new node. -/
theorem branch_linkNode (hcap : cap < 4294967295) (h : NodesOk cap ns) (hj : j < ns.length) :
    ((nodeAt (linkNode ns j bit) j).branch bit).toNat = ns.length := by
  obtain ⟨-, hle, -⟩ := h
  rw [nodeAt_linkNode hj, if_pos rfl, Node.branch_setBranch, if_pos rfl, BitVec.toNat_ofNat]
  omega

/-- The node linked below is no leaf. -/
theorem isLeaf_linkNode (hcap : cap < 4294967295) (h : NodesOk cap ns) (hj : j < ns.length)
    (hleaf : (nodeAt ns j).isLeaf = false) : (nodeAt (linkNode ns j bit) j).isLeaf = false := by
  obtain ⟨-, hle, hnodes, -⟩ := h
  rw [nodeAt_linkNode hj, if_pos rfl]
  exact ((hnodes j hj).link hleaf bit hj (by omega)).2

theorem extends_linkNode (hcap : cap < 4294967295) (h : NodesOk cap ns) (hj : j < ns.length)
    (hleaf : (nodeAt ns j).isLeaf = false) (hb : (nodeAt ns j).branch bit = emptyWord) :
    Extends ns (linkNode ns j bit) := by
  refine ⟨fun k bit' hb' => ?_, fun k _ => ?_⟩
  · rw [nodeAt_linkNode hj]
    split
    · next hk =>
      subst hk
      rw [Node.branch_setBranch, if_neg fun (hbit : bit' = bit) => hb' (hbit ▸ hb)]
    · rfl
  · by_cases hk : k = j
    · rw [hk, isLeaf_linkNode hcap h hj hleaf, hleaf]
    · rw [nodeAt_linkNode hj, if_neg hk]

end Link

/-! ### The path of a code (R102) -/

/-- The low `i` bits of `code`, most significant first, lead from node `j` to node `j'`, by nodes that are no leaves. -/
inductive CodePath (ns : List Node) (code : Word) : (i j j' : Nat) → Prop
  | nil (j : Nat) : CodePath ns code 0 j j
  | cons {i j j' : Nat} : (nodeAt ns j).isLeaf = false → (nodeAt ns j).branch (code.getLsbD i) ≠ emptyWord →
    CodePath ns code i ((nodeAt ns j).branch (code.getLsbD i)).toNat j' → CodePath ns code (i + 1) j j'

/-- The tree holds a code: its low `length` bits lead from the root to the leaf of its symbol. -/
def HasCode (ns : List Node) (code : Word) (length : Nat) (symbol : Word) : Prop :=
  ∃ j, CodePath ns code length 0 j ∧ nodeAt ns j = ⟨symbol, symbol⟩ ∧ symbol ≠ emptyWord

section Paths

variable {ns ns' : List Node} {code code' : Word} {i j j' : Nat}

/-- A path begins at a node that had its branch, and was no leaf, before the rest of it was there. -/
theorem CodePath.cons_of_extends (hext : Extends ns ns') (hleaf : (nodeAt ns j).isLeaf = false)
    (hb : (nodeAt ns j).branch (code.getLsbD i) ≠ emptyWord)
    (h : CodePath ns' code i ((nodeAt ns j).branch (code.getLsbD i)).toNat j') : CodePath ns' code (i + 1) j j' := by
  have hb' := hext.branch j _ hb
  refine .cons ?_ (hb' ▸ hb) (hb' ▸ h)
  rw [hext.isLeaf j ((Node.ne_fresh_iff _).2 ⟨_, hb⟩), hleaf]

/-- Later nodes keep a path. -/
theorem CodePath.extend (h : CodePath ns code i j j') (hext : Extends ns ns') : CodePath ns' code i j j' := by
  induction h with
  | nil => exact .nil _
  | cons hleaf hb _ ih => exact .cons_of_extends hext hleaf hb ih

/-- Later nodes keep a code. -/
theorem HasCode.extend {length : Nat} {symbol : Word} (h : HasCode ns code length symbol) (hext : Extends ns ns') :
    HasCode ns' code length symbol := by
  obtain ⟨j, hpath, hnode, hsym⟩ := h
  have hb : ∀ bit, (nodeAt ns j).branch bit = symbol := fun bit => by
    rw [hnode]
    cases bit <;> rfl
  have hb' : ∀ bit, (nodeAt ns' j).branch bit = symbol := fun bit => by
    rw [hext.branch j bit (hb bit ▸ hsym), hb]
  exact ⟨j, hpath.extend hext, (Node.ext_iff' _ _).2 ⟨hb' false, hb' true⟩, hsym⟩

/-- The leaf of a code is one. -/
theorem Node.isLeaf_mk {symbol : Word} (h : symbol ≠ emptyWord) : Node.isLeaf ⟨symbol, symbol⟩ = true :=
  (Node.isLeaf_iff _).2 ⟨rfl, h⟩

/-- No path goes on from a leaf: one that begins with the bits of a path to a leaf is that path. -/
theorem CodePath.eq_of_leaf {r k : Nat} (h : CodePath ns code i j j') (hleaf : (nodeAt ns j').isLeaf = true)
    (h' : CodePath ns code' (r + i) j k) (hbits : ∀ m < i, code'.getLsbD (r + m) = code.getLsbD m) :
    r = 0 ∧ k = j' := by
  induction h with
  | nil j =>
    cases h' with
    | nil => exact ⟨rfl, rfl⟩
    | cons hno => rw [hleaf] at hno; cases hno
  | @cons i j j' _ _ _ ih =>
    cases h' with
    | cons _ _ h' =>
      rw [Nat.add_eq, hbits i (Nat.lt_succ_self i)] at h'
      exact ih hleaf h' fun m hm => hbits m (Nat.lt_succ_of_lt hm)

/-- A walk along the bits of a path to a leaf ends there. -/
theorem CodePath.treeWalk_eq {bit : Nat → Bool} {symbol : Word} (h : CodePath ns code (i + 1) j j')
    (hnode : nodeAt ns j' = ⟨symbol, symbol⟩) (hsym : symbol ≠ emptyWord) {used rem : Nat} (hrem : i + 1 ≤ rem)
    (hbits : ∀ m < i + 1, bit (used + m) = code.getLsbD (i - m)) :
    treeWalk ns bit rem j used = .leaf symbol (used + (i + 1)) := by
  induction i generalizing j used rem with
  | zero =>
    obtain ⟨rem, rfl⟩ := Nat.exists_eq_add_of_le' hrem
    have hbit : bit used = code.getLsbD 0 := hbits 0 Nat.one_pos
    cases h with
    | cons _ hb h =>
    cases h
    rw [treeWalk, hbit, if_neg hb, hnode, if_pos (Node.isLeaf_mk hsym)]
  | succ i ih =>
    obtain ⟨rem, rfl⟩ := Nat.exists_eq_add_of_le' (show 1 ≤ rem by omega)
    have hbit : bit used = code.getLsbD (i + 1) := hbits 0 (Nat.succ_pos _)
    cases h with
    | cons _ hb h =>
    have hleaf : (nodeAt ns ((nodeAt ns j).branch (code.getLsbD (i + 1))).toNat).isLeaf = false := by
      cases h
      assumption
    have hrest : ∀ m < i + 1, bit (used + 1 + m) = code.getLsbD (i - m) := fun m hm => by
      rw [Nat.add_assoc, hbits (1 + m) (by omega)]
      congr 1
      omega
    rw [treeWalk, hbit, if_neg hb, if_neg (Bool.eq_false_iff.1 hleaf), ih h (by omega) hrest, Nat.add_assoc,
      Nat.add_comm 1]

/-- A walk from the root along a code the tree holds finds its symbol. -/
theorem HasCode.treeWalk_eq {bit : Nat → Bool} {length rem : Nat} {symbol : Word} (h : HasCode ns code length symbol)
    (h1 : 1 ≤ length) (hrem : length ≤ rem) (hbits : ∀ m < length, bit m = code.getLsbD (length - 1 - m)) :
    treeWalk ns bit rem 0 0 = .leaf symbol length := by
  obtain ⟨j, hpath, hnode, hsym⟩ := h
  obtain ⟨i, rfl⟩ := Nat.exists_eq_add_of_le' h1
  rw [hpath.treeWalk_eq hnode hsym hrem fun m hm => by rw [Nat.zero_add]; exact hbits m hm, Nat.zero_add]

end Paths

/-! ### Insertions (R102) -/

/-- All a successful walk does: the nodes stay, and the code's bits lead from where it began to the node it answers. -/
theorem insertWalk_codePath {cap : Nat} (hcap : cap < 4294967295) {code : Word} {i j j' : Nat} {ns ns' : List Node}
    (h : NodesOk cap ns) (hj : j < ns.length) (hw : insertWalk cap code i j ns = .ok (j', ns')) :
    Extends ns ns' ∧ CodePath ns' code i j j' := by
  induction i generalizing j ns with
  | zero =>
    cases hw
    exact ⟨.refl _, .nil _⟩
  | succ i ih =>
    rw [insertWalk] at hw
    split at hw
    · cases hw
    next hleaf =>
    have hleaf := Bool.eq_false_of_not_eq_true hleaf
    dsimp only at hw
    split at hw
    · next hb =>
      split at hw
      · cases hw
      next hroom =>
      have hbranch := branch_linkNode (bit := code.getLsbD i) hcap h hj
      have hlink := extends_linkNode hcap h hj hleaf hb
      obtain ⟨hext, hpath⟩ := ih (nodesOk_linkNode hcap h hj hleaf hb hroom) (by simp [linkNode]) hw
      refine ⟨hlink.trans hext,
        .cons_of_extends hext (isLeaf_linkNode hcap h hj hleaf) (fun hempty => ?_) (hbranch.symm ▸ hpath)⟩
      obtain ⟨-, hle, -⟩ := h
      rw [hempty, emptyWord_toNat] at hbranch
      omega
    · next hb =>
      have ⟨_, _, hnodes, _⟩ := h
      obtain hno | ⟨-, hlt⟩ := (hnodes j hj).branch hleaf (code.getLsbD i)
      · exact absurd hno hb
      · obtain ⟨hext, hpath⟩ := ih h hlt hw
        exact ⟨hext, .cons_of_extends hext hleaf hb hpath⟩

/-- A symbol an insertion takes has 27 bits (R102). -/
theorem ne_emptyWord_of_extractLsb' {symbol : Word} (h : symbol.extractLsb' 27 5 = 0) : symbol ≠ emptyWord := by
  rintro rfl
  exact absurd h (by decide)

/-- All a successful insertion does: the nodes are a tree still, the codes stay, and the new one is among them; no
earlier code begins it. -/
theorem insertCode_hasCode {cap : Nat} (hcap : cap < 4294967295) {code symbol : Word} {length : Nat}
    {ns ns' : List Node} (h : NodesOk cap ns) (h1 : 1 ≤ length)
    (hins : insertCode cap code length symbol ns = .ok ns') :
    NodesOk cap ns' ∧ Extends ns ns' ∧ HasCode ns' code length symbol ∧
      ∀ code' l symbol', HasCode ns code' l symbol' → l ≤ length →
        ¬ ∀ m < l, code.getLsbD (length - l + m) = code'.getLsbD m := by
  have hok := insertCode_spec cap hcap code symbol length ns h h1
  rw [hins] at hok
  rw [insertCode] at hins
  split at hins
  · cases hins
  next hsym =>
  have hsym := ne_emptyWord_of_extractLsb' (Decidable.not_not.1 hsym)
  split at hins
  · cases hins
  next j ns1 hw =>
  split at hins
  case isFalse => cases hins
  next hfresh =>
  cases hins
  obtain ⟨hext, hpath⟩ := insertWalk_codePath hcap h h.1 hw
  have hspec := insertWalk_spec cap hcap code length 0 ns h h.1
  rw [hw] at hspec
  obtain ⟨-, -, -, hj, -⟩ := hspec
  have hset := extends_set_of_fresh hfresh ⟨symbol, symbol⟩
  refine ⟨hok.1, hext.trans hset, ⟨j, hpath.extend hset, ?_, hsym⟩, fun code' l symbol' hcode hl hbits => ?_⟩
  · rw [nodeAt_set _ _ _ _ hj, if_pos rfl]
  · obtain ⟨j', hpath', hnode, hsym'⟩ := hcode.extend hext
    rw [← Nat.sub_add_cancel hl] at hpath
    obtain ⟨-, rfl⟩ := hpath'.eq_of_leaf (hnode ▸ Node.isLeaf_mk hsym') hpath hbits
    rw [hfresh] at hnode
    exact hsym' (Node.mk.inj hnode).1.symm

/-! ### Decoding a code (R109) -/

section Decoding

variable {slot : Byte} {u : State} {p : Params}

/-- Where the stream holds a code of the tree built, `HUF.DECODE` answers its symbol and consumes its bits. -/
theorem exec_hufDecode_of_hasCode {maxlen length : Nat} {ns : List Node} {code symbol : Word} (hp : u.params.Legal)
    (hb : u.BuffersOk) (hs : u.StreamOk) (ho : u.bs.isOpen = true) (he : u.bs.err = false) (hslot8 : slot.toNat < 8)
    (hlegal : p.Legal) (hmax1 : 1 ≤ maxlen) (hmax31 : maxlen ≤ 31) (hns : NodesOk p.hufNodeCap ns)
    (hslot : u.slot slot.toNat = builtSlot p maxlen ns) (hcode : HasCode ns code length symbol) (h1 : 1 ≤ length)
    (hrem : length ≤ u.remaining) (hbits : u.bits u.bs.pos.toNat length = code.toNat % 2 ^ length) :
    ∃ v, SameButBuffers u v ∧
      exec (.hufDecode slot) u =
        .next
          ((v.setBs { v.bs with pos := BitVec.ofNat 64 (u.bs.pos.toNat + length) }).respond .ok
            (symbol.setWidth 64) (BitVec.ofNat 32 length)) := by
  have hahead : ∀ m < length, u.bitsAhead m = code.getLsbD (length - 1 - m) := fun m hm => by
    have hbit := u.testBit_bits u.bs.pos.toNat (n := length) (i := length - 1 - m) (by omega)
    rw [hbits, Nat.testBit_mod_two_pow, show length - 1 - (length - 1 - m) = m by omega] at hbit
    rw [State.bitsAhead, ← hbit, decide_eq_true (by omega), Bool.true_and]
    rfl
  have hwalk : u.walk slot.toNat = .leaf symbol length := by
    rw [State.walk, hslot]
    exact hcode.treeWalk_eq h1 hrem hahead
  obtain ⟨v, hv, hexec⟩ := exec_hufDecode_walk hp hs hb hslot8 hlegal
    (hslot ▸ builtSlot_ok p hlegal maxlen hmax1 hmax31 ns hns) (hslot ▸ rfl) ho he
  have hpos : v.bs.pos = u.bs.pos := by simp [(sameButBuffers_iff _ _).1 hv]
  refine ⟨v, hv, ?_⟩
  rw [hexec, hwalk, State.decodeAnswer, State.advance_eq, hpos]

/-- A build that answers `OK` built its slot (R108). -/
theorem State.finishBuild_of_ok {s : State} {maxlen : Nat} {r : Except Status (List Node)} (hslot8 : slot.toNat < 8)
    (hr : r ≠ .error .ok) (hst : (s.finishBuild slot.toNat maxlen r).rsp.status = .ok) :
    ∃ ns, r = .ok ns ∧ (s.finishBuild slot.toNat maxlen r).slot slot.toNat = builtSlot s.params maxlen ns := by
  cases r with
  | error st =>
    rw [State.finishBuild_error, State.fail_rsp] at hst
    exact absurd (congrArg _ hst) hr
  | ok ns =>
    refine ⟨ns, rfl, ?_⟩
    rw [State.finishBuild_ok, State.respond_slot, State.slot_setSlot_self _ _ _ hslot8]

end Decoding

/-! ### Explicit codes (R106, R107) -/

/-- The explicit insertions that succeed leave every code in the tree. -/
theorem explicitInserts_hasCode {cap : Nat} (hcap : cap < 4294967295) {entries : List (Nat × StageEntry)}
    (hlen : ∀ e ∈ entries, 1 ≤ e.2.length.toNat) {ns ns' : List Node} (h : NodesOk cap ns)
    (hins : explicitInserts cap entries ns = .ok ns') :
    Extends ns ns' ∧ ∀ e ∈ entries, HasCode ns' e.2.code e.2.length.toNat e.2.symbol := by
  induction entries generalizing ns with
  | nil =>
    cases hins
    exact ⟨.refl _, nofun⟩
  | cons e entries ih =>
    rw [explicitInserts] at hins
    split at hins
    · cases hins
    next ns1 hone =>
    obtain ⟨hns1, hext, hcode, -⟩ := insertCode_hasCode hcap h (hlen e List.mem_cons_self) hone
    obtain ⟨hext', hcodes⟩ := ih (fun e he => hlen e (List.mem_cons_of_mem _ he)) hns1 hins
    refine ⟨hext.trans hext', fun e' he' => ?_⟩
    obtain rfl | he' := List.mem_cons.1 he'
    · exact hcode.extend hext'
    · exact hcodes e' he'

/-- No failure of the build is an `OK`. -/
theorem explicitBuild_ne_error_ok {p : Params} (hp : p.Legal) {entries : List (Nat × StageEntry)}
    (hlen : ∀ e ∈ entries, 1 ≤ e.2.length.toNat) : explicitBuild p.hufNodeCap entries ≠ .error .ok := fun hno => by
  obtain ⟨hcap1, hcap⟩ := Params.Legal.hufNodeCap_bounds hp
  have hspec := explicitBuild_spec p.hufNodeCap hcap1 hcap entries hlen
  rw [hno] at hspec
  simp at hspec

/-- Settles O42: the tree built holds every staged code, and the walk along the stream finds it. -/
theorem explicitCodesRoundTrip : Obligations.ExplicitCodesRoundTrip := by
  intro slot count maxlen s t u hlegal hexec hst hslot hp hb hs ho he j e hj hej hrem hbits
  obtain rfl | ⟨hops, hlen, rfl⟩ := exec_hufBuildc_cases hexec
  · cases hst
  obtain ⟨hslot8, -, h1, h31⟩ := (buildOperandsOk_iff ..).1 hops
  obtain ⟨hcap1, hcap⟩ := Params.Legal.hufNodeCap_bounds hlegal
  have hpos : ∀ e ∈ stagedEntries s.huf.stage count.toNat, 1 ≤ e.2.length.toNat := by
    rintro ⟨i, e⟩ he
    obtain ⟨hi, rfl⟩ := (mem_stagedEntries ..).1 he
    exact ((stagedLengthsOk_iff ..).1 hlen i hi).1
  obtain ⟨ns, hns, hbuilt⟩ := State.finishBuild_of_ok hslot8 (explicitBuild_ne_error_ok hlegal hpos) hst
  rw [hbuilt] at hslot
  have hmem : (j, e) ∈ stagedEntries s.huf.stage count.toNat := (mem_stagedEntries ..).2 ⟨hj, hej⟩
  obtain ⟨-, hcodes⟩ := explicitInserts_hasCode hcap hpos (nodesOk_fresh _ hcap1) hns
  rw [show e.length.setWidth 32 = BitVec.ofNat 32 e.length.toNat from (BitVec.ofNat_toNat _ _).symm]
  exact exec_hufDecode_of_hasCode hp hb hs ho he hslot8 hlegal h1 h31 (explicitBuild_nodesOk hlegal _ _ _ hlen ns hns)
    hslot (hcodes _ hmem) (hpos _ hmem) hrem hbits

/-! ### Canonical codes (R105) -/

section Canonical

variable {cap : Nat}

/-- The canonical build with code `c` next at length `l`: no code is beyond the lengths' space, and unless `c` is the
first of all, some code of zeros is taken. -/
structure NextCode (cap l c : Nat) (ns : List Node) : Prop where
  le : c ≤ 2 ^ l
  nodes : NodesOk cap ns
  zeros : c = 0 ∨ ∃ k ≤ l, ∃ symbol, HasCode ns 0 k symbol

/-- At the next length the code doubles. -/
theorem NextCode.double {l c : Nat} {ns : List Node} (h : NextCode cap l c ns) : NextCode cap (l + 1) (2 * c) ns := by
  obtain ⟨hle, hns, hzeros⟩ := h
  refine ⟨by rw [Nat.pow_succ]; omega, hns, ?_⟩
  obtain rfl | ⟨k, hk, hcode⟩ := hzeros
  · exact .inl rfl
  · exact .inr ⟨k, Nat.le_succ_of_le hk, hcode⟩

/-- An insertion that succeeds had a code that fits its length: the first that does not has zeros for its low bits, and
a code of zeros is taken. -/
theorem NextCode.insert {l c : Nat} {ns ns' : List Node} {symbol : Word} (hcap : cap < 4294967295) (h1 : 1 ≤ l)
    (h : NextCode cap l c ns) (hins : insertCode cap (BitVec.ofNat 32 c) l symbol ns = .ok ns') :
    c < 2 ^ l ∧ NextCode cap l (c + 1) ns' ∧ Extends ns ns' ∧ HasCode ns' (BitVec.ofNat 32 c) l symbol := by
  obtain ⟨hle, hns, hzeros⟩ := h
  obtain ⟨hns', hext, hcode, hfree⟩ := insertCode_hasCode hcap hns h1 hins
  have hlt : c < 2 ^ l := by
    refine Nat.lt_of_le_of_ne hle fun heq => ?_
    obtain rfl | ⟨k, hk, symbol', hzero⟩ := hzeros
    · exact absurd heq (Nat.two_pow_pos l).ne
    · refine hfree _ _ _ hzero hk fun m hm => ?_
      rw [heq, BitVec.getLsbD_ofNat, Nat.testBit_two_pow_of_ne (by omega)]
      simp
  refine ⟨hlt, ⟨hlt, hns', ?_⟩, hext, hcode⟩
  obtain rfl | ⟨k, hk, symbol', hzero⟩ := hzeros
  · exact .inr ⟨l, Nat.le_refl l, symbol, hcode⟩
  · exact .inr ⟨k, hk, symbol', hzero.extend hext⟩

variable (len : Nat → Nat) (count : Nat)

/-- The code next at length `l` when the entries before `a` are done (R105). -/
def codeAt (l a : Nat) : Nat := firstCode len count l + ((List.range a).filter fun i => len i = l).length

/-- An entry of the length takes a code. -/
theorem codeAt_succ (l a : Nat) : codeAt len count l (a + 1) = codeAt len count l a + if len a = l then 1 else 0 := by
  by_cases h : len a = l <;> simp [codeAt, List.range_succ, h, Nat.add_assoc]

/-- The first code of a length is the double of the last length's next. -/
theorem firstCode_succ {l : Nat} (h : 1 ≤ l) : firstCode len count (l + 1) = 2 * codeAt len count l count := by
  simp [firstCode, codeAt, show l ≠ 0 by omega]

variable {len count} {stage : List (Nat × StageEntry)}

/-- One length of a build that succeeds: its entries from `a` to `a + n` get the codes of R105. -/
theorem canonicalLevel_hasCode (hcap : cap < 4294967295)
    (hlen : ∀ j, len j = (Cells.read StageEntry.zero stage j).length.toNat) {l : Nat} (h1 : 1 ≤ l)
    {n a : Nat} {code' : Word} {ns ns' : List Node} (h : NextCode cap l (codeAt len count l a) ns)
    (hlev : canonicalLevel cap l ((List.range' a n).map fun i => (i, Cells.read StageEntry.zero stage i))
      (BitVec.ofNat 32 (codeAt len count l a), ns) = .ok (code', ns')) :
    code' = BitVec.ofNat 32 (codeAt len count l (a + n)) ∧ NextCode cap l (codeAt len count l (a + n)) ns' ∧
      Extends ns ns' ∧
      ∀ j, a ≤ j → j < a + n → len j = l →
        codeAt len count l j < 2 ^ l ∧ HasCode ns' (BitVec.ofNat 32 (codeAt len count l j)) l (BitVec.ofNat 32 j) := by
  induction n generalizing a ns with
  | zero =>
    cases hlev
    exact ⟨rfl, h, .refl _, fun j ha hn => by omega⟩
  | succ n ih =>
    rw [List.range'_succ, List.map_cons, canonicalLevel, ← hlen] at hlev
    rw [← Nat.succ_add_eq_add_succ]
    split at hlev
    · next hl =>
      split at hlev
      · cases hlev
      next ns1 hins =>
      obtain ⟨hlt, hns1, hext, hcode⟩ := h.insert hcap h1 hins
      have hnext : codeAt len count l (a + 1) = codeAt len count l a + 1 := by rw [codeAt_succ, if_pos hl]
      have hword : BitVec.ofNat 32 (codeAt len count l a) + 1 = BitVec.ofNat 32 (codeAt len count l (a + 1)) := by
        rw [hnext, BitVec.ofNat_add]
        rfl
      rw [← hnext] at hns1
      rw [hword] at hlev
      obtain ⟨hcode', hns', hext', hcodes⟩ := ih hns1 hlev
      refine ⟨hcode', hns', hext.trans hext', fun j ha hn hj => ?_⟩
      obtain rfl | ha := Nat.eq_or_lt_of_le ha
      · exact ⟨hlt, hcode.extend hext'⟩
      · exact hcodes j ha hn hj
    · next hl =>
      have hnext : codeAt len count l (a + 1) = codeAt len count l a := by rw [codeAt_succ, if_neg hl]; rfl
      rw [← hnext] at hlev h
      obtain ⟨hcode', hns', hext', hcodes⟩ := ih h hlev
      refine ⟨hcode', hns', hext', fun j ha hn hj => ?_⟩
      obtain rfl | ha := Nat.eq_or_lt_of_le ha
      · exact absurd hj hl
      · exact hcodes j ha hn hj

/-- Lengths `l` to `l + n` of a build that succeeds. -/
theorem canonicalLevels_hasCode (hcap : cap < 4294967295)
    (hlen : ∀ j, len j = (Cells.read StageEntry.zero stage j).length.toNat) {n l : Nat} (h1 : 1 ≤ l)
    {ns ns' : List Node} (h : NextCode cap l (firstCode len count l) ns)
    (hlevs : canonicalLevels cap (stagedEntries stage count) (List.range' l n)
      (BitVec.ofNat 32 (firstCode len count l), ns) = .ok ns') :
    Extends ns ns' ∧
      ∀ j < count, l ≤ len j → len j < l + n →
        canonicalCode len count j < 2 ^ len j ∧
          HasCode ns' (BitVec.ofNat 32 (canonicalCode len count j)) (len j) (BitVec.ofNat 32 j) := by
  induction n generalizing l ns with
  | zero =>
    cases hlevs
    exact ⟨.refl _, fun j _ hl hn => by omega⟩
  | succ n ih =>
    rw [List.range'_succ, canonicalLevels, stagedEntries, List.range_eq_range'] at hlevs
    split at hlevs
    · cases hlevs
    next code ns1 hlev =>
    obtain ⟨rfl, hns1, hext, hcodes⟩ := canonicalLevel_hasCode hcap hlen h1 (a := 0) h hlev
    rw [Nat.zero_add] at hns1 hcodes hlevs
    have hdouble : BitVec.ofNat 32 (codeAt len count l count) <<< 1 =
        BitVec.ofNat 32 (firstCode len count (l + 1)) := by
      apply BitVec.eq_of_toNat_eq
      rw [firstCode_succ len count h1, BitVec.toNat_shiftLeft, BitVec.toNat_ofNat, BitVec.toNat_ofNat, Nat.shiftLeft_eq]
      omega
    rw [hdouble, ← List.range_eq_range'] at hlevs
    have hnext := hns1.double
    rw [← firstCode_succ len count h1] at hnext
    obtain ⟨hext', hcodes'⟩ := ih (by omega) hnext hlevs
    refine ⟨hext.trans hext', fun j hj hl hn => ?_⟩
    obtain rfl | hl := Nat.eq_or_lt_of_le hl
    · obtain ⟨hlt, hcode⟩ := hcodes j (Nat.zero_le j) hj rfl
      exact ⟨hlt, hcode.extend hext'⟩
    · exact hcodes' j hj hl (by omega)

/-- A canonical build that succeeds leaves in the tree, for every entry of a length from 1 to `maxlen`, the code of
R105, which fits its length. -/
theorem canonicalBuild_hasCode (hcap1 : 1 ≤ cap) (hcap : cap < 4294967295)
    (hlen : ∀ j, len j = (Cells.read StageEntry.zero stage j).length.toNat) {maxlen : Nat} {ns : List Node}
    (hns : canonicalBuild cap (stagedEntries stage count) maxlen = .ok ns) (j : Nat) (hj : j < count)
    (hj1 : 1 ≤ len j) (hjmax : len j ≤ maxlen) :
    canonicalCode len count j < 2 ^ len j ∧
      HasCode ns (BitVec.ofNat 32 (canonicalCode len count j)) (len j) (BitVec.ofNat 32 j) := by
  have hlens : (List.range maxlen).map (· + 1) = List.range' 1 maxlen := by
    rw [List.range'_eq_map_range]
    exact List.map_congr_left fun _ _ => Nat.add_comm _ _
  have hstart : NextCode cap 1 (firstCode len count 1) [Node.fresh] := by
    have hzero : firstCode len count 1 = 0 := by simp [firstCode]
    exact ⟨by omega, nodesOk_fresh cap hcap1, .inl hzero⟩
  have hword : (0 : Word) = BitVec.ofNat 32 (firstCode len count 1) := by simp [firstCode]
  rw [canonicalBuild, hlens, hword] at hns
  obtain ⟨-, hcodes⟩ := canonicalLevels_hasCode hcap hlen (Nat.le_refl 1) hstart hns
  exact hcodes j hj hj1 (by omega)

end Canonical

/-- No failure of the build is an `OK`. -/
theorem canonicalBuild_ne_error_ok {p : Params} (hp : p.Legal) (stage : List (Nat × StageEntry)) (count : Half)
    (maxlen : Nat) : canonicalBuild p.hufNodeCap (stagedEntries stage count.toNat) maxlen ≠ .error .ok := fun hno => by
  obtain ⟨hcap1, hcap⟩ := Params.Legal.hufNodeCap_bounds hp
  have hindex : ∀ e ∈ stagedEntries stage count.toNat, e.1 < 2 ^ 27 := by
    rintro ⟨i, e⟩ he
    have hi := ((mem_stagedEntries ..).1 he).1
    have := count.isLt
    dsimp only
    omega
  have hspec := canonicalBuild_spec p.hufNodeCap hcap1 hcap _ hindex maxlen
  rw [hno] at hspec
  simp at hspec

/-- Settles O43: the tree built holds every canonical code, and the walk along the stream finds it. -/
theorem canonicalCodesRoundTrip : Obligations.CanonicalCodesRoundTrip := by
  intro slot count maxlen s t hlegal hexec hst len hlen j hj hj1 hjmax
  obtain rfl | ⟨hops, rfl⟩ := exec_hufBuildl_cases hexec
  · cases hst
  obtain ⟨hslot8, -, h1, h31⟩ := (buildOperandsOk_iff ..).1 hops
  obtain ⟨hcap1, hcap⟩ := Params.Legal.hufNodeCap_bounds hlegal
  obtain ⟨ns, hns, hbuilt⟩ := State.finishBuild_of_ok hslot8 (canonicalBuild_ne_error_ok hlegal _ _ _) hst
  obtain ⟨hlt, hcode⟩ := canonicalBuild_hasCode hcap1 hcap hlen hns j hj hj1 hjmax
  refine ⟨hlt, fun u hslot hp hb hs ho he hrem hbits => ?_⟩
  rw [hbuilt] at hslot
  have hj32 : (BitVec.ofNat 32 j).setWidth 64 = BitVec.ofNat 64 j := by
    have := count.isLt
    apply BitVec.eq_of_toNat_eq
    simp only [BitVec.toNat_setWidth, BitVec.toNat_ofNat]
    omega
  rw [← hj32]
  refine exec_hufDecode_of_hasCode hp hb hs ho he hslot8 hlegal h1 h31 (canonicalBuild_nodesOk hlegal _ _ _ ns hns)
    hslot hcode hj1 hrem ?_
  have h32 : 2 ^ len j ≤ 2 ^ 32 := Nat.pow_le_pow_right Nat.two_pos (by omega)
  rw [hbits, BitVec.toNat_ofNat, Nat.mod_eq_of_lt (Nat.lt_of_lt_of_le hlt h32), Nat.mod_eq_of_lt hlt]

end Sys2Proof.Machine
end

section
/-! The LZSS unit's commands, case by case (43_lzss.md R120 to R133). A copy loop is a number of equal rounds, each of
which reads a byte behind the write position and emits it; the number alone depends on the buffer, and the bytes on the
window alone. -/

namespace Sys2Proof.Machine

/-! ### Indices of the ring (R125) -/

/-- The window size divides the size of the write position, which may wrap. -/
theorem two_pow_dvd_two_pow_64 (k : BitVec 5) : 2 ^ k.toNat ∣ 2 ^ 64 := by
  have := k.isLt
  exact Nat.pow_dvd_pow 2 (by omega)

theorem add_toNat_mod_window (x y : DWord) (k : BitVec 5) :
    (x + y).toNat % 2 ^ k.toNat = (x.toNat + y.toNat) % 2 ^ k.toNat := by
  rw [BitVec.toNat_add, Nat.mod_mod_of_dvd _ (two_pow_dvd_two_pow_64 k)]

theorem add_ofNat_mod_window (x : DWord) (m : Nat) (k : BitVec 5) :
    (x + BitVec.ofNat 64 m).toNat % 2 ^ k.toNat = (x.toNat + m) % 2 ^ k.toNat := by
  rw [add_toNat_mod_window, BitVec.toNat_ofNat, ← Nat.add_mod_mod, Nat.mod_mod_of_dvd _ (two_pow_dvd_two_pow_64 k),
    Nat.add_mod_mod]

theorem copyPeriod_pos (k : Nat) (off : Word) : 0 < copyPeriod k off := by
  have := Nat.two_pow_pos k
  rw [copyPeriod]
  split <;> omega

theorem copyPeriod_le (k : Nat) (off : Word) : copyPeriod k off ≤ 2 ^ k := by
  have := Nat.mod_lt off.toNat (Nat.two_pow_pos k)
  rw [copyPeriod]
  split <;> omega

/-- The period is the offset, as far as the ring can tell. -/
theorem copyPeriod_modEq (k : Nat) (off : Word) : copyPeriod k off ≡ off.toNat [MOD 2 ^ k] := by
  rw [copyPeriod, Nat.ModEq]
  split
  · next hzero => rw [Nat.mod_self, hzero]
  · exact Nat.mod_mod _ _

/-- Going back by the offset is going forward by what the period lacks to the window size. -/
theorem sub_offset_mod_window (x : DWord) (off : Word) (k : BitVec 5) :
    (x - off.setWidth 64).toNat % 2 ^ k.toNat = (x.toNat + (2 ^ k.toNat - copyPeriod k.toNat off)) % 2 ^ k.toNat := by
  have hoff : (off.setWidth 64).toNat = off.toNat := BitVec.toNat_setWidth_of_le (by decide)
  have hback : (x - off.setWidth 64).toNat + off.toNat ≡ x.toNat [MOD 2 ^ k.toNat] := by
    have hadd := add_toNat_mod_window (x - off.setWidth 64) (off.setWidth 64) k
    rw [BitVec.sub_add_cancel, hoff] at hadd
    exact hadd.symm
  have hforth : x.toNat + (2 ^ k.toNat - copyPeriod k.toNat off) + copyPeriod k.toNat off ≡ x.toNat
      [MOD 2 ^ k.toNat] := by
    rw [Nat.add_assoc, Nat.sub_add_cancel (copyPeriod_le _ _)]
    exact Nat.add_modEq_right
  exact Nat.ModEq.add_right_cancel (copyPeriod_modEq _ off).symm (hback.trans hforth.symm)

/-- Where a copy reads after `n` bytes. -/
theorem add_sub_offset_mod_window (x : DWord) (n : Nat) (off : Word) (k : BitVec 5) :
    (x + BitVec.ofNat 64 n - off.setWidth 64).toNat % 2 ^ k.toNat =
      (x.toNat + (n + (2 ^ k.toNat - copyPeriod k.toNat off))) % 2 ^ k.toNat := by
  rw [sub_offset_mod_window, Nat.add_mod, add_ofNat_mod_window, ← Nat.add_mod, Nat.add_assoc]

/-- Cells nearer to each other than the window size are different cells. -/
theorem add_mod_ne_add_mod {base i j size : Nat} (hij : i < j) (hji : j < i + size) :
    (base + i) % size ≠ (base + j) % size := fun heq => by
  have hdvd : size ∣ base + j - (base + i) := (Nat.modEq_iff_dvd' (by omega)).1 heq
  have := Nat.le_of_dvd (by omega) hdvd
  omega

/-! ### Rounds of a copy (R121, R124) -/

/-- One round of a copy loop: the byte `off` behind the write position is emitted. -/
def Lz.copyRound (off : Word) (z : Lz) : Lz := z.emit (z.winBack off)

/-- The unit after `n` rounds. -/
def Lz.copyRounds (off : Word) (n : Nat) (z : Lz) : Lz := (Lz.copyRound off)^[n] z

/-- The byte that round `n` emits. -/
def Lz.roundByte (off : Word) (n : Nat) (z : Lz) : Byte := (z.copyRounds off n).winBack off

/-- How many bytes a copy of `len` bytes emits: as many as there is room for. -/
def Lz.fitting (z : Lz) (len : Nat) : Nat := min len (z.outCap.toNat - z.outLen.toNat)

@[simp] theorem Lz.copyRounds_zero (off : Word) (z : Lz) : z.copyRounds off 0 = z := rfl

/-- The last of the rounds. -/
theorem Lz.copyRounds_succ (off : Word) (n : Nat) (z : Lz) :
    z.copyRounds off (n + 1) = (z.copyRounds off n).emit (z.roundByte off n) := Function.iterate_succ_apply' ..

/-- Rounds after rounds. -/
theorem Lz.copyRounds_add (off : Word) (n m : Nat) (z : Lz) :
    z.copyRounds off (n + m) = (z.copyRounds off n).copyRounds off m := by
  rw [Nat.add_comm]
  exact Function.iterate_add_apply ..

/-- What the rounds change besides the two memories: the cursors. -/
theorem Lz.copyRounds_eq (off : Word) (n : Nat) (z : Lz) :
    z.copyRounds off n =
      { z with
        win := (z.copyRounds off n).win, out := (z.copyRounds off n).out
        outLen := z.outLen + BitVec.ofNat 32 n, wpos := z.wpos + BitVec.ofNat 64 n } := by
  induction n with
  | zero => simp
  | succ n ih =>
    rw [Lz.copyRounds_succ, BitVec.ofNat_add, BitVec.ofNat_add, ← BitVec.add_assoc, ← BitVec.add_assoc, Lz.emit, ih]
    rfl

section

variable (off : Word) (n : Nat) (z : Lz)

@[simp] theorem Lz.copyRounds_init : (z.copyRounds off n).init = z.init := by rw [Lz.copyRounds_eq]
@[simp] theorem Lz.copyRounds_k : (z.copyRounds off n).k = z.k := by rw [Lz.copyRounds_eq]
@[simp] theorem Lz.copyRounds_outDiscard : (z.copyRounds off n).outDiscard = z.outDiscard := by rw [Lz.copyRounds_eq]
@[simp] theorem Lz.copyRounds_ovOff : (z.copyRounds off n).ovOff = z.ovOff := by rw [Lz.copyRounds_eq]
@[simp] theorem Lz.copyRounds_ovLen : (z.copyRounds off n).ovLen = z.ovLen := by rw [Lz.copyRounds_eq]
@[simp] theorem Lz.copyRounds_wpos : (z.copyRounds off n).wpos = z.wpos + BitVec.ofNat 64 n := by rw [Lz.copyRounds_eq]
@[simp] theorem Lz.copyRounds_outLen : (z.copyRounds off n).outLen = z.outLen + BitVec.ofNat 32 n := by
  rw [Lz.copyRounds_eq]

end

/-- A byte fits where the loop goes on. -/
theorem Lz.fitting_succ (z : Lz) (len : Nat) (hroom : z.outLen < z.outCap) (b : Byte) :
    z.fitting (len + 1) = (z.emit b).fitting len + 1 := by
  rw [BitVec.lt_def] at hroom
  have hlen : (z.outLen + 1).toNat = z.outLen.toNat + 1 :=
    BitVec.toNat_add_of_lt (Nat.lt_of_le_of_lt hroom z.outCap.isLt)
  rw [Lz.fitting, Lz.fitting, Lz.emit_outCap, Lz.emit_outLen, hlen]
  omega

/-- The copy loop of R124 makes as many rounds as bytes fit. -/
theorem Lz.copyLoop_eq_copyRounds (off : Word) (len : Nat) (z : Lz) :
    z.copyLoop off len = (z.fitting len, z.copyRounds off (z.fitting len)) := by
  induction len generalizing z with
  | zero => simp [Lz.fitting]
  | succ len ih =>
    rw [Lz.copyLoop_succ]
    split
    · next hroom =>
      rw [ih, z.fitting_succ len hroom (z.winBack off)]
      rfl
    · next hfull =>
      have hle : z.outCap.toNat ≤ z.outLen.toNat := by simpa [BitVec.lt_def] using hfull
      have hnone : z.fitting (len + 1) = 0 := by rw [Lz.fitting]; omega
      rw [hnone]
      rfl

theorem Lz.fitting_le (z : Lz) (len : Nat) : z.fitting len ≤ len := Nat.min_le_left ..

/-- Bytes that fit stay within the numbers of the output cursor. -/
theorem Lz.outLen_add_fitting_lt (z : Lz) (len : Nat) : z.outLen.toNat + z.fitting len < 2 ^ 32 := by
  have := z.outLen.isLt
  have := z.outCap.isLt
  rw [Lz.fitting]
  omega

/-! ### The bytes of a copy depend on the window only (R125) -/

/-- Two units with the same window at the same write position. -/
def Lz.SameRing (z z' : Lz) : Prop := z.k = z'.k ∧ z.win = z'.win ∧ z.wpos = z'.wpos

theorem Lz.SameRing.trans {z z' z'' : Lz} (h : z.SameRing z') (h' : z'.SameRing z'') : z.SameRing z'' := by
  obtain ⟨hk, hwin, hwpos⟩ := h
  obtain ⟨hk', hwin', hwpos'⟩ := h'
  exact ⟨hk.trans hk', hwin.trans hwin', hwpos.trans hwpos'⟩

theorem Lz.SameRing.winBack {z z' : Lz} (h : z.SameRing z') (off : Word) : z.winBack off = z'.winBack off := by
  obtain ⟨hk, hwin, hwpos⟩ := h
  rw [Lz.winBack, Lz.winBack, Lz.backIndex_eq, Lz.backIndex_eq, hk, hwin, hwpos]

theorem Lz.SameRing.emit {z z' : Lz} (h : z.SameRing z') (b : Byte) : (z.emit b).SameRing (z'.emit b) := by
  obtain ⟨hk, hwin, hwpos⟩ := h
  refine ⟨hk, ?_, ?_⟩
  · rw [Lz.emit_win, Lz.emit_win, hk, hwin, hwpos]
  · rw [Lz.emit_wpos, Lz.emit_wpos, hwpos]

theorem Lz.SameRing.copyRounds {z z' : Lz} (h : z.SameRing z') (off : Word) (n : Nat) :
    (z.copyRounds off n).SameRing (z'.copyRounds off n) := by
  induction n with
  | zero => exact h
  | succ n ih =>
    rw [Lz.copyRounds_succ, Lz.copyRounds_succ, Lz.roundByte, ih.winBack off]
    exact ih.emit _

theorem Lz.SameRing.roundByte {z z' : Lz} (h : z.SameRing z') (off : Word) (n : Nat) :
    z.roundByte off n = z'.roundByte off n := (h.copyRounds off n).winBack off

/-- A copy cut after `n` rounds goes on where it stopped (R128). -/
theorem Lz.SameRing.resume {z z' : Lz} {off : Word} {n : Nat} (h : z'.SameRing (z.copyRounds off n)) (m : Nat) :
    (z'.copyRounds off m).SameRing (z.copyRounds off (n + m)) ∧ z'.roundByte off m = z.roundByte off (n + m) := by
  refine ⟨?_, ?_⟩
  · rw [Lz.copyRounds_add]
    exact h.copyRounds off m
  · rw [h.roundByte off m, Lz.roundByte, ← Lz.copyRounds_add, Lz.roundByte]

/-! ### What the rounds write (R121) -/

theorem Lz.copyRounds_win_wf (off : Word) (n : Nat) {z : Lz} (hwf : z.win.Wf) : (z.copyRounds off n).win.Wf := by
  induction n with
  | zero => exact hwf
  | succ n ih =>
    rw [Lz.copyRounds_succ, Lz.emit_win]
    exact Mem.write_wf _ _ _ ih

theorem Lz.copyRounds_out_wf (off : Word) (n : Nat) {z : Lz} (hwf : z.out.Wf) : (z.copyRounds off n).out.Wf := by
  induction n with
  | zero => exact hwf
  | succ n ih =>
    rw [Lz.copyRounds_succ, Lz.emit_out]
    split
    · exact ih
    · exact Mem.write_wf _ _ _ ih

/-- A discarding buffer gets no byte. -/
theorem Lz.copyRounds_out_of_discard (off : Word) (n : Nat) {z : Lz} (hdiscard : z.outDiscard = true) :
    (z.copyRounds off n).out = z.out := by
  induction n with
  | zero => rfl
  | succ n ih => rw [Lz.copyRounds_succ, Lz.emit_out, Lz.copyRounds_outDiscard, if_pos hdiscard, ih]

/-- A storing buffer gets the rounds' bytes behind its own, which stay. -/
theorem Lz.read_copyRounds_out (off : Word) (n : Nat) {z : Lz} (hwf : z.out.Wf) (hstore : z.outDiscard = false)
    (hfit : z.outLen.toNat + n < 2 ^ 32) (a : Nat) :
    (z.copyRounds off n).out.read a =
      if z.outLen.toNat ≤ a ∧ a < z.outLen.toNat + n then z.roundByte off (a - z.outLen.toNat)
      else z.out.read a := by
  induction n with
  | zero => rw [if_neg (by omega), Lz.copyRounds_zero]
  | succ n ih =>
    have hcursor : (z.outLen + BitVec.ofNat 32 n).toNat = z.outLen.toNat + n := by
      rw [BitVec.toNat_add, BitVec.toNat_ofNat]
      omega
    rw [Lz.copyRounds_succ, Lz.emit_out, Lz.copyRounds_outDiscard, hstore, if_neg Bool.false_ne_true,
      Mem.read_write _ _ _ _ (Lz.copyRounds_out_wf off n hwf), Lz.copyRounds_outLen, hcursor]
    split
    · next hnew => rw [if_pos (by omega), hnew, Nat.add_sub_cancel_left]
    · next hold =>
      rw [ih (by omega)]
      exact if_congr (by omega) rfl rfl

/-- The bytes a storing buffer gets. -/
theorem Lz.read_copyRounds_out_add (off : Word) {m n : Nat} {z : Lz} (hwf : z.out.Wf) (hstore : z.outDiscard = false)
    (hfit : z.outLen.toNat + n < 2 ^ 32) (hm : m < n) :
    (z.copyRounds off n).out.read (z.outLen.toNat + m) = z.roundByte off m := by
  rw [Lz.read_copyRounds_out off n hwf hstore hfit, if_pos (by omega), Nat.add_sub_cancel_left]

/-- The window after one more round. -/
theorem Lz.read_copyRounds_win_succ (off : Word) (n : Nat) {z : Lz} (hwf : z.win.Wf) (a : Nat) :
    (z.copyRounds off (n + 1)).win.read a =
      if a = (z.wpos + BitVec.ofNat 64 n).toNat % 2 ^ z.k.toNat then z.roundByte off n
      else (z.copyRounds off n).win.read a := by
  rw [Lz.copyRounds_succ, Lz.emit_win, Mem.read_write _ _ _ _ (Lz.copyRounds_win_wf off n hwf), Lz.copyRounds_wpos,
    Lz.copyRounds_k]

/-- A cell that no round wrote to stays. -/
theorem Lz.read_copyRounds_win_of_ne (off : Word) (n : Nat) {z : Lz} (hwf : z.win.Wf) {a : Nat}
    (ha : ∀ m, m < n → a ≠ (z.wpos + BitVec.ofNat 64 m).toNat % 2 ^ z.k.toNat) :
    (z.copyRounds off n).win.read a = z.win.read a := by
  induction n with
  | zero => rfl
  | succ n ih =>
    rw [Lz.read_copyRounds_win_succ off n hwf, if_neg (ha n (Nat.lt_succ_self n))]
    exact ih fun m hm => ha m (Nat.lt_succ_of_lt hm)

/-- The window's last cells hold the bytes of the last rounds. -/
theorem Lz.read_copyRounds_win_of_lt (off : Word) {m n : Nat} {z : Lz} (hwf : z.win.Wf) (hm : m < n)
    (hlast : n ≤ m + 2 ^ z.k.toNat) :
    (z.copyRounds off n).win.read ((z.wpos + BitVec.ofNat 64 m).toNat % 2 ^ z.k.toNat) = z.roundByte off m := by
  induction n with
  | zero => omega
  | succ n ih =>
    rw [Lz.read_copyRounds_win_succ off n hwf]
    obtain rfl | hmn : m = n ∨ m < n := by omega
    · exact if_pos rfl
    · rw [if_neg, ih hmn (by omega)]
      rw [add_ofNat_mod_window, add_ofNat_mod_window]
      exact add_mod_ne_add_mod hmn (by omega)

/-! ### The bytes repeat with the period (R124, R125) -/

/-- Where round `n` reads. -/
theorem Lz.roundByte_eq (off : Word) (n : Nat) (z : Lz) :
    z.roundByte off n =
      (z.copyRounds off n).win.read
        ((z.wpos + BitVec.ofNat 64 n - off.setWidth 64).toNat % 2 ^ z.k.toNat) := by
  rw [Lz.roundByte, Lz.winBack, Lz.backIndex_eq, Lz.copyRounds_wpos, Lz.copyRounds_k]

/-- In the first period a round reads a cell that no round wrote to, later the byte of one period before. -/
theorem Lz.roundByte_eq_copiedByte (off : Word) (n : Nat) {z : Lz} (hwf : z.win.Wf) :
    z.roundByte off n = copiedByte z off n := by
  induction n using Nat.strong_induction_on with
  | _ n ih =>
  have hpos := copyPeriod_pos z.k.toNat off
  have hle := copyPeriod_le z.k.toNat off
  rw [Lz.roundByte_eq, copiedByte]
  by_cases hfirst : n < copyPeriod z.k.toNat off
  · rw [Nat.mod_eq_of_lt hfirst]
    refine Lz.read_copyRounds_win_of_ne off n hwf fun m hm => ?_
    rw [add_sub_offset_mod_window, add_ofNat_mod_window]
    exact (add_mod_ne_add_mod (by omega) (by omega)).symm
  · have hearlier : (z.wpos + BitVec.ofNat 64 n - off.setWidth 64).toNat % 2 ^ z.k.toNat =
        (z.wpos + BitVec.ofNat 64 (n - copyPeriod z.k.toNat off)).toNat % 2 ^ z.k.toNat := by
      rw [add_sub_offset_mod_window, add_ofNat_mod_window,
        ← Nat.add_mod_right (z.wpos.toNat + (n - copyPeriod z.k.toNat off)), Nat.add_assoc]
      congr 2
      omega
    rw [hearlier, Lz.read_copyRounds_win_of_lt off hwf (by omega) (by omega), ih _ (by omega), copiedByte,
      Nat.mod_eq_sub_mod (Nat.not_lt.1 hfirst)]

/-! ### The two commands that copy (R127, R128) -/

/-- How many bytes of a copy of `len` bytes stay an overhang. -/
def Lz.owed (z : Lz) (len : Nat) : Nat := len - z.fitting len

/-- The answer of a copy of `len` bytes: those that fit are done, the others are the overhang. Without one the overhang's
offset is `spare`. -/
def State.copyAnswer (s : State) (off : Word) (len : Nat) (spare : Word) : State :=
  (s.setLz
    { s.lz.copyRounds off (s.lz.fitting len) with
      ovOff := if s.lz.owed len = 0 then spare else off, ovLen := BitVec.ofNat 32 (s.lz.owed len) }).respond
    .ok (BitVec.ofNat 64 (s.lz.fitting len)) (BitVec.ofNat 32 (s.lz.owed len))

theorem Lz.owed_lt (z : Lz) (length : Word) : z.owed length.toNat < 2 ^ 32 :=
  Nat.lt_of_le_of_lt (Nat.sub_le ..) length.isLt

/-- What is left of a 32-bit length is 0 as a word only if it is 0. -/
theorem Lz.ofNat_owed_eq_zero_iff (z : Lz) (length : Word) :
    BitVec.ofNat 32 (z.owed length.toNat) = 0 ↔ z.owed length.toNat = 0 := by
  rw [← BitVec.toNat_inj, BitVec.toNat_ofNat, Nat.mod_eq_of_lt (z.owed_lt length)]
  rfl

/-- Without a window neither command copies. -/
theorem exec_lzCopy_of_not_init (offset length : Word) {s : State} (hinit : s.lz.init = false) :
    exec (.lzCopy offset length) s = .next (s.fail .notReady) := by
  show execLzCopy offset length s = _
  rw [execLzCopy, hinit]
  rfl

theorem exec_lzDrain_of_not_init {s : State} (hinit : s.lz.init = false) :
    exec .lzDrain s = .next (s.fail .notReady) := by
  show execLzDrain s = _
  rw [execLzDrain, hinit]
  rfl

/-- A pending overhang comes before any new copy. -/
theorem exec_lzCopy_of_overhang (offset length : Word) {s : State} (hinit : s.lz.init = true) (hov : s.lz.ovLen ≠ 0) :
    exec (.lzCopy offset length) s = .next (s.fail .overhangPending) := by
  show execLzCopy offset length s = _
  rw [execLzCopy, hinit, Lz.hasOverhang_eq_decide, decide_eq_true hov]
  rfl

/-- With a window and no overhang `LZ.COPY` copies. -/
theorem exec_lzCopy (offset length : Word) {s : State} (hinit : s.lz.init = true) (hov : s.lz.ovLen = 0) :
    exec (.lzCopy offset length) s = .next (s.copyAnswer offset length.toNat s.lz.ovOff) := by
  show execLzCopy offset length s = _
  rw [execLzCopy, hinit, Lz.hasOverhang_eq_decide, decide_eq_false (not_not_intro hov), Lz.copyLoop_eq_copyRounds,
    State.copyAnswer]
  dsimp only
  by_cases hall : s.lz.owed length.toNat = 0
  · have hkept : { s.lz.copyRounds offset (s.lz.fitting length.toNat) with ovOff := s.lz.ovOff, ovLen := 0 } =
        s.lz.copyRounds offset (s.lz.fitting length.toNat) := by
      rw [← hov, ← Lz.copyRounds_ovOff offset (s.lz.fitting length.toNat) s.lz,
        ← Lz.copyRounds_ovLen offset (s.lz.fitting length.toNat) s.lz]
    rw [if_neg (Nat.not_lt.2 (Nat.sub_eq_zero_iff_le.1 hall)), if_pos hall, hall, ← hkept, ← Lz.owed, hall]
    rfl
  · rw [if_pos (Nat.lt_of_sub_ne_zero hall), if_neg hall]
    rfl

/-- With a window `LZ.DRAIN` copies what is pending. -/
theorem exec_lzDrain {s : State} (hinit : s.lz.init = true) :
    exec .lzDrain s = .next (s.copyAnswer s.lz.ovOff s.lz.ovLen.toNat 0) := by
  show execLzDrain s = _
  rw [execLzDrain, hinit, State.copyAnswer, Lz.copyLoop_eq_copyRounds]
  simp only [← Lz.ofNat_owed_eq_zero_iff]
  rfl

/-- `LZ.COPY` fails or copies. -/
theorem exec_lzCopy_cases {offset length : Word} {s t : State} (h : exec (.lzCopy offset length) s = .next t) :
    t = s.fail .notReady ∨ t = s.fail .overhangPending ∨
      (s.lz.init = true ∧ s.lz.ovLen = 0 ∧ t = s.copyAnswer offset length.toNat s.lz.ovOff) := by
  by_cases hinit : s.lz.init = true
  · by_cases hov : s.lz.ovLen = 0
    · rw [exec_lzCopy offset length hinit hov] at h
      cases h
      exact .inr (.inr ⟨hinit, hov, rfl⟩)
    · rw [exec_lzCopy_of_overhang offset length hinit hov] at h
      cases h
      exact .inr (.inl rfl)
  · rw [exec_lzCopy_of_not_init offset length (Bool.eq_false_iff.2 hinit)] at h
    cases h
    exact .inl rfl

section

variable (s : State) (off : Word) (len : Nat) (spare : Word)

@[simp] theorem State.copyAnswer_win :
    (s.copyAnswer off len spare).lz.win = (s.lz.copyRounds off (s.lz.fitting len)).win := rfl
@[simp] theorem State.copyAnswer_wpos :
    (s.copyAnswer off len spare).lz.wpos = (s.lz.copyRounds off (s.lz.fitting len)).wpos := rfl
@[simp] theorem State.copyAnswer_out :
    (s.copyAnswer off len spare).lz.out = (s.lz.copyRounds off (s.lz.fitting len)).out := rfl
@[simp] theorem State.copyAnswer_outLen :
    (s.copyAnswer off len spare).lz.outLen = (s.lz.copyRounds off (s.lz.fitting len)).outLen := rfl
@[simp] theorem State.copyAnswer_ovLen :
    (s.copyAnswer off len spare).lz.ovLen = BitVec.ofNat 32 (s.lz.owed len) := rfl

/-- The window after a copy is that after its rounds. -/
theorem State.copyAnswer_sameRing :
    (s.copyAnswer off len spare).lz.SameRing (s.lz.copyRounds off (s.lz.fitting len)) := ⟨rfl, rfl, rfl⟩

end

/-- The bytes done fit the response register. -/
@[simp] theorem State.copyAnswer_r0_toNat (s : State) (off length spare : Word) :
    (s.copyAnswer off length.toNat spare).rsp.r0.toNat = s.lz.fitting length.toNat := by
  have hle := s.lz.fitting_le length.toNat
  have := length.isLt
  show (BitVec.ofNat 64 (s.lz.fitting length.toNat)).toNat = _
  rw [BitVec.toNat_ofNat]
  omega

/-- The bytes left too. -/
@[simp] theorem State.copyAnswer_r1_toNat (s : State) (off length spare : Word) :
    (s.copyAnswer off length.toNat spare).rsp.r1.toNat = s.lz.owed length.toNat := by
  show (BitVec.ofNat 32 (s.lz.owed length.toNat)).toNat = _
  rw [BitVec.toNat_ofNat, Nat.mod_eq_of_lt (s.lz.owed_lt length)]

/-- What a copy is besides the bytes it writes. -/
theorem State.copyAnswer_eq (s : State) (off : Word) (len : Nat) (spare : Word) :
    ∃ z : Lz,
      s.copyAnswer off len spare =
        (s.setLz z).respond .ok (BitVec.ofNat 64 (s.lz.fitting len)) (BitVec.ofNat 32 (s.lz.owed len)) ∧
      z =
        { s.lz with
          win := z.win, out := z.out
          outLen := BitVec.ofNat 32 (s.lz.outLen.toNat + s.lz.fitting len)
          wpos := s.lz.wpos + BitVec.ofNat 64 (s.lz.fitting len)
          ovOff := if s.lz.owed len = 0 then spare else off
          ovLen := BitVec.ofNat 32 (s.lz.owed len) } := by
  refine ⟨_, rfl, ?_⟩
  rw [BitVec.ofNat_add, BitVec.ofNat_toNat, BitVec.setWidth_eq]
  conv_lhs => rw [Lz.copyRounds_eq]

/-- Settles O47: a copy makes as many rounds as bytes fit, and a legal state without an overhang has offset 0. -/
theorem lzCopyAndDrainCounts : Obligations.LzCopyAndDrainCounts := by
  refine ⟨encodedAs_row _, fun offset length s => ⟨encodedAs_row _, fun hinit => ?_,
    fun hinit hov => exec_lzCopy_of_overhang offset length hinit hov, ?_, ?_⟩⟩
  · exact ⟨exec_lzCopy_of_not_init offset length hinit, exec_lzDrain_of_not_init hinit⟩
  · rintro ⟨-, -, hoff, -⟩ hinit hov _ _ rfl rfl
    rw [exec_lzCopy offset length hinit hov, hoff hov]
    obtain ⟨z, hz, hcounts⟩ := s.copyAnswer_eq offset length.toNat 0
    exact ⟨z, congrArg _ hz, hcounts⟩
  · rintro - hinit _ _ rfl rfl
    rw [exec_lzDrain hinit]
    obtain ⟨z, hz, hcounts⟩ := s.copyAnswer_eq s.lz.ovOff s.lz.ovLen.toNat 0
    exact ⟨z, congrArg _ hz, hcounts⟩

/-- Settles O48: each round emits the byte of the window as it was at its place in the period. -/
theorem copiesRepeatPeriodically : Obligations.CopiesRepeatPeriodically := by
  intro i offset length s t hmem hinit hi hexec
  obtain ⟨-, ⟨⟨hwin, -⟩, hout, -⟩, -⟩ := s.memoriesOk_iff.1 hmem
  obtain ⟨len, spare, rfl⟩ : ∃ (len spare : Word), t = s.copyAnswer offset len.toNat spare := by
    obtain ⟨rfl, hov⟩ | ⟨rfl, rfl⟩ := hi
    · rw [exec_lzCopy offset length hinit hov] at hexec
      cases hexec
      exact ⟨_, _, rfl⟩
    · rw [exec_lzDrain hinit] at hexec
      cases hexec
      exact ⟨_, _, rfl⟩
  have hfit := s.lz.outLen_add_fitting_lt len.toNat
  rw [State.copyAnswer_r0_toNat, State.copyAnswer_out, State.copyAnswer_win]
  refine ⟨fun m hm hstore => ?_, fun a ha => ?_, fun m hm hlast => ?_, fun a ha => ?_⟩
  · rw [Lz.read_copyRounds_out_add offset hout hstore hfit hm, Lz.roundByte_eq_copiedByte offset m hwin]
  · cases hstore : s.lz.outDiscard with
    | true => rw [Lz.copyRounds_out_of_discard offset _ hstore]
    | false =>
      rw [hstore] at ha
      have hold := ha.resolve_left Bool.false_ne_true
      rw [Lz.read_copyRounds_out offset _ hout hstore hfit, if_neg (by omega)]
  · rw [Lz.read_copyRounds_win_of_lt offset hwin hm hlast, Lz.roundByte_eq_copiedByte offset m hwin]
  · exact Lz.read_copyRounds_win_of_ne offset _ hwin ha

/-! ### Windows and buffers (R122, R123) -/

/-- The unit with a new output buffer (R123). -/
def Lz.renewed (z : Lz) (flags : Byte) (cap : Word) : Lz :=
  { z with outCap := cap, outLen := 0, outDiscard := decide (flags = 1), out := [] }

/-- Legal flags are their `DISCARD` bit. -/
theorem getLsbD_zero_of_le_one {flags : Byte} (h : flags.toNat ≤ 1) : flags.getLsbD 0 = decide (flags = 1) := by
  obtain rfl | rfl : flags = 0 ∨ flags = 1 := by
    rw [← BitVec.toNat_inj, ← BitVec.toNat_inj]
    exact Nat.le_one_iff_eq_zero_or_eq_one.1 h
  · rfl
  · rfl

/-- With legal flags `LZ.SETOUT` makes a new buffer. -/
theorem exec_lzSetout {flags : Byte} (hflags : flags.toNat ≤ 1) (cap : Word) (s : State) :
    exec (.lzSetout flags cap) s = .next ((s.setLz (s.lz.renewed flags cap)).respond .ok 0 0) := by
  have hcheck : outFlagsOk flags = true := decide_eq_true hflags
  show execLzSetout flags cap s = _
  rw [execLzSetout, hcheck, getLsbD_zero_of_le_one hflags]
  rfl

/-- Settles O45: the window exponents of R5 fit `lz.k`, and legal flags are their `DISCARD` bit. -/
theorem lzInitAndSetout : Obligations.LzInitAndSetout := by
  refine fun k flags cap s => ⟨encodedAs_row _, encodedAs_row _, fun hlarge => ?_, fun hlegal hk => ?_,
    fun hbad => ?_, fun hflags => exec_lzSetout hflags cap s⟩
  · exact exec_of_not_wellFormed (decide_eq_false (Nat.not_le.2 hlarge) : windowExponentOk s.params k = false)
  · obtain ⟨-, -, -, -, hmax, -⟩ := hlegal
    have hcheck : windowExponentOk s.params k = true := decide_eq_true hk
    have hexec : execLzInit k s = .next ((s.setLz
        { s.lz with init := true, k := k.setWidth 5, win := [], wpos := 0, ovOff := 0, ovLen := 0 }).respond
          .ok 0 0) := by
      rw [execLzInit, hcheck]
      rfl
    have hk5 : (k.setWidth 5).toNat = k.toNat := by
      rw [BitVec.toNat_setWidth]
      exact Nat.mod_eq_of_lt (by omega)
    exact ⟨_, hexec, rfl, hk5, Mem.read_nil, rfl, rfl, rfl, rfl, rfl, rfl, rfl⟩
  · exact exec_of_not_wellFormed (decide_eq_false (Nat.not_le.2 hbad) : outFlagsOk flags = false)

/-! ### Literals (R126) -/

/-- The checks of `LZ.LIT`, on numbers. -/
theorem exec_lzLit (b : Byte) (s : State) :
    exec (.lzLit b) s =
      .next
        (if !s.lz.init then s.fail .notReady
        else if s.lz.ovLen ≠ 0 then s.fail .overhangPending
        else if s.lz.outLen = s.lz.outCap then s.fail .outFull
        else (s.setLz (s.lz.emit b)).respond .ok 1 0) := by
  show execLzLit b s = _
  simp only [execLzLit, Lz.hasOverhang_eq_decide, Lz.outFull_eq_decide, decide_eq_true_eq]

/-- Settles O46: the checks in R126's order, then one byte of R121. -/
theorem lzLitEmitsOneByte : Obligations.LzLitEmitsOneByte := by
  refine fun b s => ⟨encodedAs_row _, fun hinit => ?_, fun hinit hov => ?_, fun hinit hov hfull => ?_,
    fun hmem hinit hov hroom => ⟨s.lz.emit b, ?_, fun a => ?_, fun a => ?_, rfl⟩⟩
  · rw [exec_lzLit, hinit]
    rfl
  · rw [exec_lzLit, hinit, if_pos hov]
    rfl
  · rw [exec_lzLit, hinit, if_neg (not_not_intro hov), if_pos hfull]
    rfl
  · rw [exec_lzLit, hinit, if_neg (not_not_intro hov), if_neg hroom]
    rfl
  · obtain ⟨-, ⟨⟨hwin, -⟩, -⟩, -⟩ := s.memoriesOk_iff.1 hmem
    rw [Lz.emit_win, Mem.read_write _ _ _ _ hwin]
  · obtain ⟨-, ⟨-, hout, -⟩, -⟩ := s.memoriesOk_iff.1 hmem
    rw [Lz.emit_out]
    cases s.lz.outDiscard with
    | true => rw [if_pos rfl, if_neg fun hstores => Bool.noConfusion hstores.1]
    | false => simp only [Bool.false_eq_true, if_false, true_and, Mem.read_write _ _ _ _ hout]

/-! ### Readers (R129 to R133) -/

/-- With a window `LZ.WINRD` reads the byte a copy would read first. -/
theorem exec_lzWinrd (offset : Word) {s : State} (hinit : s.lz.init = true) :
    exec (.lzWinrd offset) s = .next (s.respond .ok ((s.lz.winBack offset).setWidth 64) 0) := by
  show execLzWinrd offset s = _
  rw [execLzWinrd, hinit]
  rfl

/-- A copy of one byte that fits appends the byte at the offset. -/
theorem read_out_of_lzCopy_one {offset : Word} {s t : State} (hmem : s.MemoriesOk) (hstore : s.lz.outDiscard = false)
    (h : exec (.lzCopy offset 1) s = .next t) (hone : t.rsp.r0 = 1) :
    t.lz.out.read s.lz.outLen.toNat = s.lz.winBack offset := by
  obtain ⟨-, ⟨-, hout, -⟩, -⟩ := s.memoriesOk_iff.1 hmem
  obtain rfl | rfl | ⟨-, -, rfl⟩ := exec_lzCopy_cases h
  · cases hone
  · cases hone
  · have hdone := s.copyAnswer_r0_toNat offset 1 s.lz.ovOff
    rw [hone] at hdone
    have hfit := s.lz.outLen_add_fitting_lt (1 : Word).toNat
    exact Lz.read_copyRounds_out_add offset (m := 0) hout hstore hfit (hdone ▸ Nat.one_pos)

/-- Settles O50: `LZ.WINRD` and the first round of a copy read the same cell. -/
theorem lzReaders : Obligations.LzReaders := by
  refine ⟨encodedAs_row _, encodedAs_row _, encodedAs_row _, fun index offset s => ⟨encodedAs_row _, encodedAs_row _,
    ?_, rfl, rfl, fun hbad => ?_, fun hstore hindex => ?_, fun hinit => ?_, fun hinit => ?_,
    fun t hmem hinit hstore hcopy hone => ?_⟩⟩
  · show Host.Outcome.next (s.respond .ok (if s.lz.hasOverhang then 1 else 0) s.lz.ovLen) = _
    simp only [Lz.hasOverhang_eq_decide, decide_eq_true_eq]
  · refine congrArg _ (if_pos ?_)
    rwa [Bool.or_eq_true, decide_eq_true_iff]
  · refine congrArg _ (if_neg ?_)
    rw [hstore, Bool.false_or, decide_eq_true_iff]
    exact Nat.not_le.2 hindex
  · show execLzWinrd offset s = _
    rw [execLzWinrd, hinit]
    rfl
  · rw [exec_lzWinrd offset hinit, Lz.winBack, Lz.backIndex_eq]
  · rw [exec_lzWinrd offset hinit, read_out_of_lzCopy_one hmem hstore hcopy hone]

/-! ### Copies over two buffers (R128, R187) -/

/-- What fits and what is owed make up the copy. -/
theorem Lz.fitting_add_owed (z : Lz) (len : Nat) : z.fitting len + z.owed len = len :=
  Nat.add_sub_cancel' (z.fitting_le len)

/-- The unit with another capacity. -/
def Lz.enlarged (z : Lz) (cap : Word) : Lz := { z with outCap := cap }

theorem Lz.enlarged_sameRing (z : Lz) (cap : Word) : (z.enlarged cap).SameRing z := ⟨rfl, rfl, rfl⟩

/-- With room for all of it a copy makes all its rounds and owes nothing. -/
theorem exec_lzCopy_enlarged {offset length cap : Word} {s t : State}
    (hroom : s.lz.outLen.toNat + length.toNat ≤ cap.toNat)
    (h : exec (.lzCopy offset length) (s.setLz (s.lz.enlarged cap)) = .next t) (hok : t.rsp.status = .ok) :
    s.lz.init = true ∧ s.lz.ovLen = 0 ∧ t.lz.SameRing (s.lz.copyRounds offset length.toNat) ∧ t.lz.ovLen = 0 ∧
      t.lz.out = ((s.lz.enlarged cap).copyRounds offset length.toNat).out := by
  have hall : (s.setLz (s.lz.enlarged cap)).lz.fitting length.toNat = length.toNat :=
    Nat.min_eq_left (Nat.le_sub_of_add_le' hroom)
  obtain rfl | rfl | ⟨hinit, hov, rfl⟩ := exec_lzCopy_cases h
  · cases hok
  · cases hok
  · have hring := (s.setLz (s.lz.enlarged cap)).copyAnswer_sameRing offset length.toNat (s.lz.enlarged cap).ovOff
    rw [hall] at hring
    rw [State.copyAnswer_ovLen, State.copyAnswer_out, Lz.owed, hall, Nat.sub_self]
    exact ⟨hinit, hov, hring.trans ((s.lz.enlarged_sameRing cap).copyRounds offset _), rfl, rfl⟩

/-- A drain that leaves no overhang makes all rounds of what was pending. -/
theorem exec_lzDrain_of_drained {s t : State} (hinit : s.lz.init = true) (h : exec .lzDrain s = .next t)
    (hdrained : t.lz.ovLen = 0) :
    t.lz.SameRing (s.lz.copyRounds s.lz.ovOff s.lz.ovLen.toNat) ∧
      t.lz.outLen = (s.lz.copyRounds s.lz.ovOff s.lz.ovLen.toNat).outLen ∧
      t.lz.out = (s.lz.copyRounds s.lz.ovOff s.lz.ovLen.toNat).out := by
  rw [exec_lzDrain hinit] at h
  cases h
  have hall := s.lz.fitting_add_owed s.lz.ovLen.toNat
  rw [(s.lz.ofNat_owed_eq_zero_iff _).1 hdrained, Nat.add_zero] at hall
  have hring := s.copyAnswer_sameRing s.lz.ovOff s.lz.ovLen.toNat 0
  rw [State.copyAnswer_outLen, State.copyAnswer_out]
  rw [hall] at hring ⊢
  exact ⟨hring, rfl, rfl⟩

/-- The unit a copy leaves to the next buffer. -/
def State.carried (s : State) (offset length : Word) (flags : Byte) (cap : Word) : Lz :=
  (s.copyAnswer offset length.toNat s.lz.ovOff).lz.renewed flags cap

section Carried

variable (s : State) (offset length : Word) (flags : Byte) (cap : Word)

theorem State.carried_sameRing :
    (s.carried offset length flags cap).SameRing (s.lz.copyRounds offset (s.lz.fitting length.toNat)) :=
  ⟨rfl, rfl, rfl⟩

theorem State.carried_outLen : (s.carried offset length flags cap).outLen = 0#32 := rfl

theorem State.carried_ovLen_toNat : (s.carried offset length flags cap).ovLen.toNat = s.lz.owed length.toNat :=
  s.copyAnswer_r1_toNat offset length s.lz.ovOff

/-- What is pending is pending with the copy's offset, or is nothing. -/
theorem State.copyRounds_carried (z : Lz) :
    z.copyRounds (s.carried offset length flags cap).ovOff (s.lz.owed length.toNat) =
      z.copyRounds offset (s.lz.owed length.toNat) := by
  by_cases hnone : s.lz.owed length.toNat = 0
  · rw [hnone]
    rfl
  · exact congrArg (fun off => z.copyRounds off (s.lz.owed length.toNat)) (if_neg hnone)

/-- The next buffer, when it stores, gets the bytes of the rounds that the first had no room for. -/
theorem State.read_copyRounds_carried {k : Nat} (hk : k < s.lz.owed length.toNat) :
    ((s.carried offset length 0 cap).copyRounds offset (s.lz.owed length.toNat)).out.read k =
      s.lz.roundByte offset (s.lz.fitting length.toNat + k) := by
  have hfit : (s.carried offset length 0 cap).outLen.toNat + s.lz.owed length.toNat < 2 ^ 32 := by
    rw [State.carried_outLen, BitVec.toNat_zero, Nat.zero_add]
    exact s.lz.owed_lt length
  obtain ⟨-, hbyte⟩ := (s.carried_sameRing offset length 0 cap).resume k
  have hread := Lz.read_copyRounds_out_add offset (Mem.within_nil 0).1 rfl hfit hk
  rw [State.carried_outLen, BitVec.toNat_zero, Nat.zero_add] at hread
  exact hread.trans hbyte

end Carried

/-- A copy, a new buffer and a drain that leaves no overhang make the rounds of the whole copy, the second buffer getting
those the first had no room for. -/
theorem exec_lzDrain_carried {offset length cap : Word} {flags : Byte} {s t : State} (hinit : s.lz.init = true)
    (h : exec .lzDrain (((s.copyAnswer offset length.toNat s.lz.ovOff).setLz
      (s.carried offset length flags cap)).respond .ok 0 0) = .next t)
    (hdrained : t.lz.ovLen = 0) :
    t.lz.SameRing (s.lz.copyRounds offset length.toNat) ∧ t.lz.outLen.toNat = s.lz.owed length.toNat ∧
      t.lz.out = ((s.carried offset length flags cap).copyRounds offset (s.lz.owed length.toNat)).out := by
  obtain ⟨hring, hlen, hout⟩ := exec_lzDrain_of_drained ((s.lz.copyRounds_init offset _).trans hinit) h hdrained
  simp only [State.respond_lz, State.setLz_lz, State.carried_ovLen_toNat, State.copyRounds_carried] at hring hlen hout
  obtain ⟨hresume, -⟩ := (s.carried_sameRing offset length flags cap).resume (s.lz.owed length.toNat)
  rw [Lz.fitting_add_owed] at hresume
  refine ⟨hring.trans hresume, ?_, hout⟩
  rw [hlen, Lz.copyRounds_outLen, State.carried_outLen, BitVec.zero_add, BitVec.toNat_ofNat,
    Nat.mod_eq_of_lt (s.lz.owed_lt length)]

/-- Settles O49: the first buffer takes the first rounds of the large one and the second the rest, for the bytes depend
on the window only. -/
theorem chunkingInvariance : Obligations.ChunkingInvariance := by
  intro offset length cap cap2 flags s a b c d hmem _ hflags hcap hd hok ha hb hc hdrained
  obtain ⟨-, ⟨-, hout, -⟩, -⟩ := s.memoriesOk_iff.1 hmem
  obtain ⟨hinit, hov, ⟨-, hwin, hwpos⟩, hnone, houtLarge⟩ := exec_lzCopy_enlarged hcap hd hok
  rw [exec_lzCopy offset length hinit hov] at ha
  cases ha
  rw [exec_lzSetout hflags] at hb
  cases hb
  obtain ⟨⟨-, hwin2, hwpos2⟩, hlen2, hout2⟩ := exec_lzDrain_carried hinit hc hdrained
  rw [State.copyAnswer_r0_toNat, State.copyAnswer_r1_toNat, State.copyAnswer_out, houtLarge, hout2]
  refine ⟨hwin2.trans hwin.symm, hwpos2.trans hwpos.symm, hnone, hlen2, ?_⟩
  rintro hstore rfl m hm
  have hlarge : ((s.lz.enlarged cap).copyRounds offset length.toNat).out.read (s.lz.outLen.toNat + m) =
      s.lz.roundByte offset m :=
    (Lz.read_copyRounds_out_add offset (z := s.lz.enlarged cap) hout hstore (Nat.lt_of_le_of_lt hcap cap.isLt)
      hm).trans ((s.lz.enlarged_sameRing cap).roundByte offset m)
  rw [hlarge]
  split
  · next hfirst =>
    rw [Lz.read_copyRounds_out_add offset hout hstore (s.lz.outLen_add_fitting_lt _) hfirst]
  · next hsecond =>
    obtain ⟨k, rfl⟩ := Nat.exists_eq_add_of_le (Nat.not_lt.1 hsecond)
    have hk : k < s.lz.owed length.toNat := by
      have := s.lz.fitting_add_owed length.toNat
      omega
    rw [Nat.add_sub_cancel_left, s.read_copyRounds_carried offset length cap2 hk]

end Sys2Proof.Machine
end

section
/-! The Filter unit's checks, answers and byte access, case by case (44_filters.md R140, R142 to R144). -/

namespace Sys2Proof.Machine

/-! ### Byte access (R143, R144) -/

/-- Below `FLT_MEM_SIZE` `FLT.WR` writes its byte. -/
theorem exec_fltWr {addr : Word} {s : State} (haddr : addr.toNat < s.params.fltMemSize) (b : Byte) :
    exec (.fltWr addr b) s = .next ((s.setFmem (s.flt.mem.write addr.toNat b)).respond .ok 0 0) := by
  have hcheck : fmemAddrOk s.params addr = true := decide_eq_true haddr
  show execFltWr addr b s = _
  rw [execFltWr, hcheck]
  rfl

/-- Below `FLT_MEM_SIZE` `FLT.RD` answers the byte. -/
theorem exec_fltRd {addr : Word} {s : State} (haddr : addr.toNat < s.params.fltMemSize) :
    exec (.fltRd addr) s = .next (s.respond .ok ((s.flt.mem.read addr.toNat).setWidth 64) 0) := by
  have hcheck : fmemAddrOk s.params addr = true := decide_eq_true haddr
  show execFltRd addr s = _
  rw [execFltRd, hcheck]
  rfl

/-- Settles O51: past the address check a write to canonical memory is read back at its address only. -/
theorem fltByteAccess : Obligations.FltByteAccess := by
  refine fun addr b s => ⟨encodedAs_row _, encodedAs_row _, fun hout => ?_, exec_fltRd, fun hmem haddr => ?_⟩
  · have hill : fmemAddrOk s.params addr = false := decide_eq_false (Nat.not_lt.2 hout)
    exact ⟨exec_of_not_wellFormed hill, exec_of_not_wellFormed hill⟩
  · obtain ⟨-, -, ⟨hwf, -⟩, -⟩ := s.memoriesOk_iff.1 hmem
    exact ⟨_, exec_fltWr haddr b, fun a => Mem.read_write _ _ _ _ hwf⟩

/-! ### The predictive transforms (R140, R142) -/

theorem channelsOk_eq_true {channels : Word} (h : channels ≠ 0) : channelsOk channels = true := by
  have hpos : channels.toNat ≠ 0 := fun hzero => h (BitVec.eq_of_toNat_eq hzero)
  exact decide_eq_true (Nat.pos_of_ne_zero hpos)

section Predictive

variable {pos len channels stride : Word} {posr : Byte} {s : State}

/-- Within its bounds `FLT.DELTA` answers its transform. -/
theorem exec_fltDelta (hchannels : channels ≠ 0) (hlen : len.toNat ≤ s.params.fltMemSize / 2) :
    exec (.fltDelta pos len channels) s =
      .next ((s.setFmem (deltaTransform len.toNat channels.toNat s.flt.mem)).respond .ok (len.setWidth 64) len) := by
  have hfit : twoSlicesFit s.params len.toNat = true := decide_eq_true hlen
  show execFltDelta pos len channels s = _
  rw [execFltDelta, channelsOk_eq_true hchannels, hfit]
  rfl

/-- Within its bounds `FLT.AUDIO` answers its transform. -/
theorem exec_fltAudio (hchannels : channels ≠ 0) (hlen : len.toNat ≤ s.params.fltMemSize / 2) :
    exec (.fltAudio pos len channels) s =
      .next ((s.setFmem (audioTransform len.toNat channels.toNat s.flt.mem)).respond .ok (len.setWidth 64) len) := by
  have hfit : twoSlicesFit s.params len.toNat = true := decide_eq_true hlen
  show execFltAudio pos len channels s = _
  rw [execFltAudio, channelsOk_eq_true hchannels, hfit]
  rfl

/-- Within its bounds `FLT.RGB` answers its transform. -/
theorem exec_fltRgb (hposr : posr.toNat ≤ 2) (hlen : len.toNat ≤ s.params.fltMemSize / 2) (hpixel : 3 ≤ stride.toNat)
    (hrow : stride.toNat ≤ len.toNat) :
    exec (.fltRgb pos len stride posr) s =
      .next ((s.setFmem (rgbTransform len.toNat stride.toNat posr.toNat s.flt.mem)).respond .ok (len.setWidth 64)
        len) := by
  have hcheck : posrOk posr = true := decide_eq_true hposr
  have hfit : (twoSlicesFit s.params len.toNat && strideOk len.toNat stride.toNat) = true := by
    simp [twoSlicesFit, strideOk, hlen, hpixel, hrow]
  show execFltRgb pos len stride posr s = _
  rw [execFltRgb, hcheck, hfit]
  rfl

end Predictive

/-- Settles O53: what each transform writes lies in its output slice. -/
theorem predictiveTransformsWriteTheirOutputSlice : Obligations.PredictiveTransformsWriteTheirOutputSlice := by
  refine fun pos len c r s => ⟨⟨encodedAs_row _, encodedAs_row _, encodedAs_row _⟩, ?_⟩
  rintro i (⟨hc, rfl | rfl⟩ | ⟨rfl, hposr, hpixel, hrow⟩) hlen
  · exact ⟨_, exec_fltDelta hc hlen, (deltaTransform_writes _ _ _).1⟩
  · exact ⟨_, exec_fltAudio hc hlen, (audioTransform_writes _ _ _).1⟩
  · exact ⟨_, exec_fltRgb hposr hlen hpixel hrow, (rgbTransform_writes _ _ _ _).1⟩

/-! ### The address transforms (R140, R142) -/

section InPlace

variable {pos len : Word} {s : State} (m : Mem)

/-- Within its bounds an in-place transform answers its memory. -/
theorem State.inPlace_ok (hfit : len.toNat ≤ s.params.fltMemSize) (hoperand : 4 ≤ len.toNat)
    (hpos : pos.toNat + len.toNat ≤ 0x80000000) : s.inPlace pos len m = (s.setFmem m).respond .ok 0 len := by
  simp [State.inPlace, oneSliceFits, positionOk, hfit, hoperand, hpos]

/-- A slice that does not fit, or holds no operand. -/
theorem State.inPlace_badLength (h : s.params.fltMemSize < len.toNat ∨ len.toNat < 4) :
    s.inPlace pos len m = s.fail .filtersInvalidLength := by
  have hbad : oneSliceFits s.params len.toNat = false := by
    rw [oneSliceFits, Bool.and_eq_false_iff, decide_eq_false_iff_not, decide_eq_false_iff_not]
    omega
  rw [State.inPlace, hbad]
  rfl

/-- A slice that reaches beyond 2 GiB. -/
theorem State.inPlace_badPosition (hfit : len.toNat ≤ s.params.fltMemSize) (hoperand : 4 ≤ len.toNat)
    (hpos : 0x80000000 < pos.toNat + len.toNat) : s.inPlace pos len m = s.fail .filtersInvalidFilePosition := by
  simp [State.inPlace, oneSliceFits, positionOk, hfit, hoperand, hpos]

/-- Every address transform is an in-place transform. -/
theorem exec_inPlace {i : Instr} (h : i = .fltX86 pos len ∨ i = .fltX86e9 pos len ∨ i = .fltArm pos len) :
    ∃ m, exec i s = .next (s.inPlace pos len m) := by
  obtain rfl | rfl | rfl := h <;> exact ⟨_, rfl⟩

end InPlace

/-! ### The checks in their order (R142) -/

/-- Settles O52: the operand range comes first, then the length, then the position. -/
theorem filterBounds : Obligations.FilterBounds := by
  refine fun pos len c r s => ⟨?_, fun hc hlen => ?_, fun hposr => ?_, fun hposr hlen => ?_, fun i hi => ?_⟩
  · rintro rfl
    exact ⟨exec_of_not_wellFormed rfl, exec_of_not_wellFormed rfl⟩
  · have hfit : twoSlicesFit s.params len.toNat = false := decide_eq_false (Nat.not_le.2 hlen)
    refine ⟨?_, ?_⟩
    · show execFltDelta pos len c s = _
      rw [execFltDelta, channelsOk_eq_true hc, hfit]
      rfl
    · show execFltAudio pos len c s = _
      rw [execFltAudio, channelsOk_eq_true hc, hfit]
      rfl
  · exact exec_of_not_wellFormed (decide_eq_false (Nat.not_le.2 hposr))
  · have hcheck : posrOk r = true := decide_eq_true hposr
    have hfit : (twoSlicesFit s.params len.toNat && strideOk len.toNat c.toNat) = false := by
      simp only [twoSlicesFit, strideOk, Bool.and_eq_false_iff, decide_eq_false_iff_not]
      omega
    show execFltRgb pos len c r s = _
    rw [execFltRgb, hcheck, hfit]
    rfl
  · obtain ⟨m, hm⟩ := exec_inPlace (s := s) hi
    rw [hm]
    exact ⟨fun hbad => congrArg _ (s.inPlace_badLength m hbad),
      fun hfit hoperand hpos => congrArg _ (s.inPlace_badPosition m hfit hoperand hpos)⟩

end Sys2Proof.Machine
end

section
/-! The audio predictor's ranges (44_filters.md R141): an invariant of one sample, so of every sequence of them. -/

namespace Sys2Proof.Machine

/-- What the ranges of R141 rest on, besides themselves: `pdelta` is a signed byte, so is the `d1` it becomes, `d2` and
`d3` are differences of two such bytes, and the accumulators hold at most one sample's error for each sample since the
last adaptation, which was at a multiple of 32. -/
structure AudioPredictor.InRange (a : AudioPredictor) : Prop where
  pdelta : -128 ≤ a.pdelta ∧ a.pdelta ≤ 127
  d1 : -128 ≤ a.d1 ∧ a.d1 ≤ 127
  d2 : a.d2.natAbs ≤ 255
  d3 : a.d3.natAbs ≤ 255
  k1 : a.k1.natAbs ≤ 17
  k2 : a.k2.natAbs ≤ 17
  k3 : a.k3.natAbs ≤ 17
  dif : ∀ x ∈ a.dif, x ≤ 1279 * ((a.count + 31) % 32)

theorem AudioPredictor.init_inRange : AudioPredictor.init.InRange := by
  constructor <;> simp [AudioPredictor.init]

/-- A byte read as signed. -/
theorem toInt_byte_bounds (b : Byte) : -128 ≤ b.toInt ∧ b.toInt ≤ 127 := by
  have hlo := b.le_toInt
  have hhi := b.toInt_lt
  omega

/-- `D` of R146. -/
theorem sample_natAbs_le (cur : Byte) : (8 * cur.toInt).natAbs ≤ 1024 := by
  have := toInt_byte_bounds cur
  omega

/-- An adaptation keeps a weight within its range: only a weight of at least -16 goes down and only one below 16 up. -/
theorem weight_natAbs_le {k : Int} (h : k.natAbs ≤ 17) (down up : Bool) :
    (weightUp up (weightDown down k)).natAbs ≤ 17 := by
  simp only [weightUp, weightDown, Bool.and_eq_true, decide_eq_true_eq]
  split <;> split <;> omega

/-- A sample's error in one of the seven predictions. -/
theorem sampleErrors_le {D d1 d2 d3 : Int} (hD : D.natAbs ≤ 1024) (h1 : d1.natAbs ≤ 255) (h2 : d2.natAbs ≤ 255)
    (h3 : d3.natAbs ≤ 255) :
    ∀ x ∈ [D.natAbs, (D - d1).natAbs, (D + d1).natAbs, (D - d2).natAbs, (D + d2).natAbs, (D - d3).natAbs,
      (D + d3).natAbs], x ≤ 1279 := by
  simp only [List.forall_mem_cons, List.not_mem_nil, false_imp_iff, implies_true, and_true]
  omega

/-- Sums of elements of two bounded lists. -/
theorem zipWith_add_le {l l' : List Nat} {b b' : Nat} (h : ∀ x ∈ l, x ≤ b) (h' : ∀ x ∈ l', x ≤ b') :
    ∀ x ∈ List.zipWith (· + ·) l l', x ≤ b + b' := by
  intro x hx
  rw [← List.map_uncurry_zip_eq_zipWith] at hx
  obtain ⟨p, hp, rfl⟩ := List.mem_map.1 hx
  obtain ⟨hfst, hsnd⟩ := List.of_mem_zip hp
  exact Nat.add_le_add (h _ hfst) (h' _ hsnd)

/-- One sample keeps the ranges. -/
theorem AudioPredictor.InRange.next {a : AudioPredictor} (h : a.InRange) (cur : Byte) : (a.next cur).InRange := by
  obtain ⟨hpd, hd1, hd2, hd3, hk1, hk2, hk3, hdif⟩ := h
  have hD : (8 * cur.toInt).natAbs ≤ 1024 := sample_natAbs_le cur
  have hdelta : (a.pdelta - a.d1).natAbs ≤ 255 := by omega
  have hsum := zipWith_add_le hdif (sampleErrors_le hD (d1 := a.pdelta) (by omega) hdelta hd2)
  rw [AudioPredictor.next]
  split
  · next hadapt =>
    refine ⟨toInt_byte_bounds _, hpd, hdelta, hd2, weight_natAbs_le hk1 _ _, weight_natAbs_le hk2 _ _,
      weight_natAbs_le hk3 _ _, ?_⟩
    simp [AudioPredictor.adapt]
  · next hkeep =>
    refine ⟨toInt_byte_bounds _, hpd, hdelta, hd2, hk1, hk2, hk3, fun x hx => (hsum x hx).trans ?_⟩
    show 1279 * ((a.count + 31) % 32) + 1279 ≤ 1279 * ((a.count + 1 + 31) % 32)
    omega

/-- The ranges hold after every sequence of samples. -/
theorem audioAfter_inRange (samples : List Byte) : (audioAfter samples).InRange := by
  rw [audioAfter]
  exact List.foldlRecOn samples _ AudioPredictor.init_inRange fun _ h cur _ => h.next cur

/-- Settles O56: the ranges are an invariant of the samples, and between two adaptations lie fewer than 32 of them. -/
theorem audioVariablesStayInRange : Obligations.AudioVariablesStayInRange := by
  intro samples
  obtain ⟨-, hd1, hd2, hd3, hk1, hk2, hk3, hdif⟩ := audioAfter_inRange samples
  refine ⟨⟨hk1, hk2, hk3⟩, ⟨by omega, hd2, hd3⟩, fun x hx => (hdif x hx).trans ?_, sample_natAbs_le⟩
  omega

end Sys2Proof.Machine
end

section
/-! The address transforms (44_filters.md R148 to R150): both scan forward and write behind the scan only, so what they
look at is the memory as it was. -/

namespace Sys2Proof.Machine

/-- An invariant of the rounds, and a measure that each lowers and the rounds suffice for: both ends of a loop. -/
theorem loopWhile_exit {σ : Type} {cond : σ → Bool} {body : σ → σ} (P : σ → Prop) (μ : σ → Nat)
    (hstep : ∀ x, P x → cond x = true → P (body x)) (hμ : ∀ x, cond x = true → μ (body x) < μ x) {n : Nat} {x : σ}
    (hx : P x) (hn : μ x ≤ n) : P (loopWhile cond body n x) ∧ cond (loopWhile cond body n x) = false :=
  ⟨loopWhile_inv cond body P hstep n x hx, loopWhile_done cond body μ hμ n x hn⟩

/-! ### Numbers in memory (R33) -/

/-- Bits `8 * j` to `8 * j + 7` of a word as a number. -/
theorem byteOf_toNat {w : Nat} (v : BitVec w) (j : Nat) :
    (v.extractLsb' (8 * j) 8).toNat = v.toNat / 2 ^ (8 * j) % 256 := by
  rw [BitVec.extractLsb'_toNat, Nat.shiftRight_eq_div_pow]

/-- The two readings of a 32-bit operand. -/
theorem readLE32_toNat (m : Mem) (a : Nat) : (m.readLE32 a).toNat = read32 m a := by
  have h0 := (m.read a).isLt
  have h1 := (m.read (a + 1)).isLt
  have h2 := (m.read (a + 2)).isLt
  simp only [Mem.readLE32, BitVec.toNat_append, Nat.shiftLeft_eq, Nat.mul_comm _ (2 ^ _),
    ← Nat.two_pow_add_eq_or_of_lt h0, ← Nat.two_pow_add_eq_or_of_lt h1, ← Nat.two_pow_add_eq_or_of_lt h2, read32]
  omega

/-- A 32-bit operand reads back. -/
theorem read32_writeLE32 {m : Mem} (h : m.Wf) (a : Nat) (v : Word) : read32 (m.writeLE32 a v) a = v.toNat := by
  have hbyte : ∀ j, j < 4 → ((m.writeLE32 a v).read (a + j)).toNat = v.toNat / 2 ^ (8 * j) % 256 := by
    intro j hj
    rw [Mem.read_writeLE32 _ _ _ _ h, if_neg (by omega), Nat.add_sub_cancel_left, byteOf_toNat]
  have h0 : ((m.writeLE32 a v).read a).toNat = v.toNat / 2 ^ (8 * 0) % 256 := hbyte 0 (by decide)
  have h1 := hbyte 1 (by decide)
  have h2 := hbyte 2 (by decide)
  have h3 := hbyte 3 (by decide)
  have hv := v.isLt
  rw [read32, h0, h1, h2, h3]
  omega

/-- Operands of the same four bytes. -/
theorem read32_congr {m m' : Mem} {a : Nat} (h : ∀ x, a ≤ x → x < a + 4 → m'.read x = m.read x) :
    read32 m' a = read32 m a := by
  rw [read32, read32, h a (by omega) (by omega), h (a + 1) (by omega) (by omega), h (a + 2) (by omega) (by omega),
    h (a + 3) (by omega) (by omega)]

/-! ### One operand (R148) -/

/-- Bit 31 of a word. -/
theorem getLsbD_31 (v : Word) : v.getLsbD 31 = decide (2 ^ 31 ≤ v.toNat) := by
  rw [← BitVec.msb_eq_getLsbD_last v, BitVec.msb_eq_decide]

/-- The model's operand is the one of R148's cases. -/
theorem x86Operand_rewrites (addr off : Word) :
    X86Rewrites addr.toNat off.toNat ((x86Operand addr off).getD addr).toNat := by
  have hlow : addr < x86FileSize ↔ addr.toNat < 0x01000000 := BitVec.lt_def
  simp only [X86Rewrites, x86Operand, getLsbD_31, BitVec.toNat_add, decide_eq_true_eq, hlow]
  by_cases hneg : 2 ^ 31 ≤ addr.toNat
  · by_cases hsum : (addr.toNat + off.toNat) % 2 ^ 32 < 2 ^ 31
    · rw [if_pos hneg, if_pos hsum, if_pos hneg, if_neg (Nat.not_le.2 hsum), Option.getD_some, BitVec.toNat_add]
      rfl
    · rw [if_pos hneg, if_neg hsum, if_pos hneg, if_pos (Nat.not_lt.1 hsum), Option.getD_none]
  · rw [if_neg hneg, if_neg hneg]
    split
    · rw [Option.getD_some, ← BitVec.toNat_add, BitVec.sub_add_cancel]
    · rfl

section Scan

variable {isCall : Byte → Bool} {pos n i : Nat} {m m' : Mem}

/-- A byte that is no opcode. -/
theorem x86Step_plain (hplain : isCall (m'.read i) = false) : x86Step isCall pos (i, m') = (i + 1, m') := by
  simp [x86Step, hplain]

/-- An opcode: its operand is rewritten, or stays, and no other byte changes. -/
theorem x86Step_call (hwf : m'.Wf) (hpos : pos + i + 1 < 2 ^ 32) (hcall : isCall (m'.read i) = true) :
    ∃ m'', x86Step isCall pos (i, m') = (i + 5, m'') ∧ m''.Wf ∧
      (∀ a, a < i + 1 ∨ i + 5 ≤ a → m''.read a = m'.read a) ∧
      X86Rewrites (read32 m' (i + 1)) (pos + i + 1) (read32 m'' (i + 1)) := by
  have hcase := x86Operand_rewrites (m'.readLE32 (i + 1)) (BitVec.ofNat 32 (pos + i + 1))
  rw [readLE32_toNat, BitVec.toNat_ofNat, Nat.mod_eq_of_lt hpos] at hcase
  cases hop : x86Operand (m'.readLE32 (i + 1)) (BitVec.ofNat 32 (pos + i + 1)) with
  | none =>
    rw [hop, Option.getD_none, readLE32_toNat] at hcase
    exact ⟨m', by simp [x86Step, hcall, hop], hwf, fun _ _ => rfl, hcase⟩
  | some v =>
    rw [hop, Option.getD_some] at hcase
    refine ⟨m'.writeLE32 (i + 1) v, by simp [x86Step, hcall, hop], m'.writeLE32_wf _ v hwf, fun a ha => ?_, ?_⟩
    · rw [Mem.read_writeLE32 _ _ _ _ hwf, if_pos ha]
    · rwa [read32_writeLE32 hwf]

/-! ### The scan (R148) -/

/-- Every position is scanned once. -/
theorem x86Step_moves (isCall : Byte → Bool) (pos : Nat) (im : Nat × Mem) : im.1 < (x86Step isCall pos im).1 := by
  unfold x86Step
  split
  · split <;> simp
  · simp

/-- The scan looks at no operand byte of an opcode it has found. -/
theorem ScanAt.five_le {i j : Nat} (hi : ScanAt isCall m n i) (hj : ScanAt isCall m n j) (hlt : i < j)
    (hcall : isCall (m.read i) = true) : i + 5 ≤ j := by
  induction j using Nat.strong_induction_on generalizing i with
  | _ j ih =>
    cases hj with
    | start => omega
    | plain j hj hroom hplain =>
      obtain hij | rfl := Nat.lt_succ_iff_lt_or_eq.1 hlt
      · have := ih j (by omega) hi hj hij hcall
        omega
      · rw [hcall] at hplain
        contradiction
    | call j hj hroom hcall' =>
      obtain hij | rfl | hji := Nat.lt_trichotomy i j
      · have := ih j (by omega) hi hj hij hcall
        omega
      · exact le_refl _
      · have := ih i hlt hj hi hji hcall'
        omega

/-- The transform with the scan at `i`: what lies ahead is as it was, and of what lies behind each operand found is
rewritten and no other byte changed. -/
structure X86Upto (isCall : Byte → Bool) (pos n : Nat) (m : Mem) (i : Nat) (m' : Mem) : Prop where
  scan : ScanAt isCall m n i
  wf : m'.Wf
  ahead : ∀ a, i ≤ a → m'.read a = m.read a
  behind : ∀ j, OperandAt isCall m n j → j < i →
    X86Rewrites (read32 m (j + 1)) (pos + j + 1) (read32 m' (j + 1))
  kept : ∀ a, (¬ ∃ j, OperandAt isCall m n j ∧ j < a ∧ a < j + 5) → m'.read a = m.read a

theorem X86Upto.start (hwf : m.Wf) : X86Upto isCall pos n m 0 m :=
  ⟨.start, hwf, fun _ _ => rfl, fun _ _ hj => absurd hj (Nat.not_lt_zero _), fun _ _ => rfl⟩

/-- One position of the scan. -/
theorem X86Upto.step (h : X86Upto isCall pos n m i m') (hpos : pos + n ≤ 0x80000000) (hroom : i + 5 ≤ n) :
    X86Upto isCall pos n m (x86Step isCall pos (i, m')).1 (x86Step isCall pos (i, m')).2 := by
  have hbyte := h.ahead i (le_refl i)
  cases hcall : isCall (m.read i) with
  | false =>
    rw [x86Step_plain (by rw [hbyte, hcall])]
    refine ⟨h.scan.plain i hroom hcall, h.wf, fun a ha => h.ahead a (by omega), fun j hj hlt => ?_, h.kept⟩
    obtain hji | rfl := Nat.lt_succ_iff_lt_or_eq.1 hlt
    · exact h.behind j hj hji
    · obtain ⟨-, -, hcall'⟩ := hj
      rw [hcall] at hcall'
      contradiction
  | true =>
    obtain ⟨m'', hstep, hwf, hframe, hrewrite⟩ :=
      x86Step_call (isCall := isCall) (pos := pos) (i := i) h.wf (by omega) (by rw [hbyte, hcall])
    rw [hstep]
    have hfound : OperandAt isCall m n i := ⟨h.scan, hroom, hcall⟩
    refine ⟨h.scan.call i hroom hcall, hwf, fun a ha => ?_, fun j hj hlt => ?_, fun a ha => ?_⟩
    · rw [hframe a (.inr ha), h.ahead a (by omega)]
    · have ⟨hscan, _, hcall'⟩ := hj
      obtain hji | rfl | hij := Nat.lt_trichotomy j i
      · have := hscan.five_le h.scan hji hcall'
        rw [read32_congr fun x _ hx => hframe x (.inl (by omega))]
        exact h.behind j hj hji
      · rwa [read32_congr (m := m) fun x hx _ => h.ahead x (by omega)] at hrewrite
      · have := h.scan.five_le hscan hij hcall
        omega
    · have hout : a < i + 1 ∨ i + 5 ≤ a := by
        by_contra hin
        exact ha ⟨i, hfound, by omega, by omega⟩
      rw [hframe a hout, h.kept a ha]

/-- The whole scan: no operand lies beyond its end. -/
theorem x86Transform_result (isCall : Byte → Bool) (hwf : m.Wf) (hpos : pos + n ≤ 0x80000000) :
    X86Result isCall pos n m (x86Transform isCall pos n m) := by
  have hshrinks : ∀ im : Nat × Mem, decide (im.1 + 5 ≤ n) = true → n - (x86Step isCall pos im).1 < n - im.1 := by
    intro im hroom
    have hle : im.1 + 5 ≤ n := of_decide_eq_true hroom
    have hmove := x86Step_moves isCall pos im
    omega
  obtain ⟨hinv, hend⟩ := loopWhile_exit (n := n) (x := (0, m))
    (fun im : Nat × Mem => X86Upto isCall pos n m im.1 im.2) (fun im => n - im.1)
    (fun im him hroom => him.step hpos (of_decide_eq_true hroom)) hshrinks (X86Upto.start hwf) (Nat.sub_le n 0)
  have hpast := of_decide_eq_false hend
  refine ⟨fun j hj => hinv.behind j hj ?_, hinv.kept⟩
  obtain ⟨-, hroom, -⟩ := hj
  omega

end Scan

/-- Settles O59: the scan writes behind itself only, so it finds what the original bytes say. -/
theorem x86TransformsRewriteOperands : Obligations.X86TransformsRewriteOperands := by
  refine ⟨fun _ _ => ⟨encodedAs_row _, encodedAs_row _⟩, fun pos len s hwf hfit hoperand hpos => ⟨?_, ?_⟩⟩
  · exact ⟨_, congrArg _ (s.inPlace_ok _ hfit hoperand hpos), x86Transform_result isCallE8 hwf hpos⟩
  · exact ⟨_, congrArg _ (s.inPlace_ok _ hfit hoperand hpos), x86Transform_result isCallE8E9 hwf hpos⟩

/-! ### Branches (R149) -/

/-- The three low bytes of a word as one number of 24 bits. -/
theorem read24_eq (m : Mem) (a : Nat) :
    (m.read (a + 2) ++ m.read (a + 1) ++ m.read a : BitVec (8 + 8 + 8)).toNat = read24 m a := by
  have h0 := (m.read a).isLt
  have h1 := (m.read (a + 1)).isLt
  simp only [BitVec.toNat_append, Nat.shiftLeft_eq, Nat.mul_comm _ (2 ^ _), ← Nat.two_pow_add_eq_or_of_lt h0,
    ← Nat.two_pow_add_eq_or_of_lt h1, read24]
  omega

/-- Offsets of the same three bytes. -/
theorem read24_congr {m m' : Mem} {a : Nat} (h : ∀ x, a ≤ x → x < a + 3 → m'.read x = m.read x) :
    read24 m' a = read24 m a := by
  rw [read24, read24, h a (by omega) (by omega), h (a + 1) (by omega) (by omega), h (a + 2) (by omega) (by omega)]

/-- The three low bytes of a word, written one after another. -/
def Mem.write24 (m : Mem) (a : Nat) (v : BitVec 24) : Mem :=
  ((m.write a (v.extractLsb' (8 * 0) 8)).write (a + 1) (v.extractLsb' (8 * 1) 8)).write (a + 2)
    (v.extractLsb' (8 * 2) 8)

theorem Mem.write24_wf {m : Mem} (h : m.Wf) (a : Nat) (v : BitVec 24) : (m.write24 a v).Wf :=
  Mem.write_wf _ _ _ (Mem.write_wf _ _ _ (Mem.write_wf _ _ _ h))

theorem Mem.read_write24_of_ne {m : Mem} {a x : Nat} (h : x < a ∨ a + 3 ≤ x) (v : BitVec 24) :
    (m.write24 a v).read x = m.read x := by
  rw [Mem.write24, Mem.read_write_ne _ _ _ _ (by omega), Mem.read_write_ne _ _ _ _ (by omega),
    Mem.read_write_ne _ _ _ _ (by omega)]

/-- An offset reads back. -/
theorem read24_write24 {m : Mem} (h : m.Wf) (a : Nat) (v : BitVec 24) : read24 (m.write24 a v) a = v.toNat := by
  have h1 := m.write_wf a (v.extractLsb' (8 * 0) 8) h
  have h2 := Mem.write_wf _ (a + 1) (v.extractLsb' (8 * 1) 8) h1
  have hv := v.isLt
  rw [read24, Mem.write24, Mem.read_write_same _ _ _ h2, Mem.read_write_ne _ _ _ _ (by omega),
    Mem.read_write_ne _ _ _ _ (by omega), Mem.read_write_same _ _ _ h, Mem.read_write_ne _ _ _ _ (by omega),
    Mem.read_write_same _ _ _ h1, byteOf_toNat, byteOf_toNat, byteOf_toNat]
  omega

section Words

variable {pos n i : Nat} {m m' : Mem}

theorem armStep_fst (im : Nat × Mem) : (armStep pos im).1 = im.1 + 4 := by
  unfold armStep
  dsimp only
  split <;> rfl

/-- A word whose top byte is not `EB`. -/
theorem armStep_other (h : m'.read (i + 3) ≠ 0xEB#8) : armStep pos (i, m') = (i + 4, m') := if_neg h

/-- A branch: its offset is reduced, and no other byte changes. -/
theorem armStep_branch (hwf : m'.Wf) (h : m'.read (i + 3) = 0xEB#8) :
    ∃ m'', armStep pos (i, m') = (i + 4, m'') ∧ m''.Wf ∧ (∀ a, a < i ∨ i + 3 ≤ a → m''.read a = m'.read a) ∧
      (read24 m'' i + (pos + i) / 4) % 2 ^ 24 = read24 m' i := by
  have hstep : armStep pos (i, m') = (i + 4, m'.write24 i
      ((m'.read (i + 2) ++ m'.read (i + 1) ++ m'.read i : BitVec (8 + 8 + 8)) - BitVec.ofNat 24 ((pos + i) / 4))) :=
    if_pos h
  refine ⟨_, hstep, Mem.write24_wf hwf _ _, fun a ha => Mem.read_write24_of_ne ha _, ?_⟩
  rw [read24_write24 hwf, ← Nat.add_mod_mod, ← BitVec.toNat_ofNat ((pos + i) / 4), ← BitVec.toNat_add,
    BitVec.sub_add_cancel, read24_eq]

/-- A branch of the slice: a whole aligned word whose top byte is `EB` (R149). -/
def BranchAt (n : Nat) (m : Mem) (j : Nat) : Prop := 4 * j + 4 ≤ n ∧ m.read (4 * j + 3) = 0xEB#8

/-- The transform before word `w`: the words from there on are as they were, and of those before it each branch is
rebased and no other byte changed. -/
structure ArmUpto (pos n : Nat) (m : Mem) (w : Nat) (m' : Mem) : Prop where
  wf : m'.Wf
  ahead : ∀ a, 4 * w ≤ a → m'.read a = m.read a
  behind : ∀ j, BranchAt n m j → j < w → (read24 m' (4 * j) + (pos + 4 * j) / 4) % 2 ^ 24 = read24 m (4 * j)
  kept : ∀ a, ¬ (BranchAt n m (a / 4) ∧ a % 4 < 3) → m'.read a = m.read a

theorem ArmUpto.start (hwf : m.Wf) : ArmUpto pos n m 0 m :=
  ⟨hwf, fun _ _ => rfl, fun _ _ hj => absurd hj (Nat.not_lt_zero _), fun _ _ => rfl⟩

/-- One word. -/
theorem ArmUpto.step {w : Nat} (h : ArmUpto pos n m w m') (hroom : 4 * w + 4 ≤ n) :
    ArmUpto pos n m (w + 1) (armStep pos (4 * w, m')).2 := by
  have htop := h.ahead (4 * w + 3) (by omega)
  by_cases hbranch : m.read (4 * w + 3) = 0xEB#8
  · obtain ⟨m'', hstep, hwf, hframe, hrebase⟩ := armStep_branch (pos := pos) h.wf (htop.trans hbranch)
    rw [hstep]
    have hfound : BranchAt n m w := ⟨hroom, hbranch⟩
    refine ⟨hwf, fun a ha => ?_, fun j hj hlt => ?_, fun a ha => ?_⟩
    · rw [hframe a (by omega), h.ahead a (by omega)]
    · obtain hjw | rfl := Nat.lt_succ_iff_lt_or_eq.1 hlt
      · rw [read24_congr fun x _ hx => hframe x (by omega)]
        exact h.behind j hj hjw
      · rwa [read24_congr (m := m) fun x hx _ => h.ahead x hx] at hrebase
    · have hout : a < 4 * w ∨ 4 * w + 3 ≤ a := by
        by_contra hin
        have hword : a / 4 = w := by omega
        exact ha ⟨by rwa [hword], by omega⟩
      rw [hframe a hout, h.kept a ha]
  · rw [armStep_other (by rwa [htop])]
    refine ⟨h.wf, fun a ha => h.ahead a (by omega), fun j hj hlt => ?_, h.kept⟩
    obtain hjw | rfl := Nat.lt_succ_iff_lt_or_eq.1 hlt
    · exact h.behind j hj hjw
    · obtain ⟨-, heb⟩ := hj
      exact absurd heb hbranch

/-- All words: no whole one is left. -/
theorem armTransform_upto (hwf : m.Wf) : ∃ w, n < 4 * w + 4 ∧ ArmUpto pos n m w (armTransform pos n m) := by
  have hshrinks : ∀ im : Nat × Mem, decide (im.1 + 4 ≤ n) = true → n - (armStep pos im).1 < n - im.1 := by
    intro im hroom
    have hle : im.1 + 4 ≤ n := of_decide_eq_true hroom
    rw [armStep_fst]
    omega
  obtain ⟨⟨w, hi, hinv⟩, hend⟩ := loopWhile_exit (n := n) (x := (0, m))
    (fun im : Nat × Mem => ∃ w, im.1 = 4 * w ∧ ArmUpto pos n m w im.2) (fun im => n - im.1)
    (fun ⟨_, _⟩ ⟨w, hi, hinv⟩ hroom => by
      subst hi
      exact ⟨w + 1, armStep_fst _, hinv.step (of_decide_eq_true hroom)⟩)
    hshrinks ⟨0, rfl, ArmUpto.start hwf⟩ (Nat.sub_le n 0)
  have hpast := of_decide_eq_false hend
  exact ⟨w, by omega, hinv⟩

end Words

/-- Settles O60: each word is looked at once, before anything is written to it. -/
theorem armTransformRebasesBranches : Obligations.ArmTransformRebasesBranches := by
  refine ⟨fun _ _ => encodedAs_row _, fun pos len s hwf hfit hoperand hpos => ?_⟩
  obtain ⟨w, hend, hinv⟩ := armTransform_upto (pos := pos.toNat) (n := len.toNat) hwf
  refine ⟨_, congrArg _ (s.inPlace_ok _ hfit hoperand hpos), fun j hroom heb => ?_, fun a ha => hinv.kept a ?_⟩
  · exact hinv.behind j ⟨hroom, heb⟩ (by omega)
  · rintro ⟨⟨hroom, heb⟩, hlow⟩
    exact ha ⟨hroom, hlow, heb⟩

end Sys2Proof.Machine
end

section
/-! The predictive transforms (44_filters.md R145 to R147). All three make the output sample by sample, one
channel after the other, each sample from the next input byte and what the samples before it left. -/

namespace Sys2Proof.Machine

/-- Two loops in step: a map between their variables that respects both conditions and both bodies. -/
theorem loopWhile_map {σ τ : Type} {cond : σ → Bool} {body : σ → σ} {cond' : τ → Bool} {body' : τ → τ} (f : σ → τ)
    (hcond : ∀ x, cond' (f x) = cond x) (hbody : ∀ x, cond x = true → body' (f x) = f (body x)) (n : Nat) (x : σ) :
    loopWhile cond' body' n (f x) = f (loopWhile cond body n x) := by
  induction n generalizing x with
  | zero => rfl
  | succ n ih =>
    rw [loopWhile_succ, loopWhile_succ, hcond]
    split
    · next hc => rw [hbody x hc, ih]
    · rfl

/-! ### Samples of a channel (R145) -/

section Samples

variable {n ch c k : Nat}

/-- The samples of a channel are those whose output index lies in the slice. -/
theorem lt_channelSamples_iff (hch : 0 < ch) : k < channelSamples n ch c ↔ c + k * ch < n := by
  rw [channelSamples, ← Nat.succ_le_iff, Nat.le_div_iff_mul_le hch, Nat.succ_mul]
  omega

/-- An index by its row `k` and its place `c` in the row: how the row compares with those of another index. -/
theorem row_lt_iff {q r : Nat} (hc : c < ch) (hr : r < ch) : c + k * ch < r + q * ch ↔ k < q ∨ (k = q ∧ c < r) := by
  obtain hlt | rfl | hgt := Nat.lt_trichotomy k q
  · have := Nat.mul_le_mul_right ch (Nat.succ_le_of_lt hlt)
    rw [Nat.succ_mul] at this
    omega
  · omega
  · have := Nat.mul_le_mul_right ch (Nat.succ_le_of_lt hgt)
    rw [Nat.succ_mul] at this
    omega

/-- An index has one row and one place in it. -/
theorem row_eq_iff {q r : Nat} (hc : c < ch) (hr : r < ch) : c + k * ch = r + q * ch ↔ c = r ∧ k = q := by
  have hlt := row_lt_iff (k := k) (q := q) hc hr
  have hgt := row_lt_iff (k := q) (q := k) hr hc
  constructor
  · omega
  · rintro ⟨rfl, rfl⟩
    rfl

/-- The slice's whole rows give each channel a sample, and the rest of a row the first channels one more. -/
theorem channelSamples_eq (hc : c < ch) : channelSamples n ch c = n / ch + if c < n % ch then 1 else 0 := by
  have hch : 0 < ch := Nat.zero_lt_of_lt hc
  refine eq_of_forall_lt_iff fun k => ?_
  have hrow := row_lt_iff (k := k) (q := n / ch) hc (Nat.mod_lt n hch)
  rw [Nat.mod_add_div'] at hrow
  rw [lt_channelSamples_iff hch, hrow]
  split <;> omega

theorem channelStart_eq (hc : c ≤ ch) : channelStart n ch c = c * (n / ch) + min c (n % ch) := by
  induction c with
  | zero => simp [channelStart]
  | succ c ih =>
    rw [channelStart, ih (by omega), channelSamples_eq hc, Nat.succ_mul]
    split <;> omega

/-- Every input byte a channel reads lies in the slice. -/
theorem channelStart_add_lt (hc : c < ch) (hk : c + k * ch < n) : channelStart n ch c + k < n := by
  have hn := Nat.mod_add_div' n ch
  have hrow := (row_lt_iff hc (Nat.mod_lt n (Nat.zero_lt_of_lt hc))).1 (hk.trans_eq hn.symm)
  have hle := Nat.mul_le_mul_right (n / ch) (Nat.succ_le_of_lt hc)
  rw [Nat.succ_mul] at hle
  rw [Nat.mul_comm] at hn
  rw [channelStart_eq hc.le]
  omega

end Samples

/-! ### A transform sample by sample (R145 to R147) -/

/-- What a predictive transform keeps of a channel: its value before the channel's first sample; its value after the
sample of output index `i`, given the memory before that sample and the input byte; and the output byte. -/
structure Predictor (α : Type) where
  init : α
  next : Nat → Mem → α → Byte → α
  out : α → Byte

/-- The variables of a predictive transform's loop. -/
structure Predictor.Vars (α : Type) where
  i : Nat
  s : Nat
  acc : α
  mem : Mem

section Channels

variable {α : Type} (p : Predictor α) (n ch : Nat)

/-- One sample. -/
def Predictor.sample (d : Predictor.Vars α) : Predictor.Vars α :=
  let acc := p.next d.i d.mem d.acc (d.mem.read d.s)
  { i := d.i + ch, s := d.s + 1, acc := acc, mem := d.mem.write (n + d.i) (p.out acc) }

/-- All samples of channel `c`. -/
def Predictor.channel (sm : Nat × Mem) (c : Nat) : Nat × Mem :=
  let d := loopWhile (fun d => d.i < n) (p.sample n ch) n { i := c, s := sm.1, acc := p.init, mem := sm.2 }
  (d.s, d.mem)

/-- A loop whose variables are a predictor's, and whose rounds are its samples, is the predictor's channel. -/
theorem Predictor.channel_eq_of_loop {σ : Type} {body : σ → σ} (f : σ → Predictor.Vars α)
    (hbody : ∀ x, (f x).i < n → p.sample n ch (f x) = f (body x)) {sm : Nat × Mem} {c : Nat} (x : σ)
    (hx : f x = ⟨c, sm.1, p.init, sm.2⟩) :
    ((f (loopWhile (fun y => (f y).i < n) body n x)).s, (f (loopWhile (fun y => (f y).i < n) body n x)).mem) =
      p.channel n ch sm c := by
  rw [← loopWhile_map (cond' := fun d => d.i < n) f (fun _ => rfl) (fun y hy => hbody y (of_decide_eq_true hy)), hx]
  rfl

/-- The first `l` channels. -/
def Predictor.channels (m : Mem) (l : Nat) : Nat × Mem := (List.range l).foldl (p.channel n ch) (0, m)

theorem Predictor.channels_succ (m : Mem) (l : Nat) :
    p.channels n ch m (l + 1) = p.channel n ch (p.channels n ch m l) l := by
  rw [Predictor.channels, List.range_succ, List.foldl_concat]
  rfl

/-- What is kept after sample `k` of channel `c`, its input byte being the memory `m`'s. -/
def Predictor.after (m : Mem) (c k : Nat) (acc : α) (m' : Mem) : α :=
  p.next (c + k * ch) m' acc (m.read (channelStart n ch c + k))

variable {p n ch}

/-- What the samples of a channel keep holds after the channel: the index runs over the channel's samples, the input is
read where the channel begins, and the input slice is not written. -/
theorem Predictor.channel_inv {P : Nat → α → Mem → Prop} {m : Mem} {sm : Nat × Mem} {c : Nat} (hc : c < ch)
    (hs : sm.1 = channelStart n ch c) (hin : ∀ a, a < n → sm.2.read a = m.read a) (hfirst : P 0 p.init sm.2)
    (hstep : ∀ k acc m', c + k * ch < n → P k acc m' →
      P (k + 1) (p.after n ch m c k acc m') (m'.write (n + (c + k * ch)) (p.out (p.after n ch m c k acc m')))) :
    (p.channel n ch sm c).1 = channelStart n ch (c + 1) ∧ (∀ a, a < n → (p.channel n ch sm c).2.read a = m.read a) ∧
      ∃ acc, P (channelSamples n ch c) acc (p.channel n ch sm c).2 := by
  have hch : 0 < ch := Nat.zero_lt_of_lt hc
  obtain ⟨⟨k, hk, hi, hs', hin', hP⟩, hend⟩ :=
    loopWhile_exit (n := n) (cond := fun d => d.i < n) (body := p.sample n ch) (x := ⟨c, sm.1, p.init, sm.2⟩)
    (fun d => ∃ k, k ≤ channelSamples n ch c ∧ d.i = c + k * ch ∧ d.s = channelStart n ch c + k ∧
      (∀ a, a < n → d.mem.read a = m.read a) ∧ P k d.acc d.mem)
    (fun d => n - d.i)
    (by
      rintro ⟨_, _, acc, m'⟩ ⟨k, -, rfl, rfl, hin', hP⟩ hlt
      have hi : c + k * ch < n := of_decide_eq_true hlt
      have hread := hin' _ (channelStart_add_lt hc hi)
      refine ⟨k + 1, (lt_channelSamples_iff hch).2 hi, ?_, rfl, fun a ha => ?_, ?_⟩
      · rw [Nat.succ_mul, ← Nat.add_assoc]
        rfl
      · exact (Mem.read_write_ne _ _ _ _ (by omega)).trans (hin' a ha)
      · have hnext := hstep k acc m' hi hP
        rwa [Predictor.after, ← hread] at hnext)
    (fun d hlt => by
      have hi : d.i < n := of_decide_eq_true hlt
      show n - (d.i + ch) < n - d.i
      omega)
    ⟨0, Nat.zero_le _, by simp, hs, hin, hfirst⟩ (Nat.sub_le n c)
  have hall : k = channelSamples n ch c := by
    refine Nat.le_antisymm hk (Nat.not_lt.1 fun hlt => ?_)
    rw [lt_channelSamples_iff hch, ← hi] at hlt
    exact of_decide_eq_false hend hlt
  subst hall
  exact ⟨hs', hin', _, hP⟩

/-- What every sample keeps, and the step from one channel to the next, holds after the channels. -/
theorem Predictor.channels_inv {P : Nat → Nat → α → Mem → Prop} {m : Mem} (hfirst : P 0 0 p.init m)
    (hstep : ∀ c k acc m', c < ch → c + k * ch < n → P c k acc m' →
      P c (k + 1) (p.after n ch m c k acc m') (m'.write (n + (c + k * ch)) (p.out (p.after n ch m c k acc m'))))
    (hnext : ∀ c acc m', c < ch → P c (channelSamples n ch c) acc m' → P (c + 1) 0 p.init m') {l : Nat} (hl : l ≤ ch) :
    (p.channels n ch m l).1 = channelStart n ch l ∧ (∀ a, a < n → (p.channels n ch m l).2.read a = m.read a) ∧
      P l 0 p.init (p.channels n ch m l).2 := by
  induction l with
  | zero => exact ⟨rfl, fun _ _ => rfl, hfirst⟩
  | succ l ih =>
    obtain ⟨hs, hin, hP⟩ := ih (by omega)
    rw [p.channels_succ]
    obtain ⟨hs', hin', acc, hP'⟩ := Predictor.channel_inv hl hs hin hP fun k acc m' => hstep l k acc m' hl
    exact ⟨hs', hin', hnext l acc _ hl hP'⟩

end Channels

end Sys2Proof.Machine
end

section
/-! The delta and audio transforms byte by byte (44_filters.md R145, R146): each channel folds its own input bytes. -/

namespace Sys2Proof.Machine

/-! ### The model's transforms as predictors -/

/-- The delta transform (R145) keeps the last output byte. -/
def deltaPredictor : Predictor Byte := { init := 0, next := fun _ _ last b => last - b, out := id }

/-- The audio transform (R146) keeps its predictor's variables. -/
def audioPredictor : Predictor AudioPredictor :=
  { init := AudioPredictor.init, next := fun _ _ => AudioPredictor.next, out := AudioPredictor.prev }

theorem deltaChannel_eq (n ch : Nat) : deltaChannel n ch = deltaPredictor.channel n ch :=
  funext₂ fun sm c => Predictor.channel_eq_of_loop _ n ch
    (fun d : DeltaState => (⟨d.i, d.s, d.last, d.mem⟩ : Predictor.Vars Byte)) (fun _ _ => rfl) ⟨c, sm.1, 0, sm.2⟩ rfl

theorem audioChannel_eq (n ch : Nat) : audioChannel n ch = audioPredictor.channel n ch :=
  funext₂ fun sm c => Predictor.channel_eq_of_loop _ n ch
    (fun d : AudioState => (⟨d.i, d.s, d.pred, d.mem⟩ : Predictor.Vars AudioPredictor)) (fun _ _ => rfl)
    ⟨c, sm.1, AudioPredictor.init, sm.2⟩ rfl

theorem deltaTransform_eq (n ch : Nat) (m : Mem) :
    deltaTransform n ch m = (deltaPredictor.channels n ch m (min ch n)).2 := by
  rw [deltaTransform, deltaChannel_eq]
  rfl

theorem audioTransform_eq (n ch : Nat) (m : Mem) :
    audioTransform n ch m = (audioPredictor.channels n ch m (min ch n)).2 := by
  rw [audioTransform, audioChannel_eq]
  rfl

/-! ### Channels that fold their input -/

theorem Mem.bytes_succ (m : Mem) (a n : Nat) : m.bytes a (n + 1) = m.bytes a n ++ [m.read (a + n)] := by
  simp [Mem.bytes, List.range_succ]

section Fold

variable {α : Type} (p : Predictor α) (g : α → Byte → α) (n ch : Nat) (m : Mem)

/-- What a predictor keeps of channel `c` after `k` samples, where it depends on the input bytes alone. -/
def Predictor.folded (c k : Nat) : α := (m.bytes (channelStart n ch c) k).foldl g p.init

theorem Predictor.folded_succ (c k : Nat) :
    p.folded g n ch m c (k + 1) = g (p.folded g n ch m c k) (m.read (channelStart n ch c + k)) := by
  rw [Predictor.folded, Mem.bytes_succ, List.foldl_concat]
  rfl

/-- The transform before sample `k` of channel `c`: what it keeps, and the outputs of the samples before. -/
structure Predictor.FoldedUpto (c k : Nat) (acc : α) (m' : Mem) : Prop where
  wf : m'.Wf
  acc_eq : acc = p.folded g n ch m c k
  made : ∀ r q, r < ch → r + q * ch < n → r < c ∨ (r = c ∧ q < k) →
    m'.read (n + (r + q * ch)) = p.out (p.folded g n ch m r (q + 1))

variable {p g n ch m}

/-- Every output byte of a transform whose channels fold their input. -/
theorem Predictor.read_channels (hp : ∀ i m' acc b, p.next i m' acc b = g acc b) (hwf : m.Wf) {c k : Nat} (hc : c < ch)
    (hk : c + k * ch < n) :
    (p.channels n ch m (min ch n)).2.read (n + (c + k * ch)) = p.out (p.folded g n ch m c (k + 1)) := by
  obtain ⟨-, -, hinv⟩ := Predictor.channels_inv (p := p) (n := n) (m := m) (P := p.FoldedUpto g n ch m)
    ⟨hwf, rfl, fun _ _ _ _ hbefore => by omega⟩
    (fun c k acc m' hc hi ⟨hwf', hacc, hmade⟩ => by
      rw [Predictor.after, hp, hacc, ← p.folded_succ g]
      refine ⟨m'.write_wf _ _ hwf', rfl, fun r q hr hq hbefore => ?_⟩
      have hrow := row_eq_iff (k := q) (q := k) hr hc
      rw [Mem.read_write _ _ _ _ hwf']
      split
      · next heq =>
        obtain ⟨rfl, rfl⟩ := hrow.1 (by omega)
        rfl
      · next hne => exact hmade r q hr hq (by omega))
    (fun c acc m' hc ⟨hwf', _, hmade⟩ => by
      refine ⟨hwf', rfl, fun r q hr hq hbefore => hmade r q hr hq ?_⟩
      obtain hrc | rfl : r < c ∨ r = c := by omega
      · exact .inl hrc
      · exact .inr ⟨rfl, (lt_channelSamples_iff (by omega)).2 hq⟩)
    (Nat.min_le_left ch n)
  exact hinv.made c k hc hk (.inl (by omega))

end Fold

/-! ### Delta (R145) -/

theorem foldl_sub_bytes (m : Mem) (a k : Nat) :
    (m.bytes a (k + 1)).foldl (fun last b => last - b) 0 = 0 - byteSum m a k := by
  induction k with
  | zero => rfl
  | succ k ih => rw [Mem.bytes_succ, List.foldl_concat, ih, byteSum, BitVec.sub_sub]

/-- Settles O54: a channel of the delta transform folds subtraction over its input. -/
theorem deltaOutputsAreNegatedSums : Obligations.DeltaOutputsAreNegatedSums := by
  refine fun pos len channels s hwf hchannels hlen => ⟨_, exec_fltDelta hchannels hlen, fun c k hc hk => ?_⟩
  rw [lt_channelSamples_iff (by omega)] at hk
  rw [deltaTransform_eq, Predictor.read_channels (fun _ _ _ _ => rfl) hwf hc hk]
  exact foldl_sub_bytes _ _ k

/-! ### Audio (R146) -/

/-- Settles O55: a channel of the audio transform folds the predictor's step over its input. -/
theorem audioOutputsFollowThePredictor : Obligations.AudioOutputsFollowThePredictor := by
  refine fun pos len channels s hwf hchannels hlen => ⟨_, exec_fltAudio hchannels hlen, fun c k hc hk => ?_⟩
  rw [lt_channelSamples_iff (by omega)] at hk
  rw [audioTransform_eq, Predictor.read_channels (fun _ _ _ _ => rfl) hwf hc hk]
  rfl

end Sys2Proof.Machine
end

section
/-! The colour transform byte by byte (44_filters.md R147): the planes are the channels of a predictor that reads its
neighbours from memory, whose bytes are those made so far and, beyond them, what the memory held. -/

namespace Sys2Proof.Machine

/-- The prediction of output byte `i`, `prev` being the byte before it in its plane (R147). -/
def rgbPredAt (n stride i : Nat) (m : Mem) (prev : Byte) : Byte :=
  if stride ≤ i then rgbPredict prev (m.read (n + (i - stride) + 3)) (m.read (n + (i - stride))) else prev

/-- The first loop of the colour transform (R147) keeps the last output byte. -/
def rgbPredictor (n stride : Nat) : Predictor Byte :=
  { init := 0, next := fun i m prev b => rgbPredAt n stride i m prev - b, out := id }

theorem rgbPlane_eq (n stride : Nat) : rgbPlane n stride = (rgbPredictor n stride).channel n 3 :=
  funext₂ fun sm c => Predictor.channel_eq_of_loop _ n 3
    (fun d : RgbState => (⟨d.i, d.s, d.prev, d.mem⟩ : Predictor.Vars Byte)) (fun _ _ => rfl) ⟨c, sm.1, 0, sm.2⟩ rfl

/-- The memory after the first loop. -/
def rgbPlanes (n stride : Nat) (m : Mem) : Mem := ((rgbPredictor n stride).channels n 3 m 3).2

theorem rgbTransform_eq (n stride posr : Nat) (m : Mem) :
    rgbTransform n stride posr m =
      (loopWhile (fun im => im.1 + 2 < n) (rgbAddStep n) n (posr, rgbPlanes n stride m)).2 := by
  rw [rgbTransform, rgbPlane_eq]
  rfl

/-! ### One row (R147 corner case (b)) -/

/-- Where no byte lies below the first row, a plane is a channel of the delta transform. -/
theorem rgbPlane_one_row (n : Nat) : rgbPlane n n = deltaChannel n 3 := by
  rw [deltaChannel_eq]
  refine funext₂ fun sm c => Predictor.channel_eq_of_loop _ n 3
    (fun d : RgbState => (⟨d.i, d.s, d.prev, d.mem⟩ : Predictor.Vars Byte)) (fun d hd => ?_) ⟨c, sm.1, 0, sm.2⟩ rfl
  have hfirst : ¬ n ≤ d.i := Nat.not_le.2 hd
  simp [Predictor.sample, deltaPredictor, rgbStep, hfirst]

/-- Settles O57: the three planes of one row are the three channels of the delta transform. -/
theorem oneRowRgbIsThreeChannelDelta : Obligations.OneRowRgbIsThreeChannelDelta := by
  intro pos len posr s t hpixel hlen hposr ht
  rw [exec_fltDelta (by decide) hlen] at ht
  cases ht
  refine ⟨_, exec_fltRgb hposr hlen hpixel (le_refl _), ?_⟩
  have hthree : min (3 : Word).toNat len.toNat = 3 := Nat.min_eq_left hpixel
  rw [State.respond_flt, State.setFmem_flt, rgbTransform, rgbPlane_one_row, deltaTransform, hthree]
  rfl

/-! ### The planes (R147) -/

/-- The model's prediction is the one of R147. -/
theorem rgbPredict_prediction (prev up ul : Byte) : RgbPrediction prev up ul (rgbPredict prev up ul) := by
  unfold RgbPrediction rgbPredict
  dsimp only
  split
  · rfl
  · split <;> rfl

/-- Byte `i` of `RgbPlanes`: its prediction minus its input byte. -/
def RgbPlaneByte (n stride : Nat) (m : Mem) (q : Nat → Byte) (i : Nat) : Prop :=
  ∃ prev pred : Byte,
    prev = (if i < 3 then 0 else q (i - 3)) ∧
    (i < stride → pred = prev) ∧
    (stride ≤ i → RgbPrediction prev (rgbHeld q m n i (i - stride + 3)) (rgbHeld q m n i (i - stride)) pred) ∧
    q i = pred - m.read (channelStart n 3 (i % 3) + i / 3)

/-- The bytes of planes made no later than byte `i`. -/
def MadeBy (i j : Nat) : Prop := j % 3 < i % 3 ∨ (j % 3 = i % 3 ∧ j ≤ i)

section Planes

variable {n stride : Nat} {m : Mem} {q q' : Nat → Byte}

theorem rgbHeld_congr {i : Nat} (h : ∀ j, j ≠ i → MadeBy i j → q' j = q j) (j : Nat) :
    rgbHeld q' m n i j = rgbHeld q m n i j := by
  unfold rgbHeld
  split
  · next hbefore => exact h j (by omega) (by unfold MadeBy; omega)
  · rfl

/-- A byte depends on the bytes made no later than it. -/
theorem RgbPlaneByte.congr {i : Nat} (h : ∀ j, MadeBy i j → q' j = q j) (hi : RgbPlaneByte n stride m q i) :
    RgbPlaneByte n stride m q' i := by
  obtain ⟨prev, pred, hprev, hrow, hbelow, hq⟩ := hi
  refine ⟨prev, pred, ?_, hrow, fun hle => ?_, ?_⟩
  · rw [hprev]
    split
    · rfl
    · exact (h _ (by unfold MadeBy; omega)).symm
  · rw [rgbHeld_congr fun j _ => h j, rgbHeld_congr fun j _ => h j]
    exact hbelow hle
  · rw [h i (.inr ⟨rfl, le_refl i⟩), hq]

/-- The first loop before sample `k` of plane `c`: the byte it keeps; the output bytes not yet made are as the memory
held them; those made are predicted. -/
structure RgbUpto (n stride : Nat) (m : Mem) (c k : Nat) (prev : Byte) (m' : Mem) : Prop where
  wf : m'.Wf
  prev_eq : prev = if k = 0 then 0 else m'.read (n + (c + (k - 1) * 3))
  ahead : ∀ j, ¬ (j % 3 < c ∨ (j % 3 = c ∧ j < c + k * 3)) → m'.read (n + j) = m.read (n + j)
  made : ∀ i, i < n → i % 3 < c ∨ (i % 3 = c ∧ i < c + k * 3) →
    RgbPlaneByte n stride m (fun j => m'.read (n + j)) i

theorem RgbUpto.start (hwf : m.Wf) : RgbUpto n stride m 0 0 0 m :=
  ⟨hwf, rfl, fun _ _ => rfl, fun _ _ _ => by omega⟩

/-- The memory reads as the bytes held while the next one is made. -/
theorem RgbUpto.read_eq_held {c k : Nat} {prev : Byte} {m' : Mem} (h : RgbUpto n stride m c k prev m') (hc : c < 3)
    (j : Nat) : m'.read (n + j) = rgbHeld (fun j => m'.read (n + j)) m n (c + k * 3) j := by
  unfold rgbHeld
  split
  · rfl
  · next hahead => exact h.ahead j (by omega)

/-- The byte before the next one in its plane. -/
theorem RgbUpto.prev_eq_read {c k : Nat} {prev : Byte} {m' : Mem} (h : RgbUpto n stride m c k prev m') (hc : c < 3) :
    prev = if c + k * 3 < 3 then 0 else m'.read (n + (c + k * 3 - 3)) := by
  rw [h.prev_eq]
  by_cases hk : k = 0
  · rw [if_pos hk, if_pos (by omega)]
  · have hback : c + (k - 1) * 3 = c + k * 3 - 3 := by omega
    rw [if_neg hk, if_neg (by omega), hback]

/-- The next byte is predicted from the bytes held. -/
theorem RgbUpto.predicted {c k : Nat} {prev : Byte} {m' : Mem} (h : RgbUpto n stride m c k prev m') (hc : c < 3)
    (hbelow : stride ≤ c + k * 3) :
    RgbPrediction prev (rgbHeld (fun j => m'.read (n + j)) m n (c + k * 3) (c + k * 3 - stride + 3))
      (rgbHeld (fun j => m'.read (n + j)) m n (c + k * 3) (c + k * 3 - stride))
      (rgbPredAt n stride (c + k * 3) m' prev) := by
  rw [← h.read_eq_held hc, ← h.read_eq_held hc, rgbPredAt, if_pos hbelow, Nat.add_assoc n]
  exact rgbPredict_prediction _ _ _

/-- One sample of a plane. -/
theorem RgbUpto.step {c k : Nat} {prev : Byte} {m' : Mem} (hc : c < 3) (h : RgbUpto n stride m c k prev m')
    {v : Byte}
    (hv : v = rgbPredAt n stride (c + k * 3) m' prev - m.read (channelStart n 3 c + k)) :
    RgbUpto n stride m c (k + 1) v (m'.write (n + (c + k * 3)) v) := by
  have hold : ∀ j, j ≠ c + k * 3 → (m'.write (n + (c + k * 3)) v).read (n + j) = m'.read (n + j) :=
    fun j hj => Mem.read_write_ne _ _ _ _ (by omega)
  have hnew : (m'.write (n + (c + k * 3)) v).read (n + (c + k * 3)) = v := Mem.read_write_same _ _ _ h.wf
  refine ⟨m'.write_wf _ _ h.wf, ?_, fun j hj => ?_, fun i hi hmade => ?_⟩
  · rw [if_neg (by omega), Nat.add_sub_cancel, hnew]
  · rw [hold j (by omega), h.ahead j (by omega)]
  · by_cases hik : i = c + k * 3
    · subst hik
      refine ⟨prev, rgbPredAt n stride (c + k * 3) m' prev, ?_, fun hrow => if_neg (Nat.not_le.2 hrow),
        fun hbelow => ?_, ?_⟩
      · rw [h.prev_eq_read hc]
        split
        · rfl
        · exact (hold _ (by omega)).symm
      · rw [rgbHeld_congr fun j hj _ => hold j hj, rgbHeld_congr fun j hj _ => hold j hj]
        exact h.predicted hc hbelow
      · have hplace : (c + k * 3) % 3 = c := by omega
        have hrow : (c + k * 3) / 3 = k := by omega
        rw [hplace, hrow]
        exact hnew.trans hv
    · exact (h.made i hi (by omega)).congr fun j hj => hold j (by unfold MadeBy at hj; omega)

/-- The next plane. -/
theorem RgbUpto.nextPlane {c : Nat} {prev : Byte} {m' : Mem}
    (h : RgbUpto n stride m c (channelSamples n 3 c) prev m') : RgbUpto n stride m (c + 1) 0 0 m' := by
  refine ⟨h.wf, rfl, fun j hj => h.ahead j (by omega), fun i hi hmade => h.made i hi ?_⟩
  obtain hearlier | rfl : i % 3 < c ∨ i % 3 = c := by omega
  · exact .inl hearlier
  · have hlast := (lt_channelSamples_iff (n := n) (c := i % 3) (k := i / 3) (by decide : 0 < 3)).2 (by omega)
    exact .inr ⟨rfl, by omega⟩

/-- The first loop makes the planes of R147. -/
theorem rgbPlanes_spec (hwf : m.Wf) :
    (rgbPlanes n stride m).Wf ∧ RgbPlanes n stride m fun j => (rgbPlanes n stride m).read (n + j) := by
  obtain ⟨-, -, hinv⟩ := Predictor.channels_inv (p := rgbPredictor n stride) (n := n) (ch := 3)
    (P := RgbUpto n stride m) (RgbUpto.start hwf) (fun c k prev m' hc _ h => h.step hc rfl)
    (fun c prev m' _ h => h.nextPlane) (le_refl 3)
  exact ⟨hinv.wf, fun i hi => hinv.made i hi (.inl (Nat.mod_lt i (by decide)))⟩

end Planes

/-! ### The middle component (R147) -/

section Pixels

variable {n posr i : Nat} {q : Nat → Byte} {m : Mem}

/-- The second loop at pixel `i`: the bytes before it are finished, the others are the planes'. -/
structure AddUpto (n posr : Nat) (q : Nat → Byte) (i : Nat) (m : Mem) : Prop where
  wf : m.Wf
  pixel : posr ≤ i ∧ (i - posr) % 3 = 0
  behind : ∀ j, j < i → m.read (n + j) = rgbOutput n posr q j
  ahead : ∀ j, i ≤ j → m.read (n + j) = q j

/-- Before the first pixel nothing is added. -/
theorem AddUpto.start (hwf : m.Wf) : AddUpto n posr (fun j => m.read (n + j)) posr m :=
  ⟨hwf, ⟨le_refl _, by simp⟩, fun j hj => (if_neg (by omega)).symm, fun _ _ => rfl⟩

theorem rgbAddStep_wf (hwf : m.Wf) : (rgbAddStep n (i, m)).2.Wf := Mem.write_wf _ _ _ (Mem.write_wf _ _ _ hwf)

/-- What one pixel's step makes of the output bytes. -/
theorem read_rgbAddStep (hwf : m.Wf) (j : Nat) :
    (rgbAddStep n (i, m)).2.read (n + j) =
      if j = i ∨ j = i + 2 then m.read (n + j) + m.read (n + (i + 1)) else m.read (n + j) := by
  rw [rgbAddStep, Mem.read_write _ _ _ _ (Mem.write_wf _ _ _ hwf)]
  dsimp only
  rw [Mem.read_write_ne _ _ (n + i + 2) _ (by omega), Mem.read_write _ _ _ _ hwf, Nat.add_assoc n i 2,
    Nat.add_assoc n i 1]
  by_cases hlast : j = i + 2
  · subst hlast
    rw [if_pos rfl, if_pos (.inr rfl)]
  · by_cases hfirst : j = i
    · subst hfirst
      rw [if_neg (by omega), if_pos rfl, if_pos (.inl rfl)]
    · rw [if_neg (by omega), if_neg (by omega), if_neg (by omega)]

/-- The finished bytes of a whole pixel. -/
theorem rgbOutput_pixel (hpixel : posr ≤ i ∧ (i - posr) % 3 = 0) (hroom : i + 2 < n) {j : Nat} (hij : i ≤ j)
    (hji : j < i + 3) : rgbOutput n posr q j = if j = i ∨ j = i + 2 then q j + q (i + 1) else q j := by
  obtain ⟨hpos, hmod⟩ := hpixel
  have hfirst : j - (j - posr) % 3 = i := by omega
  rw [rgbOutput, hfirst]
  by_cases hmiddle : j = i + 1
  · rw [if_neg (by omega), if_neg (by omega)]
  · rw [if_pos ⟨by omega, hroom, hmiddle⟩, if_pos (by omega)]

/-- One pixel. -/
theorem AddUpto.step (h : AddUpto n posr q i m) (hroom : i + 2 < n) :
    AddUpto n posr q (i + 3) (rgbAddStep n (i, m)).2 := by
  obtain ⟨hpos, hmod⟩ := h.pixel
  refine ⟨rgbAddStep_wf h.wf, ⟨by omega, by omega⟩, fun j hj => ?_, fun j hj => ?_⟩
  · rw [read_rgbAddStep h.wf]
    obtain hbehind | hpixel := Nat.lt_or_ge j i
    · rw [if_neg (by omega), h.behind j hbehind]
    · rw [rgbOutput_pixel h.pixel hroom hpixel hj, h.ahead j hpixel, h.ahead (i + 1) (by omega)]
  · rw [read_rgbAddStep h.wf, if_neg (by omega), h.ahead j (by omega)]

/-- Past the last whole pixel nothing is added. -/
theorem AddUpto.finish (h : AddUpto n posr q i m) (hend : n ≤ i + 2) {j : Nat} (hj : j < n) :
    m.read (n + j) = rgbOutput n posr q j := by
  obtain ⟨hpos, hpixel⟩ := h.pixel
  obtain hbehind | hahead := Nat.lt_or_ge j i
  · exact h.behind j hbehind
  · rw [h.ahead j hahead]
    exact (if_neg (by omega)).symm

end Pixels

/-- Settles O58: the first loop makes the planes, and the second adds to them. -/
theorem rgbOutputsFollowThePrediction : Obligations.RgbOutputsFollowThePrediction := by
  intro pos len stride posr s hwf hlen hpixel hrow hposr
  obtain ⟨hwf', hplanes⟩ := rgbPlanes_spec (n := len.toNat) (stride := stride.toNat) hwf
  refine ⟨_, _, exec_fltRgb hposr hlen hpixel hrow, hplanes, fun i hi => ?_⟩
  obtain ⟨hinv, hend⟩ := loopWhile_exit (n := len.toNat) (cond := fun im => im.1 + 2 < len.toNat)
    (body := rgbAddStep len.toNat) (x := (posr.toNat, rgbPlanes len.toNat stride.toNat s.flt.mem))
    (fun im : Nat × Mem => AddUpto len.toNat posr.toNat
      (fun j => (rgbPlanes len.toNat stride.toNat s.flt.mem).read (len.toNat + j)) im.1 im.2)
    (fun im => len.toNat - im.1) (fun im him hroom => him.step (of_decide_eq_true hroom))
    (fun im hroom => by
      have hlt : im.1 + 2 < len.toNat := of_decide_eq_true hroom
      show len.toNat - (im.1 + 3) < len.toNat - im.1
      omega)
    (AddUpto.start hwf') (Nat.sub_le _ _)
  rw [rgbTransform_eq]
  exact hinv.finish (Nat.not_lt.1 (of_decide_eq_false hend)) hi

end Sys2Proof.Machine
end

section
/-! The system commands that only answer (45_system.md R160, R163): `SYS.NOP` and the parameters of R5. -/

namespace Sys2Proof.Machine

/-- The parameters of R5 in the order of R163's table. -/
def State.paramTable (s : State) : List Nat :=
  [1, 64, s.params.l2Bytes, s.params.tableDepth, 8, s.params.hufStageSize, s.params.hufNodeCap,
    s.params.winLog2Max, s.params.fltMemSize, 0xEDB88320, s.src.total.toNat]

/-- What `SYS.PARAM` reads is the table's entry, row by row. -/
theorem State.paramTable_eq_map (s : State) : s.paramTable = (List.range 11).map s.param := rfl

/-- An entry of the table is the parameter of a legal index. -/
theorem State.paramTable_getElem?_eq_some {s : State} {index v : Nat} (h : s.paramTable[index]? = some v) :
    index ≤ 10 ∧ s.param index = v := by
  rw [s.paramTable_eq_map, List.getElem?_eq_some_iff] at h
  obtain ⟨hlength, hentry⟩ := h
  rw [List.getElem_map, List.getElem_range] at hentry
  rw [List.length_map, List.length_range] at hlength
  exact ⟨Nat.le_of_lt_succ hlength, hentry⟩

/-- Up to index 10 `SYS.PARAM` answers the parameter. -/
theorem exec_sysParam {index : Byte} (hindex : index.toNat ≤ 10) (s : State) :
    exec (.sysParam index) s = .next (s.respond .ok (BitVec.ofNat 64 (s.param index.toNat)) 0) := by
  have hcheck : paramIndexOk index = true := decide_eq_true hindex
  show execSysParam index s = _
  rw [execSysParam, hcheck]
  rfl

/-- Settles O20: R163's table has an entry at the legal indices only, and each is the parameter read. -/
theorem sysNopAndParamAnswer : Obligations.SysNopAndParamAnswer := by
  refine ⟨encodedAs_row _, rfl, fun _ => encodedAs_row _, fun s => ⟨rfl, fun index hlarge => ?_,
    fun index v hentry => ?_⟩⟩
  · exact exec_of_not_wellFormed (decide_eq_false (Nat.not_le.2 hlarge) : paramIndexOk index = false)
  · obtain ⟨hindex, rfl⟩ := State.paramTable_getElem?_eq_some (s := s) hentry
    exact exec_sysParam hindex s

end Sys2Proof.Machine
end

section
/-! The responses and failures of every command (60_exceptions.md R170 to R174, R178): the statuses a build can fail
with, then all the ways one command can end, and what each of them leaves. -/

namespace Sys2Proof.Machine

/-! ### Totality (R178) -/

/-- Each command's arm is a next state, whatever its checks decide. -/
theorem exec_answers (i : Instr) (s : State) : ∃ t, exec i s = .next t := by
  cases i <;> exact ⟨_, rfl⟩

/-- Settles O8: an idle step and a word that is no command are answered by the step, every other word by its command. -/
theorem everyCommandAnswers : Obligations.EveryCommandAnswers := by
  refine ⟨exec_answers, fun s => ?_⟩
  unfold step
  split
  · exact ⟨_, rfl⟩
  split
  · exact exec_answers _ _
  · exact ⟨_, rfl⟩

/-! ### The statuses of a failed build (R102, R105, R107) -/

/-- A result that fails, if it does, with one of the statuses `l`. -/
def ErrorsIn {α : Type} (l : List Status) : Except Status α → Prop
  | .error st => st ∈ l
  | .ok _ => True

/-- The walk of an insertion meets a leaf or runs out of nodes. -/
theorem insertWalk_errorsIn (cap : Nat) (code : Word) (i j : Nat) (ns : List Node) :
    ErrorsIn [.huffPrefixPresent, .allocFail] (insertWalk cap code i j ns) := by
  induction i generalizing j ns with
  | zero => exact trivial
  | succ i ih =>
    rw [insertWalk]
    split
    · exact .head _
    dsimp only
    split
    · split
      · exact .tail _ (.head _)
      · exact ih _ _
    · exact ih _ _

/-- An insertion fails as its walk does, at an occupied node, or on a reserved symbol. -/
theorem insertCode_errorsIn {l : List Status} (hl : [.huffPrefixPresent, .allocFail] ⊆ l) {symbol : Word}
    (hsymbol : symbol.extractLsb' 27 5 ≠ 0 → .huffReservedSymbol ∈ l) (cap : Nat) (code : Word) (length : Nat)
    (ns : List Node) : ErrorsIn l (insertCode cap code length symbol ns) := by
  have hwalk := insertWalk_errorsIn cap code length 0 ns
  rw [insertCode]
  split
  · next hreserved => exact hsymbol hreserved
  split
  · next hw => rw [hw] at hwalk; exact hl hwalk
  · split
    · exact trivial
    · exact hl (.head _)

/-- The insertions of `HUF.BUILDC` fail with the statuses R170 lists for it. -/
theorem explicitInserts_errorsIn (cap : Nat) (entries : List (Nat × StageEntry)) (ns : List Node) :
    ErrorsIn [.huffPrefixPresent, .huffReservedSymbol, .allocFail] (explicitInserts cap entries ns) := by
  induction entries generalizing ns with
  | nil => exact trivial
  | cons e entries ih =>
    obtain ⟨i, e⟩ := e
    have hins := insertCode_errorsIn (l := [.huffPrefixPresent, .huffReservedSymbol, .allocFail]) (by decide)
      (symbol := e.symbol) (fun _ => by decide) cap e.code e.length.toNat ns
    rw [explicitInserts]
    split
    · next h => rw [h] at hins; exact hins
    · exact ih _

/-- A symbol that is an index of 16 bits is not reserved. -/
theorem index_not_reserved {i : Nat} (h : i < 2 ^ 16) : (BitVec.ofNat 32 i).extractLsb' 27 5 = 0 := by
  apply BitVec.eq_of_toNat_eq
  rw [BitVec.extractLsb'_toNat, BitVec.toNat_ofNat, Nat.shiftRight_eq_div_pow]
  simp only [BitVec.ofNat_eq_ofNat, BitVec.toNat_ofNat]
  omega

section Canonical

variable {entries : List (Nat × StageEntry)}

/-- The insertions of one length fail so where every symbol is an index of 16 bits. -/
theorem canonicalLevel_errorsIn (he : ∀ e ∈ entries, e.1 < 2 ^ 16) (cap len : Nat) (code : Word) (ns : List Node) :
    ErrorsIn [.huffPrefixPresent, .allocFail] (canonicalLevel cap len entries (code, ns)) := by
  induction entries generalizing code ns with
  | nil => exact trivial
  | cons e entries ih =>
    obtain ⟨i, e⟩ := e
    have ih := ih fun e h => he e (.tail _ h)
    have hins := insertCode_errorsIn (List.Subset.refl [Status.huffPrefixPresent, .allocFail])
      (fun hreserved => absurd (index_not_reserved (he (i, e) (.head _))) hreserved) cap code len ns
    rw [canonicalLevel]
    split
    · split
      · next h => rw [h] at hins; exact hins
      · exact ih _ _
    · exact ih _ _

/-- So do those of all lengths. -/
theorem canonicalLevels_errorsIn (he : ∀ e ∈ entries, e.1 < 2 ^ 16) (cap : Nat) (lens : List Nat) (code : Word)
    (ns : List Node) : ErrorsIn [.huffPrefixPresent, .allocFail] (canonicalLevels cap entries lens (code, ns)) := by
  induction lens generalizing code ns with
  | nil => exact trivial
  | cons len lens ih =>
    have hlevel := canonicalLevel_errorsIn he cap len code ns
    rw [canonicalLevels]
    split
    · next h => rw [h] at hlevel; exact hlevel
    · exact ih _ _

end Canonical

/-- The insertions of `HUF.BUILDL` fail with the statuses R170 lists for it: their symbols are indices. -/
theorem canonicalBuild_errorsIn (cap : Nat) (stage : List (Nat × StageEntry)) (count : Half) (maxlen : Nat) :
    ErrorsIn [.huffPrefixPresent, .allocFail] (canonicalBuild cap (stagedEntries stage count.toNat) maxlen) := by
  refine canonicalLevels_errorsIn (fun e he => ?_) _ _ _ _
  exact Nat.lt_trans ((mem_stagedEntries stage count.toNat e.1 e.2).1 he).1 count.isLt

/-! ### All the ways a command can end (R173, R174) -/

/-- The failures a command finds before it has any effect; R174's table lists an effect for every other one. -/
def Status.isCheck : Status → Bool
  | .badCommand | .notReady | .seekFail | .overhangPending | .outFull | .filtersInvalidLength
  | .filtersInvalidFilePosition => true
  | .ok | .readFail | .huffPrefixPresent | .huffReservedSymbol | .huffInvalidCode | .allocFail => false

/-- `t` is an end of command `i` in state `s`: success, a failed check, the short-circuit under the sticky error, or a
failure that R174's table lists with an effect. -/
inductive Ends : Instr → State → State → Prop
  /-- It answers `OK`. -/
  | ok {i : Instr} {s t : State} (h : t.rsp.status = .ok) : Ends i s t
  /-- A check fails. -/
  | refused {i : Instr} {s : State} (st : Status) (hst : st = .badCommand ∨ st ∈ specialStatuses i)
    (hcheck : st.isCheck = true) : Ends i s (s.fail st)
  /-- `bs.err` was set (R72). -/
  | shortCircuit {i : Instr} {s : State} (hst : .readFail ∈ specialStatuses i) (he : s.bs.err = true) :
    Ends i s (s.respond .readFail (if i = .bsAtend then 1 else 0) 0)
  /-- `BS.READ` needs more bits than remain. -/
  | bsRead {n : Byte} {s : State} (he : s.bs.err = false) : Ends (.bsRead n) s s.overRead
  /-- So does `BS.SKIP`. -/
  | bsSkip {n : Word} {s : State} (he : s.bs.err = false) : Ends (.bsSkip n) s s.overRead
  /-- An insertion of a build fails, past the operand check (R108). -/
  | build {i : Instr} {s : State} {slot : Byte} {count : Half} {maxlen : Word}
    (hi : i = .hufBuildl slot count maxlen ∨ i = .hufBuildc slot count maxlen) (hslot : slot.toNat < 8) (st : Status)
    (hst : st ∈ specialStatuses i) : Ends i s ((s.setSlot slot.toNat Slot.free).fail st)
  /-- `HUF.DECODE` comes to its table stage (R109). -/
  | hufDecode {slot : Byte} {s : State} (he : s.bs.err = false) :
    Ends (.hufDecode slot) s (s.decodeSymbol (s.slot slot.toNat))

namespace Ends

variable {i : Instr} {s : State}

/-- A check that answers one of the command's own statuses. -/
theorem check {st : Status} (hst : st ∈ specialStatuses i := by simp [specialStatuses])
    (hcheck : st.isCheck = true := by rfl) : Ends i s (s.fail st) := .refused st (.inr hst) hcheck

/-- A range check. -/
theorem range : Ends i s (s.fail .badCommand) := .refused _ (.inl rfl) rfl

/-- Whichever branch is taken. -/
theorem ite {c : Prop} [Decidable c] {a b : State} (ha : Ends i s a) (hb : Ends i s b) :
    Ends i s (if c then a else b) := by
  split
  · exact ha
  · exact hb

/-- The checks of a stream command (R70, R72). -/
theorem onStream {failValue : DWord} {act : State} (hact : s.bs.err = false → Ends i s act)
    (hstream : .notReady ∈ specialStatuses i ∧ .readFail ∈ specialStatuses i := by simp [specialStatuses])
    (hvalue : failValue = if i = .bsAtend then 1 else 0 := by simp) : Ends i s (s.onStream failValue act) := by
  obtain ⟨hclosed, hstopped⟩ := hstream
  rcases s.onStream_cases failValue act with ⟨-, h⟩ | ⟨-, he, h⟩ | ⟨-, he, h⟩ <;> rw [h]
  · exact .check hclosed
  · rw [hvalue]
    exact .shortCircuit hstopped he
  · exact hact he

/-- The end of a build (R108). -/
theorem finishBuild {slot : Byte} {count : Half} {maxlen : Word} {r : Except Status (List Node)}
    (hi : i = .hufBuildl slot count maxlen ∨ i = .hufBuildc slot count maxlen)
    (hops : buildOperandsOk s.params slot count maxlen = true) (hr : ErrorsIn (specialStatuses i) r) :
    Ends i s (s.finishBuild slot.toNat maxlen.toNat r) := by
  cases r with
  | error st =>
    obtain ⟨hslot, -⟩ := (buildOperandsOk_iff ..).1 hops
    exact .build hi hslot st hr
  | ok ns => exact .ok rfl

/-- An in-place transform (R142). -/
theorem inPlace {pos n : Word} {m : Mem}
    (hst : .filtersInvalidLength ∈ specialStatuses i ∧ .filtersInvalidFilePosition ∈ specialStatuses i :=
      by simp [specialStatuses]) : Ends i s (s.inPlace pos n m) :=
  .ite (.check hst.1) (.ite (.check hst.2) (.ok rfl))

end Ends

/-- Every command ends in one of these ways. -/
theorem exec_ends {i : Instr} {s t : State} (h : exec i s = .next t) : Ends i s t := by
  cases i with
  | sysNop | sysReset | sysStat | bsErr | bsTell | crcSeed | crcGet | lzHasov | lzOutlen | lzTell =>
    cases h; exact .ok rfl
  | sysParam | crcUpd | crcUpdo | crcUpdf | hufStage | hufFree | lzInit | lzSetout | lzOutrd | fltWr | fltRd =>
    cases h; exact .ite .range (.ok rfl)
  | bsOpen | lzDrain | lzWinrd => cases h; exact .ite .check (.ok rfl)
  | bsRead => cases h; exact .ite .range (.onStream fun he => .ite (.bsRead he) (.ok rfl))
  | bsPeek => cases h; exact .ite .range (.onStream fun _ => .ok rfl)
  | bsSkip => cases h; exact .onStream fun he => .ite (.bsSkip he) (.ok rfl)
  | bsAlign | bsHas | bsAtend => cases h; exact .onStream fun _ => .ok rfl
  | bsBack => cases h; exact .onStream fun _ => .ite .check (.ok rfl)
  | hufDecode => cases h; exact .ite .range (.ite .check (.onStream .hufDecode))
  | hufRdtab | hufRdnode => cases h; exact .ite .range (.ite .check (.ite .range (.ok rfl)))
  | hufBuildl slot count maxlen =>
    obtain rfl | ⟨hops, rfl⟩ := exec_hufBuildl_cases h
    · exact .range
    · exact .finishBuild (.inl rfl) hops (canonicalBuild_errorsIn _ _ _ _)
  | hufBuildc slot count maxlen =>
    obtain rfl | ⟨hops, -, rfl⟩ := exec_hufBuildc_cases h
    · exact .range
    · exact .finishBuild (.inr rfl) hops (explicitInserts_errorsIn _ _ _)
  | lzLit => cases h; exact .ite .check (.ite .check (.ite .check (.ok rfl)))
  | lzCopy => cases h; exact .ite .check (.ite .check (.ok rfl))
  | fltDelta | fltAudio | fltRgb => cases h; exact .ite .range (.ite .check (.ok rfl))
  | fltX86 | fltX86e9 | fltArm => cases h; exact .inPlace

/-! ### Statuses and results of failures (R170, R171) -/

/-- What the decode answers: a failure with zeros, or `OK`. -/
theorem State.decodeSymbol_rsp (s : State) (h : Slot) :
    (s.decodeSymbol h).rsp = ⟨.readFail, 0, 0⟩ ∨ (s.decodeSymbol h).rsp = ⟨.huffInvalidCode, 0, 0⟩ ∨
      (s.decodeSymbol h).rsp.status = .ok := by
  obtain ⟨-, -, -, -, -, -, -, -, hrsp⟩ := s.decodeSymbol_frame h
  exact hrsp.imp And.left (Or.imp And.left And.left)

/-- Settles O11: each end answers a status of the command's row. -/
theorem statusesPerCommand : Obligations.StatusesPerCommand := by
  intro i s t h
  cases exec_ends h with
  | ok hok => exact .inl hok
  | refused st hst => exact .inr hst
  | shortCircuit hst => exact .inr (.inr hst)
  | bsRead | bsSkip => exact .inr (.inr (.head _))
  | build _ _ st hst => exact .inr (.inr hst)
  | @hufDecode slot =>
    obtain hrsp | hrsp | hok := s.decodeSymbol_rsp (s.slot slot.toNat)
    · rw [hrsp]; exact .inr (.inr (.head _))
    · rw [hrsp]; exact .inr (.inr (.tail _ (.head _)))
    · exact .inl hok

/-- Settles O10: every end but success is a `fail`, or the short-circuit with the command's failure value. -/
theorem failuresAnswerZero : Obligations.FailuresAnswerZero := by
  intro i s t h hne
  cases exec_ends h with
  | ok hok => exact absurd hok hne
  | refused st _ hcheck =>
    refine ⟨rfl, (if_neg ?_).symm⟩
    rintro ⟨-, rfl⟩
    cases hcheck
  | shortCircuit => simp
  | bsRead | bsSkip => exact ⟨rfl, (if_neg nofun).symm⟩
  | build hi =>
    refine ⟨rfl, (if_neg ?_).symm⟩
    rintro ⟨rfl, -⟩
    obtain hi | hi := hi <;> cases hi
  | @hufDecode slot =>
    obtain hrsp | hrsp | hok := s.decodeSymbol_rsp (s.slot slot.toNat)
    · rw [hrsp]; exact ⟨rfl, (if_neg nofun).symm⟩
    · rw [hrsp]; exact ⟨rfl, (if_neg nofun).symm⟩
    · exact absurd hok hne

/-! ### What failures change (R174) -/

/-- No insertion of a build fails with the status of a check or with the short-circuit's. -/
theorem status_of_failedBuild {i : Instr} {slot : Byte} {count : Half} {maxlen : Word} {st : Status}
    (hi : i = .hufBuildl slot count maxlen ∨ i = .hufBuildc slot count maxlen) (hst : st ∈ specialStatuses i) :
    st.isCheck = false ∧ st ≠ .readFail := by
  have hlate : ∀ st ∈ [Status.huffPrefixPresent, .huffReservedSymbol, .allocFail],
      st.isCheck = false ∧ st ≠ .readFail := by decide
  have hsub : [Status.huffPrefixPresent, .allocFail] ⊆ [.huffPrefixPresent, .huffReservedSymbol, .allocFail] := by
    decide
  obtain rfl | rfl := hi
  · exact hlate st (hsub hst)
  · exact hlate st hst

/-- A failed check and the short-circuit leave the state as it was. -/
theorem failureEffect_respond {i : Instr} {s : State} {st : Status} {r0 : DWord} {r1 : Word}
    (hst : st = .badCommand ∨ st ∈ specialStatuses i)
    (hclean : st.isCheck = true ∨ st = .readFail ∧ s.bs.err = true) : FailureEffect i s (s.respond st r0 r1) := by
  have hfresh : ¬ (st = .readFail ∧ s.bs.err = false) := by
    rintro ⟨rfl, he⟩
    obtain hcheck | ⟨-, herr⟩ := hclean
    · cases hcheck
    · rw [he] at herr; cases herr
  have hbuild {slot : Byte} {count : Half} {maxlen : Word}
      (hi : i = .hufBuildl slot count maxlen ∨ i = .hufBuildc slot count maxlen) : st = .badCommand := by
    refine hst.resolve_right fun hmem => ?_
    obtain ⟨hlate, hne⟩ := status_of_failedBuild hi hmem
    obtain hcheck | ⟨hread, -⟩ := hclean
    · rw [hlate] at hcheck; cases hcheck
    · exact hne hread
  cases i with
  | bsRead | bsSkip => exact (if_neg hfresh).mpr rfl
  | hufBuildl => exact (if_pos (hbuild (.inl rfl))).mpr rfl
  | hufBuildc => exact (if_pos (hbuild (.inr rfl))).mpr rfl
  | hufDecode =>
    have hcode : st ≠ .huffInvalidCode := by
      rintro rfl
      obtain hcheck | ⟨hread, -⟩ := hclean
      · cases hcheck
      · cases hread
    exact (if_neg hfresh).mpr ((if_neg hcode).mpr rfl)
  | _ => rfl

/-- A failed build leaves its slot free, and nothing else changed (R108). -/
theorem failureEffect_build {i : Instr} {slot : Byte} {count : Half} {maxlen : Word} {s : State} {st : Status}
    (hi : i = .hufBuildl slot count maxlen ∨ i = .hufBuildc slot count maxlen) (hslot : slot.toNat < 8)
    (hst : st ∈ specialStatuses i) : FailureEffect i s ((s.setSlot slot.toNat Slot.free).fail st) := by
  have hne : st ≠ .badCommand := by
    rintro rfl
    obtain ⟨hlate, -⟩ := status_of_failedBuild hi hst
    cases hlate
  have hfree : ((s.setSlot slot.toNat Slot.free).fail st).slot slot.toNat = Slot.free :=
    s.slot_setSlot_self slot.toNat Slot.free hslot
  obtain rfl | rfl := hi
  all_goals
    refine (if_neg hne).mpr ?_
    rw [hfree]
    exact ⟨rfl, rfl, rfl, rfl, rfl⟩

/-- The decode's two failures: an over-read sets the sticky error where the position stood or at the end, and a missing
code moves the position within the stream. -/
theorem failureEffect_hufDecode {slot : Byte} {s : State} {h : Slot} (hs : s.StreamOk) (he : s.bs.err = false)
    (hne : (s.decodeSymbol h).rsp.status ≠ .ok) : FailureEffect (.hufDecode slot) s (s.decodeSymbol h) := by
  obtain ⟨k, v, hk, hv, hout⟩ := s.decodeSymbol_cases h hs
  have hpos := s.advance_pos k hs hk
  have hbound := hs.1
  rw [State.remaining] at hk hout
  obtain ⟨w, hw, rfl⟩ := hv.eq_advance
  rw [sameButBuffers_iff] at hw hv
  obtain ⟨-, -, -, -, -, -, -, -, -, -, -, hvpos, -⟩ := hv
  rw [← hvpos] at hpos
  obtain ⟨hend, heq⟩ | heq | ⟨sym, n, heq⟩ := hout
  · rw [heq, FailureEffect, if_pos ⟨rfl, he⟩]
    refine ⟨rfl, ?_, ?_⟩
    · refine hend.imp (fun h0 => BitVec.eq_of_toNat_eq ?_) fun hall => ?_
      · exact hpos.trans (by rw [h0, Nat.add_zero])
      · exact hpos.trans (by omega)
    · rw [sameButBuffers_iff]
      simp [hw]
  · have hst : ((w.advance k).fail .huffInvalidCode).rsp.status = .huffInvalidCode := rfl
    have hread : ¬ (((w.advance k).fail .huffInvalidCode).rsp.status = .readFail ∧ s.bs.err = false) := nofun
    rw [heq, FailureEffect, if_neg hread, if_pos hst]
    refine ⟨?_, ?_, ?_⟩
    · exact Nat.le_trans (Nat.le_add_right _ k) hpos.ge
    · exact Nat.le_trans hpos.le (by omega)
    · rw [sameButBuffers_iff]
      simp [hw]
  · rw [heq] at hne
    exact absurd rfl hne

/-- Settles O9: a failure is a check that leaves the state, or one of the effects R174's table lists. -/
theorem failuresArePrecise : Obligations.FailuresArePrecise := by
  intro i s t hs h hne
  cases exec_ends h with
  | ok hok => exact absurd hok hne
  | refused st hst hcheck => exact failureEffect_respond hst (.inl hcheck)
  | shortCircuit hst he => exact failureEffect_respond (.inr hst) (.inr ⟨rfl, he⟩)
  | bsRead he | bsSkip he => exact (if_pos ⟨rfl, he⟩).mpr rfl
  | build hi hslot st hst => exact failureEffect_build hi hslot hst
  | hufDecode he => exact failureEffect_hufDecode hs he hne

end Sys2Proof.Machine
end
